-- ==== Sys2Proof/Word.lean ====
section
/-! DEFINITION. The data words of tankbot-codec (00_scope.md section 6): bytes, 16-bit values, the ring select and the packet. -/

namespace Sys2Proof

/-- `u8`: an unsigned 8-bit value, bits 7 down to 0 (00_scope.md section 6). -/
abbrev Byte := BitVec 8

/-- `u16`: an unsigned 16-bit value (00_scope.md section 6). -/
abbrev Half := BitVec 16

/-- The one-bit ring select of RB.PUSH, RB.POP and RB.AVAIL: 0 = `in`, 1 = `out` (R105). -/
inductive RingSel where
  | inp
  | out
  deriving DecidableEq, Repr

/-- `Packet{type, payload}`: a decoded packet, the unit of protocol exchange (R109, glossary).
The payload is carried by value (R33, R168). -/
structure Packet where
  ptype : Byte
  payload : List Byte
  deriving DecidableEq, Repr

end Sys2Proof
end

