-- ==== Sys2Proof/Config.lean ====
section
/-! DEFINITION. The parameters and constants of 00_scope.md section 4 (R5 to R11, R16), and the settings a model run is made with. -/

namespace Sys2Proof

/-- `RING_SLOTS`, the size of each ring's store (R5). -/
abbrev ringSlots : Nat := 256

/-- `RING_USABLE`, the greatest occupancy of a ring (R5, R23). -/
abbrev ringUsable : Nat := 255

/-- `PAYLOAD_MAX` (R6). -/
abbrev payloadMax : Nat := 223

/-- `FRAME_OVERHEAD`: two sync bytes, type, length, checksum, CR, LF (R6). -/
abbrev frameOverhead : Nat := 7

/-- `SYNC` (R7). -/
abbrev syncByte : Byte := 0x24#8

/-- `CR` (R7). -/
abbrev crByte : Byte := 0x0D#8

/-- `LF` (R7). -/
abbrev lfByte : Byte := 0x0A#8

/-- `TYPE_SPEED`, the code of `'S'` (R8). -/
abbrev typeSpeed : Byte := 0x53#8

/-- `TYPE_MESSAGE`, the code of `'M'` (R8). PRESUMED: the number comes from the ASCII table, as R8 and G1 say (log 17). -/
abbrev typeMessage : Byte := 0x4D#8

/-- `SPEED_LEN` (R9). -/
abbrev speedLen : Nat := 4

/-- `SPEED_MAX` (R9). -/
abbrev speedMax : Half := 10000#16

/-- `MSG_MAX` (R9). -/
abbrev msgMax : Nat := 200

/-- `OUT_FULL_POLICY`, the one open parameter (R10). -/
inductive OutFullPolicy where
  /-- Hold until space appears (R194). -/
  | spin
  /-- Return `WouldBlock`, push nothing (R195). -/
  | reject
  deriving DecidableEq, Repr

/-- Which agents share one thread of control (R202, R203, R259). DESIGN CHOICE (log 7): the model offers the
two variants the spec describes and the unconstrained block. -/
inductive Threads where
  /-- No two agents share a thread: every interleaving (R69, R256). -/
  | free
  /-- The polling and the enqueuing agent are the main loop (R203). -/
  | device
  /-- The receive, polling and transmit agents are the worker (R202, R259). -/
  | host
  deriving DecidableEq, Repr

/-- How much of a composite operation one turn of its agent takes. DESIGN CHOICE (log 6). -/
inductive Grain where
  /-- The whole call, up to its end or to a hold: no other agent's step falls inside it. -/
  | call
  /-- One primitive step (R12): any other agent's step may fall before the next (R69). -/
  | primitive
  deriving DecidableEq, Repr

/-- The settings of a run; no operation writes them (R10: fixed for the model; R273 (2)). -/
structure Config where
  policy : OutFullPolicy
  threads : Threads
  grain : Grain
  deriving DecidableEq, Repr

/-- The default settings: Spin (R10), and every interleaving of primitive steps (R69; log 6, log 7). -/
def Config.default : Config := ⟨.spin, .free, .primitive⟩

end Sys2Proof
end

