-- ==== Sys2Proof/Syntax.lean ====
section
/-! DEFINITION. The operations of the block and the other rows of spec/opcode_table.json, one constructor a row, in the table's order. -/

namespace Sys2Proof

/-- One constructor for each of the 37 rows of the opcode table.
The first 17 are the operations of R103, then the unassigned codes (R104), the three frame classes (R106) and
the sixteen transition rows of DEC.STEP (R106, R178).
A transition row whose byte condition is one constant carries no byte; the others carry the input byte `b`.
A frame row carries the length byte `L` of its header word and `rest`, the bytes after the header: payload,
checksum, CR, LF when `L` is at most 223, none when it is more (R90, R94, R101). -/
inductive Instr where
  | rbPush (r : RingSel) (b : Byte)
  | rbPop (r : RingSel)
  | rbAvail (r : RingSel)
  | encodeFrame (ptype len : Byte) (payload : List Byte)
  | decStep (b : Byte)
  | decReset
  | dispatch (p : Packet)
  | rxByte (b : Byte)
  | poll1
  | pollAll
  | enqueue (ptype len : Byte) (payload : List Byte)
  | sendSpeed (left right : Half)
  | sendMessage (n : Nat) (text : List Byte)
  | txByte
  | txFlush
  | ioFail
  | alive
  | badOp (code : BitVec 5)
  | frameSpeed (len : Byte) (rest : List Byte)
  | frameMessage (len : Byte) (rest : List Byte)
  | frameUnknown (ptype len : Byte) (rest : List Byte)
  | decSync1Hit
  | decSync1Miss (b : Byte)
  | decSync2Hit
  | decSync2Miss (b : Byte)
  | decType (b : Byte)
  | decLengthZero
  | decLengthOver (b : Byte)
  | decLengthOk (b : Byte)
  | decDataMore (b : Byte)
  | decDataLast (b : Byte)
  | decChecksumOk (b : Byte)
  | decChecksumBad (b : Byte)
  | decCrOk
  | decCrBad (b : Byte)
  | decLfOk
  | decLfBad (b : Byte)
  deriving DecidableEq, Repr

end Sys2Proof
end

