-- ==== Sys2Proof/WellFormed.lean ====
section
/-! DEFINITION. Which operand values the spec gives each operation and row (R103, R104, R106, R178). -/

namespace Sys2Proof

/-- How many bytes follow a frame's header word: payload, checksum, CR, LF for a legal length byte (R90); none for
224..255, where the frame is abandoned "without attempting to read 224 payload bytes" (R101, R164). -/
def restLength (len : Byte) : Nat :=
  if len.toNat ≤ payloadMax then len.toNat + 3 else 0

/-- A sequence of `len` bytes (R103). -/
def payloadFits (len : Byte) (payload : List Byte) : Bool :=
  payload.length == len.toNat

/-- The operands are as the table gives them. A packet's payload has 0..223 bytes (R220); an unassigned code is
0x11..0x1F (R104); a transition row's byte meets the row's constant byte condition (R178). -/
def Instr.wf : Instr → Bool
  | .rbPush _ _ => true
  | .rbPop _ => true
  | .rbAvail _ => true
  | .encodeFrame _ len payload => payloadFits len payload
  | .decStep _ => true
  | .decReset => true
  | .dispatch p => decide (p.payload.length ≤ payloadMax)
  | .rxByte _ => true
  | .poll1 => true
  | .pollAll => true
  | .enqueue _ len payload => payloadFits len payload
  | .sendSpeed _ _ => true
  | .sendMessage n text => text.length == n
  | .txByte => true
  | .txFlush => true
  | .ioFail => true
  | .alive => true
  | .badOp code => decide (0x11 ≤ code.toNat)
  | .frameSpeed len rest => rest.length == restLength len
  | .frameMessage len rest => rest.length == restLength len
  | .frameUnknown ptype len rest =>
      ptype != typeSpeed && ptype != typeMessage && rest.length == restLength len
  | .decSync1Hit => true
  | .decSync1Miss b => b != syncByte
  | .decSync2Hit => true
  | .decSync2Miss b => b != syncByte
  | .decType _ => true
  | .decLengthZero => true
  | .decLengthOver b => decide (payloadMax < b.toNat)
  | .decLengthOk b => decide (1 ≤ b.toNat ∧ b.toNat ≤ payloadMax)
  | .decDataMore _ => true
  | .decDataLast _ => true
  | .decChecksumOk _ => true
  | .decChecksumBad _ => true
  | .decCrOk => true
  | .decCrBad b => b != crByte
  | .decLfOk => true
  | .decLfBad b => b != lfByte

end Sys2Proof
end

