-- ==== Sys2Proof/Decode.lean ====
section
/-! DEFINITION. The decoder of requests (bytes on a port to an operation or a table row, or a named rejection), the encoder,
and the reading of the opcode table's words.

The spec fixes the 5-bit operation code (R102, R103), the wire frame (R90) and the header word (R106), and gives the operands'
kinds but no layout beside the code: the layout of operands on a port is the model's own (DESIGN CHOICE, log 1, 2, 3). -/

namespace Sys2Proof

/-- Why a request's bytes stand for nothing. -/
inductive Reject where
  /-- The bytes end before the operands do. -/
  | truncated
  /-- The first byte is neither an operation code, nor a frame's sync byte, nor a transition row (log 1). -/
  | reservedByte
  /-- The ring select is one bit: a byte other than 0 or 1 (R105). -/
  | badRingSelect
  /-- A packet's payload has at most 223 bytes (R220). -/
  | packetTooLong
  /-- Frame byte 1 is not `0x24`: no frame row of the table matches (R106). -/
  | badSync
  /-- The byte does not meet the transition row's constant byte condition (R178). -/
  | rowByte
  deriving DecidableEq, Repr

/-! ## Taking operands off the front of a request -/

def getByte : List Byte → Except Reject (Byte × List Byte)
  | [] => .error .truncated
  | b :: t => .ok (b, t)

def getBytes (n : Nat) (t : List Byte) : Except Reject (List Byte × List Byte) :=
  if n ≤ t.length then .ok (t.take n, t.drop n) else .error .truncated

/-- The ring select: 0 = `in`, 1 = `out` (R105). -/
def getRing : List Byte → Except Reject (RingSel × List Byte)
  | [] => .error .truncated
  | b :: t => if b = 0#8 then .ok (.inp, t) else if b = 1#8 then .ok (.out, t) else .error .badRingSelect

/-- A `u16` operand, low byte first as in the Speed payload (R63; log 1). -/
def getHalf : List Byte → Except Reject (Half × List Byte)
  | lo :: hi :: t => .ok (hi ++ lo, t)
  | _ => .error .truncated

/-- A natural number: bytes of 255 add 255 each, the first byte below 255 ends it (DESIGN CHOICE, log 2: the spec puts no
bound on SEND_MESSAGE's `n`, N28). -/
def getNat : List Byte → Except Reject (Nat × List Byte)
  | [] => .error .truncated
  | b :: t =>
    if b = 255#8 then
      match getNat t with
      | .ok (n, rest) => .ok (n + 255, rest)
      | .error e => .error e
    else .ok (b.toNat, t)

/-! ## The decoder -/

/-- The operation codes 0x00 to 0x1F with their operands (R103, R104). -/
def decodeOp (code : Nat) (t : List Byte) : Except Reject (Instr × List Byte) :=
  match code with
  | 0x00 => do let (r, t) ← getRing t; let (b, t) ← getByte t; return (.rbPush r b, t)
  | 0x01 => do let (r, t) ← getRing t; return (.rbPop r, t)
  | 0x02 => do let (r, t) ← getRing t; return (.rbAvail r, t)
  | 0x03 => do
    let (ptype, t) ← getByte t; let (len, t) ← getByte t; let (p, t) ← getBytes len.toNat t
    return (.encodeFrame ptype len p, t)
  | 0x04 => do let (b, t) ← getByte t; return (.decStep b, t)
  | 0x05 => return (.decReset, t)
  | 0x06 => do
    let (ptype, t) ← getByte t; let (len, t) ← getByte t
    if payloadMax < len.toNat then .error .packetTooLong else
    let (p, t) ← getBytes len.toNat t
    return (.dispatch ⟨ptype, p⟩, t)
  | 0x07 => do let (b, t) ← getByte t; return (.rxByte b, t)
  | 0x08 => return (.poll1, t)
  | 0x09 => return (.pollAll, t)
  | 0x0A => do
    let (ptype, t) ← getByte t; let (len, t) ← getByte t; let (p, t) ← getBytes len.toNat t
    return (.enqueue ptype len p, t)
  | 0x0B => do let (l, t) ← getHalf t; let (r, t) ← getHalf t; return (.sendSpeed l r, t)
  | 0x0C => do let (n, t) ← getNat t; let (x, t) ← getBytes n t; return (.sendMessage n x, t)
  | 0x0D => return (.txByte, t)
  | 0x0E => return (.txFlush, t)
  | 0x0F => return (.ioFail, t)
  | 0x10 => return (.alive, t)
  | _ => return (.badOp (BitVec.ofNat 5 code), t)

/-- A frame row, after its first `0x24`: the header word's other three bytes choose the row (R106) and the bytes that follow
are its payload and trailer (R90). The trailer's values are the decoder's business (R166 to R168), not the table's. -/
def decodeFrame (t : List Byte) : Except Reject (Instr × List Byte) := do
  let (s2, t) ← getByte t
  if s2 ≠ syncByte then .error .badSync else
  let (ptype, t) ← getByte t
  let (len, t) ← getByte t
  let (rest, t) ← getBytes (restLength len) t
  if ptype = typeSpeed then return (.frameSpeed len rest, t)
  else if ptype = typeMessage then return (.frameMessage len rest, t)
  else return (.frameUnknown ptype len rest, t)

/-- The sixteen transition rows, numbered 0 to 15 in the order R106 lists them, each followed by the input byte, which must
meet the row's constant byte condition (R178; log 3). -/
def decodeRow (k : Nat) (t : List Byte) : Except Reject (Instr × List Byte) := do
  let (b, t) ← getByte t
  let i : Instr :=
    match k with
    | 0 => .decSync1Hit
    | 1 => .decSync1Miss b
    | 2 => .decSync2Hit
    | 3 => .decSync2Miss b
    | 4 => .decType b
    | 5 => .decLengthZero
    | 6 => .decLengthOk b
    | 7 => .decLengthOver b
    | 8 => .decDataMore b
    | 9 => .decDataLast b
    | 10 => .decChecksumOk b
    | 11 => .decChecksumBad b
    | 12 => .decCrOk
    | 13 => .decCrBad b
    | 14 => .decLfOk
    | _ => .decLfBad b
  let fits : Bool :=
    match k with
    | 0 => b == syncByte
    | 2 => b == syncByte
    | 5 => b == 0#8
    | 12 => b == crByte
    | 14 => b == lfByte
    | _ => i.wf
  if fits then return (i, t) else .error .rowByte

/-- Decode the request at the front of a port's bytes: an operation or row and the bytes after it, or a named rejection.
A first byte 0x00 to 0x1F is an operation code (R102), 0x24 opens a frame (R7, R90), 0x80 to 0x8F is a transition row
(log 1, 3); every other first byte is rejected. -/
def decode : List Byte → Except Reject (Instr × List Byte)
  | [] => .error .truncated
  | h :: t =>
    if h = syncByte then decodeFrame t
    else if h.toNat < 0x20 then decodeOp h.toNat t
    else if 0x80 ≤ h.toNat ∧ h.toNat < 0x90 then decodeRow (h.toNat - 0x80) t
    else .error .reservedByte

/-! ## The encoder -/

def putRing : RingSel → Byte
  | .inp => 0#8
  | .out => 1#8

/-- Low byte first (R63; log 1). -/
def putHalf (v : Half) : List Byte := [v.extractLsb' 0 8, v.extractLsb' 8 8]

/-- The bytes `getNat` reads back (log 2). -/
def putNat (n : Nat) : List Byte := List.replicate (n / 255) 255#8 ++ [BitVec.ofNat 8 (n % 255)]

/-- The request bytes of an operation or row: the operation codes of R103, the frame layout of R90, the rows of R106. -/
def encode : Instr → List Byte
  | .rbPush r b => [0x00#8, putRing r, b]
  | .rbPop r => [0x01#8, putRing r]
  | .rbAvail r => [0x02#8, putRing r]
  | .encodeFrame ptype len payload => [0x03#8, ptype, len] ++ payload
  | .decStep b => [0x04#8, b]
  | .decReset => [0x05#8]
  | .dispatch p => [0x06#8, p.ptype, BitVec.ofNat 8 p.payload.length] ++ p.payload
  | .rxByte b => [0x07#8, b]
  | .poll1 => [0x08#8]
  | .pollAll => [0x09#8]
  | .enqueue ptype len payload => [0x0A#8, ptype, len] ++ payload
  | .sendSpeed left right => [0x0B#8] ++ putHalf left ++ putHalf right
  | .sendMessage n text => [0x0C#8] ++ putNat n ++ text
  | .txByte => [0x0D#8]
  | .txFlush => [0x0E#8]
  | .ioFail => [0x0F#8]
  | .alive => [0x10#8]
  | .badOp code => [code.setWidth 8]
  | .frameSpeed len rest => [syncByte, syncByte, typeSpeed, len] ++ rest
  | .frameMessage len rest => [syncByte, syncByte, typeMessage, len] ++ rest
  | .frameUnknown ptype len rest => [syncByte, syncByte, ptype, len] ++ rest
  | .decSync1Hit => [0x80#8, syncByte]
  | .decSync1Miss b => [0x81#8, b]
  | .decSync2Hit => [0x82#8, syncByte]
  | .decSync2Miss b => [0x83#8, b]
  | .decType b => [0x84#8, b]
  | .decLengthZero => [0x85#8, 0#8]
  | .decLengthOk b => [0x86#8, b]
  | .decLengthOver b => [0x87#8, b]
  | .decDataMore b => [0x88#8, b]
  | .decDataLast b => [0x89#8, b]
  | .decChecksumOk b => [0x8A#8, b]
  | .decChecksumBad b => [0x8B#8, b]
  | .decCrOk => [0x8C#8, crByte]
  | .decCrBad b => [0x8D#8, b]
  | .decLfOk => [0x8E#8, lfByte]
  | .decLfBad b => [0x8F#8, b]

/-! ## Words of the opcode table -/

/-- The bytes of a table word of `nbits` bits: the 32-bit header word has frame byte 0 in bits 31:24 (R106), so the most
significant byte goes first; an 8-bit word is its one byte. -/
def tableBytes (nbits w : Nat) : List Byte :=
  (List.range (nbits / 8)).map fun k => BitVec.ofNat 8 (w / 2 ^ (nbits - 8 * (k + 1)))

/-- A table word's bytes with zero operand bytes after them, enough for the longest request such zeros can make: a frame of
230 bytes. -/
def tableRequest (nbits w : Nat) : List Byte := tableBytes nbits w ++ List.replicate 230 0#8

/-- The instruction the decoder reads from a table word whose further operand bytes are zero. -/
def decodeTableWord (nbits w : Nat) : Option Instr :=
  match decode (tableRequest nbits w) with
  | .ok (i, _) => some i
  | .error _ => none

/-- The bytes of the one request a table word makes: what the decoder consumes of the padded word. -/
def tableWordRequest (nbits w : Nat) : List Byte :=
  match decode (tableRequest nbits w) with
  | .ok (_, rest) => (tableRequest nbits w).take ((tableRequest nbits w).length - rest.length)
  | .error _ => tableBytes nbits w

/-! ## The opcode table's match and mask -/

/-- What a row's match and mask are taken over (R103, R106). -/
inductive RowSpace where
  | operationCode
  | headerWord
  | inputByte
  deriving DecidableEq, Repr

/-- One row of spec/opcode_table.json: what it is read over, its match and its mask. -/
structure TableRow where
  space : RowSpace
  value : BitVec 32
  mask : BitVec 32
  deriving DecidableEq, Repr

/-- The row of each constructor, its numbers as spec/opcode_table.json has them (R103, R104, R106). -/
def Instr.tableRow : Instr → TableRow
  | .rbPush _ _ => ⟨.operationCode, 0x00#32, 0x1F#32⟩
  | .rbPop _ => ⟨.operationCode, 0x01#32, 0x1F#32⟩
  | .rbAvail _ => ⟨.operationCode, 0x02#32, 0x1F#32⟩
  | .encodeFrame _ _ _ => ⟨.operationCode, 0x03#32, 0x1F#32⟩
  | .decStep _ => ⟨.operationCode, 0x04#32, 0x1F#32⟩
  | .decReset => ⟨.operationCode, 0x05#32, 0x1F#32⟩
  | .dispatch _ => ⟨.operationCode, 0x06#32, 0x1F#32⟩
  | .rxByte _ => ⟨.operationCode, 0x07#32, 0x1F#32⟩
  | .poll1 => ⟨.operationCode, 0x08#32, 0x1F#32⟩
  | .pollAll => ⟨.operationCode, 0x09#32, 0x1F#32⟩
  | .enqueue _ _ _ => ⟨.operationCode, 0x0A#32, 0x1F#32⟩
  | .sendSpeed _ _ => ⟨.operationCode, 0x0B#32, 0x1F#32⟩
  | .sendMessage _ _ => ⟨.operationCode, 0x0C#32, 0x1F#32⟩
  | .txByte => ⟨.operationCode, 0x0D#32, 0x1F#32⟩
  | .txFlush => ⟨.operationCode, 0x0E#32, 0x1F#32⟩
  | .ioFail => ⟨.operationCode, 0x0F#32, 0x1F#32⟩
  | .alive => ⟨.operationCode, 0x10#32, 0x1F#32⟩
  | .badOp _ => ⟨.operationCode, 0x10#32, 0x10#32⟩
  | .frameSpeed _ _ => ⟨.headerWord, 0x24245300#32, 0xFFFFFF00#32⟩
  | .frameMessage _ _ => ⟨.headerWord, 0x24244D00#32, 0xFFFFFF00#32⟩
  | .frameUnknown _ _ _ => ⟨.headerWord, 0x24240000#32, 0xFFFF0000#32⟩
  | .decSync1Hit => ⟨.inputByte, 0x24#32, 0xFF#32⟩
  | .decSync1Miss _ => ⟨.inputByte, 0x00#32, 0x00#32⟩
  | .decSync2Hit => ⟨.inputByte, 0x24#32, 0xFF#32⟩
  | .decSync2Miss _ => ⟨.inputByte, 0x00#32, 0x00#32⟩
  | .decType _ => ⟨.inputByte, 0x00#32, 0x00#32⟩
  | .decLengthZero => ⟨.inputByte, 0x00#32, 0xFF#32⟩
  | .decLengthOver _ => ⟨.inputByte, 0xE0#32, 0xE0#32⟩
  | .decLengthOk _ => ⟨.inputByte, 0x00#32, 0x00#32⟩
  | .decDataMore _ => ⟨.inputByte, 0x00#32, 0x00#32⟩
  | .decDataLast _ => ⟨.inputByte, 0x00#32, 0x00#32⟩
  | .decChecksumOk _ => ⟨.inputByte, 0x00#32, 0x00#32⟩
  | .decChecksumBad _ => ⟨.inputByte, 0x00#32, 0x00#32⟩
  | .decCrOk => ⟨.inputByte, 0x0D#32, 0xFF#32⟩
  | .decCrBad _ => ⟨.inputByte, 0x00#32, 0x00#32⟩
  | .decLfOk => ⟨.inputByte, 0x0A#32, 0xFF#32⟩
  | .decLfBad _ => ⟨.inputByte, 0x00#32, 0x00#32⟩

/-- The word of a request that its row's match and mask are taken over: the operation code byte, the header word
`byte0 ++ byte1 ++ byte2 ++ byte3` (R106), or the input byte. -/
def rowWord : RowSpace → List Byte → BitVec 32
  | .operationCode, h :: _ => h.setWidth 32
  | .headerWord, b0 :: b1 :: b2 :: b3 :: _ => b0 ++ b1 ++ b2 ++ b3
  | .inputByte, _ :: b :: _ => b.setWidth 32
  | _, _ => 0#32

/-- A request's word meets the match and mask of a row. -/
def TableRow.matches (row : TableRow) (request : List Byte) : Bool :=
  rowWord row.space request &&& row.mask == row.value

end Sys2Proof
end

