-- ==== Sys2Proof/Machine/State.lean ====
section
/-! DEFINITION. The state of one block instance (10_state.md), the reasons a step can stop, and the state after reset (R47). -/

namespace Sys2Proof.Machine

/-- A byte store: the bytes that hold a value, by index, in rising order. An index that is not listed holds no value
(R25, R271, U1: dead contents have no value; log 9). -/
abbrev Memory := List Host.Cell

/-- A ring `r`: its store and its two 8-bit cursors (R20). There is no count register and no flag. -/
structure Ring where
  /-- `r.buf`: 256 slots. -/
  buf : Memory
  /-- `r.rd`: the slot the next popped byte comes from. -/
  rd : Byte
  /-- `r.wr`: the slot the next pushed byte goes into. -/
  wr : Byte
  deriving DecidableEq, Repr

/-- `dec.st`, the frame-position register: exactly eight values (R28). -/
inductive FramePos where
  | sync1
  | sync2
  | type
  | length
  | data
  | checksum
  | cr
  | lf
  deriving DecidableEq, Repr

/-- The decoder state `dec`, the source's ParserState (R27 to R33). -/
structure Dec where
  st : FramePos
  ptype : Byte
  plen : Byte
  csum : Byte
  cnt : Byte
  /-- `dec.pay`: 223 bytes, indices 0 to 222 (R33). -/
  pay : Memory
  deriving DecidableEq, Repr

/-- An ENQUEUE that has started but not finished (R41). -/
structure Enq where
  active : Bool
  frame : List Byte
  idx : Nat
  /-- The frame `F` that ENCODE has returned to an ENQUEUE under Reject, while its test of the room, the next primitive step,
  is still to come (R12, R195; log 16). -/
  pending : Option (List Byte)
  deriving DecidableEq, Repr

/-- Which terminator byte failed (R245). -/
inductive TermPos where
  | cr
  | lf
  deriving DecidableEq, Repr

/-- The eight diagnostics with their operands (R241). -/
inductive Diag where
  | framingError (byte : Byte)
  | oversizedPacket (len : Byte)
  | checksumMismatch (expected actual : Byte)
  | terminatorMismatch (pos : TermPos) (byte : Byte)
  | transportIoError
  | unknownPacketType (ptype : Byte)
  | speedLengthInvalid (len : Nat)
  | messageText (payload : List Byte)
  deriving DecidableEq, Repr

/-- What one DEC.STEP can answer beside nothing: a packet or a diagnostic (R160, R171). -/
inductive Event where
  | packet (p : Packet)
  | diag (d : Diag)
  deriving DecidableEq, Repr

/-- A `set_speeds` call as it reaches the motor collaborator (R221). -/
structure SetSpeeds where
  left : Half
  right : Half
  deriving DecidableEq, Repr

/-- The three classifications of a packet (R109), the Speed case split by payload length (R220). -/
inductive PacketClass where
  | speed (left right : Half)
  | speedMalformed (len : Nat)
  | message (text : List Byte)
  | unknown (ptype : Byte)
  deriving DecidableEq, Repr

/-- What an operation hands back to its caller: a value or a status word (00_scope.md section 7, R249). -/
inductive Result where
  /-- `Ok` -/
  | ok
  /-- `Full` -/
  | full
  /-- `None` -/
  | absent
  /-- `TooLong` -/
  | tooLong
  /-- `WouldBlock` -/
  | wouldBlock
  /-- `Dead` -/
  | dead
  /-- `BadOp` -/
  | badOp
  | byte (b : Byte)
  | count (n : Byte)
  | bytes (bs : List Byte)
  | event (e : Option Event)
  | packet (p : Packet)
  | packets (ps : List Packet)
  | liveness (b : Bool)
  deriving DecidableEq, Repr

/-- The agents that take steps, each named by the port it uses (R14, R259). -/
inductive Agent where
  /-- The receive agent, port RX. -/
  | rx
  /-- The polling agent, port POLL. -/
  | poll
  /-- The enqueuing agent, port CMD. -/
  | cmd
  /-- The transmit agent, port TX. -/
  | tx
  /-- The environment, port FAULT. -/
  | fault
  /-- Any component, port STATUS. -/
  | status
  deriving DecidableEq, Repr

/-- A result as it was handed back, with the port of the operation that returned it (log 12). -/
structure Return where
  port : Agent
  value : Result
  deriving DecidableEq, Repr

/-- Which call the polling agent has in progress: POLL1 (R192), POLLALL (R193), or the feeding of a frame's bytes to the
decoder (R108's FEED, log 4), with the bytes still to come. -/
inductive PollKind where
  | one
  | all
  | feed (rest : List Byte)
  deriving DecidableEq, Repr

/-- The polling agent's next primitive step (R192, R193): take a byte, DEC.STEP it, or DISPATCH a packet. That taking a byte is a
step of a feed too is log 26. -/
inductive PollPhase where
  | pop
  | dec (b : Byte)
  | disp (p : Packet)
  deriving DecidableEq, Repr

/-- A POLL call in progress: its kind, its next primitive step, and the packets completed so far (R193's `S`). -/
structure PollCall where
  kind : PollKind
  phase : PollPhase
  got : List Packet
  deriving DecidableEq, Repr

/-- The requests presented on each port and not yet begun, oldest first, as bytes (R14, R102; log 1, 5). -/
structure Ports where
  rx : List Byte
  poll : List Byte
  cmd : List Byte
  tx : List Byte
  fault : List Byte
  status : List Byte
  deriving DecidableEq, Repr

/-- One entry of the schedule: an agent's turn, or the reset event (R69, R270; log 5). -/
inductive Turn where
  | agent (a : Agent)
  | reset
  deriving DecidableEq, Repr

/-- The whole state of one block instance (R11, 10_state.md section 1), the output histories (R13), and the model's own
fields: the call in progress, the returned results, the ports, the schedule and the settings (log 5, 6, 7, 12). -/
structure State where
  /-- `in`: wire to decoder. -/
  inR : Ring
  /-- `out`: encoder to wire. -/
  outR : Ring
  dec : Dec
  alive : Bool
  enq : Enq
  poll : Option PollCall
  wireOut : List Byte
  pktOut : List Packet
  motorOut : List SetSpeeds
  telemOut : List (List Byte)
  diagOut : List Diag
  returns : List Return
  ports : Ports
  sched : List Turn
  cfg : Config
  deriving DecidableEq, Repr

/-- Why the machine stops with a fault. None is reachable from reset (R65, R271; log 9). -/
inductive Fault where
  /-- RB.POP or TX.FLUSH reads a slot that holds no value (R271, U1). Raised by every operation that pops. Safe. -/
  | slotWithoutValue
  /-- DEC.STEP in state LF reads a payload byte that holds no value (R33, U1). Raised by every operation that steps the decoder. Safe. -/
  | payloadWithoutValue
  /-- DEC.STEP in state Data writes past index 222 of `dec.pay` (R33, R65). Raised by every operation that steps the decoder. Safe. -/
  | payloadIndex
  deriving DecidableEq, Repr

/-- Why a step has no meaning. -/
inductive Refusal where
  /-- The instruction has no meaning in this model yet. Raised by exec's refused arms only. Safe. -/
  | notModelled (mnemonic : String)
  /-- The bytes on the port are no request (log 1). Raised by step. Safe. -/
  | undecodable (r : Reject)
  /-- The operation is not one this agent issues (R73, R259; U5 says to refuse; log 13). Raised by step. Safe. -/
  | roleViolation
  /-- The agent already has a call in progress: a second producer or consumer on one ring (R196, U5; log 13).
  Raised by POLL1, POLLALL, the frame rows, ENQUEUE, SEND_SPEED and SEND_MESSAGE; no step reaches it. Safe. -/
  | callInProgress
  /-- IO.FAIL on the constrained device: "host variant only" (R199), "never issued" (R203), "cannot occur" (R246; log 7).
  Raised by step. Safe. -/
  | hostOnly
  /-- A transition row whose state or condition is not the decoder's: the rows "are not operations: each is one arm of
  DEC.STEP" (R106), and the spec gives an arm that is not selected no effect (log 3). Raised by the sixteen rows. Safe. -/
  | rowNotSelected
  deriving DecidableEq, Repr

/-- A ring after reset: both cursors 0, no slot holds a value (R26). -/
def Ring.reset : Ring := ⟨[], 0#8, 0#8⟩

/-- The decoder after reset (R36). -/
def Dec.reset : Dec := ⟨.sync1, 0#8, 0#8, 0#8, 0#8, []⟩

/-- No ENQUEUE in flight (R41); the frame and the index are dead (log 10). -/
def Enq.reset : Enq := ⟨false, [], 0, none⟩

/-- No request on any port (log 5). -/
def Ports.empty : Ports := ⟨[], [], [], [], [], []⟩

/-- The block after the reset event (R47, R270), idle (R272), with the default settings (R10; log 6, 7). -/
def State.reset : State where
  inR := Ring.reset
  outR := Ring.reset
  dec := Dec.reset
  alive := true
  enq := Enq.reset
  poll := none
  wireOut := []
  pktOut := []
  motorOut := []
  telemOut := []
  diagOut := []
  returns := []
  ports := Ports.empty
  sched := []
  cfg := Config.default

end Sys2Proof.Machine
end

