-- ==== Sys2Proof/Machine/Flags.lean ====
section
/-! DEFINITION. The conditions a caller can test (R44): no flag is stored; Empty, Full, Count and Free are functions of the cursors. -/

namespace Sys2Proof.Machine

/-- `Empty(r)`: `r.wr == r.rd` (R21). -/
def Ring.isEmpty (r : Ring) : Bool := r.wr == r.rd

/-- `Full(r)`: `(r.wr +8 1) == r.rd` (R22). -/
def Ring.isFull (r : Ring) : Bool := r.wr + 1#8 == r.rd

/-- `Count(r) = r.wr -8 r.rd` (R23, R75). -/
def Ring.count (r : Ring) : Byte := r.wr - r.rd

/-- `Free(r) = 255 - Count(r)` (R23). -/
def Ring.free (r : Ring) : Nat := ringUsable - r.count.toNat

/-- The number of `dec.st`, in the source's order (R28). -/
def FramePos.code : FramePos → BitVec 3
  | .sync1 => 0#3
  | .sync2 => 1#3
  | .type => 2#3
  | .length => 3#3
  | .data => 4#3
  | .checksum => 5#3
  | .cr => 6#3
  | .lf => 7#3

/-- The number of a diagnostic (R241). -/
def Diag.code : Diag → Nat
  | .framingError _ => 1
  | .oversizedPacket _ => 2
  | .checksumMismatch _ _ => 3
  | .terminatorMismatch _ _ => 4
  | .transportIoError => 5
  | .unknownPacketType _ => 6
  | .speedLengthInvalid _ => 7
  | .messageText _ => 8

/-- A frame-level error: codes 1 to 4 (R240, R241). -/
def Diag.frameLevel (d : Diag) : Bool := decide (d.code ≤ 4)

/-- An ENQUEUE is in progress: its frame is being pushed (`enq.active`, R41), or is encoded and its room not yet tested. -/
def Enq.busy (e : Enq) : Bool := e.active || e.pending.isSome

/-- Quiescent: no composite operation in progress (R286). -/
def State.quiescent (s : State) : Bool := !s.enq.busy && s.poll.isNone

/-- Drained: quiescent, and both rings empty (R286). -/
def State.drained (s : State) : Bool := s.quiescent && s.inR.count == 0#8 && s.outR.count == 0#8

end Sys2Proof.Machine
end

