-- ==== Sys2Proof/Machine/Operands.lean ====
section
/-! DEFINITION. Operand forms: who issues an operation (R259), the Speed payload (R98), the clamp (R221), the checksum (R76), the
frame (R90), the classification of a packet (R220), the truncation of a message (R144). -/

namespace Sys2Proof.Machine

/-! ## Agents -/

/-- The producer of a ring: the receive agent for `in`, the enqueuing agent for `out` (R73). -/
def producer : RingSel → Agent
  | .inp => .rx
  | .out => .cmd

/-- The consumer of a ring: the polling agent for `in`, the transmit agent for `out` (R73). -/
def consumer : RingSel → Agent
  | .inp => .poll
  | .out => .tx

/-- The agent whose operation this is (R126, R259). The transition rows and the frame rows are the decoder's, so the polling
agent's (R73; log 3, 4). ALIVE, RB.AVAIL and the unassigned codes belong to no one agent. -/
def home : Instr → Agent
  | .rbPush r _ => producer r
  | .rbPop r => consumer r
  | .rbAvail _ => .status
  | .encodeFrame _ _ _ => .cmd
  | .decStep _ => .poll
  | .decReset => .poll
  | .dispatch _ => .poll
  | .rxByte _ => .rx
  | .poll1 => .poll
  | .pollAll => .poll
  | .enqueue _ _ _ => .cmd
  | .sendSpeed _ _ => .cmd
  | .sendMessage _ _ => .cmd
  | .txByte => .tx
  | .txFlush => .tx
  | .ioFail => .fault
  | .alive => .status
  | .badOp _ => .status
  | .frameSpeed _ _ => .poll
  | .frameMessage _ _ => .poll
  | .frameUnknown _ _ _ => .poll
  | .decSync1Hit => .poll
  | .decSync1Miss _ => .poll
  | .decSync2Hit => .poll
  | .decSync2Miss _ => .poll
  | .decType _ => .poll
  | .decLengthZero => .poll
  | .decLengthOver _ => .poll
  | .decLengthOk _ => .poll
  | .decDataMore _ => .poll
  | .decDataLast _ => .poll
  | .decChecksumOk _ => .poll
  | .decChecksumBad _ => .poll
  | .decCrOk => .poll
  | .decCrBad _ => .poll
  | .decLfOk => .poll
  | .decLfBad _ => .poll

/-- What an agent may issue: its own operations, and the STATUS operations "by any agent at any time" (R200, R259). -/
def mayIssue (a : Agent) (i : Instr) : Bool := home i == a || home i == .status

/-- What a variant admits: IO.FAIL is for the host only, "never issued" on the device (R199, R203, R246; log 7). -/
def variantAdmits (v : Threads) (i : Instr) : Bool := !(v == .device && i == .ioFail)

/-- The requests waiting on an agent's port (R14). -/
def Ports.get (p : Ports) : Agent → List Byte
  | .rx => p.rx
  | .poll => p.poll
  | .cmd => p.cmd
  | .tx => p.tx
  | .fault => p.fault
  | .status => p.status

def Ports.set (p : Ports) (a : Agent) (l : List Byte) : Ports :=
  match a with
  | .rx => { p with rx := l }
  | .poll => { p with poll := l }
  | .cmd => { p with cmd := l }
  | .tx => { p with tx := l }
  | .fault => { p with fault := l }
  | .status => { p with status := l }

/-! ## Frames -/

/-- The bitwise XOR of a byte sequence; `0x00` for none (R76, R96). -/
def checksum : List Byte → Byte
  | [] => 0#8
  | b :: t => b ^^^ checksum t

/-- The frame of R90: sync, sync, type, length, payload, checksum, CR, LF. -/
def frameBytes (ptype len : Byte) (payload : List Byte) : List Byte :=
  [syncByte, syncByte, ptype, len] ++ payload ++ [checksum payload, crByte, lfByte]

/-- ENCODE's result (R140): `none` stands for `TooLong` (R141). A payload operand longer than `len` gives its first `len` bytes
(log 21: the operands of a well-formed ENCODE agree). -/
def encodedFrame (ptype len : Byte) (payload : List Byte) : Option (List Byte) :=
  if payloadMax < len.toNat then none else some (frameBytes ptype len (payload.take len.toNat))

/-! ## Payloads -/

/-- `v[7:0]` and `v[15:8]`. -/
def lowByte (v : Half) : Byte := v.extractLsb' 0 8

def highByte (v : Half) : Byte := v.extractLsb' 8 8

/-- The Speed payload on sending: little-endian left, then right (R98, R143). -/
def speedPayload (left right : Half) : List Byte := [lowByte left, highByte left, lowByte right, highByte right]

/-- `pay[i+1] ++ pay[i]`, that is `pay[i] + 256 * pay[i+1]` (R98, R63). -/
def assembleHalf (lo hi : Byte) : Half := hi ++ lo

/-- `min(v, 10000)`, an unsigned compare (R78, R221). -/
def clampSpeed (v : Half) : Half := if v ≤ speedMax then v else speedMax

/-- SEND_MESSAGE keeps the first `min(n, 200)` bytes (R144). -/
def messageLength (n : Nat) : Nat := min n msgMax

/-- The case split of DISPATCH (R220), with the Speed payload assembled (R221). -/
def classify (p : Packet) : PacketClass :=
  if p.ptype = typeSpeed then
    match p.payload with
    | [l0, l1, r0, r1] => .speed (assembleHalf l0 l1) (assembleHalf r0 r1)
    | other => .speedMalformed other.length
  else if p.ptype = typeMessage then .message p.payload
  else .unknown p.ptype

end Sys2Proof.Machine
end

