-- ==== Sys2Proof/Machine/Ops.lean ====
section
/-! DEFINITION. The shared operations: a byte store's read and write, the named updates of State, push and pop, ParserReset and
`raise` (the block's one way of taking an error), results and output histories. -/

namespace Sys2Proof.Machine

abbrev Answer := Host.Outcome State Fault Refusal

/-! ## A byte store (R60, R65) -/

/-- The byte at an index, if something has written it (R25, R271). -/
def Memory.get : Memory → Nat → Option Byte
  | [], _ => none
  | (k, v) :: t, a => if k = a then some v else Memory.get t a

/-- Write one byte at one index (R65); the list stays in rising order. -/
def Memory.set : Memory → Nat → Byte → Memory
  | [], a, v => [(a, v)]
  | (k, w) :: t, a, v =>
    if a < k then (a, v) :: (k, w) :: t
    else if a = k then (a, v) :: t
    else (k, w) :: Memory.set t a v

/-- The canonical form: indices strictly rising. An unlisted index holds no value, so no entry can equal it. -/
abbrev Memory.wf (m : Memory) : Prop := (m.map Prod.fst).Pairwise (· < ·)

/-- The `n` bytes from index `i` on, if all of them hold a value. -/
def Memory.read (m : Memory) (i : Nat) : Nat → Option (List Byte)
  | 0 => some []
  | n + 1 =>
    match Memory.get m i, Memory.read m (i + 1) n with
    | some v, some vs => some (v :: vs)
    | _, _ => none

/-! ## The named updates of State -/

def State.ring (s : State) : RingSel → Ring
  | .inp => s.inR
  | .out => s.outR

def State.setRing (s : State) (r : RingSel) (ρ : Ring) : State :=
  match r with
  | .inp => { s with inR := ρ }
  | .out => { s with outR := ρ }

def State.setDec (s : State) (d : Dec) : State := { s with dec := d }

def State.setAlive (s : State) (b : Bool) : State := { s with alive := b }

def State.setEnq (s : State) (e : Enq) : State := { s with enq := e }

def State.setPoll (s : State) (c : Option PollCall) : State := { s with poll := c }

def State.setPort (s : State) (a : Agent) (l : List Byte) : State := { s with ports := s.ports.set a l }

def State.setSched (s : State) (ts : List Turn) : State := { s with sched := ts }

/-- `emit wire_out(v)` for each of a sequence of bytes (R13). -/
def State.emitWire (s : State) (bs : List Byte) : State := { s with wireOut := s.wireOut ++ bs }

def State.emitPacket (s : State) (p : Packet) : State := { s with pktOut := s.pktOut ++ [p] }

def State.emitMotor (s : State) (m : SetSpeeds) : State := { s with motorOut := s.motorOut ++ [m] }

def State.emitTelem (s : State) (text : List Byte) : State := { s with telemOut := s.telemOut ++ [text] }

def State.emitDiag (s : State) (d : Diag) : State := { s with diagOut := s.diagOut ++ [d] }

/-- `return v`: the operation on port `a` ends with result `v` (00_scope.md section 7; log 12). -/
def State.answer (s : State) (a : Agent) (v : Result) : State := { s with returns := s.returns ++ [⟨a, v⟩] }

/-! ## Push and pop -/

/-- RB.PUSH `r`, `b` (R120): atomic (R67), never blocks. -/
def ringPush (r : RingSel) (b : Byte) (s : State) : Result × State :=
  let ρ := s.ring r
  if ρ.isFull then (.full, s)
  else (.ok, s.setRing r { ρ with buf := Memory.set ρ.buf ρ.wr.toNat b, wr := ρ.wr + 1#8 })

/-- RB.POP `r` (R121): atomic (R67), never blocks. A slot that holds no value cannot be read (log 9). -/
def ringPop (r : RingSel) (s : State) : Except Fault (Option Byte × State) :=
  let ρ := s.ring r
  if ρ.isEmpty then .ok (none, s)
  else
    match Memory.get ρ.buf ρ.rd.toNat with
    | some v => .ok (some v, s.setRing r { ρ with rd := ρ.rd + 1#8 })
    | none => .error .slotWithoutValue

/-- `n` pops in a row, as far as bytes are there, as one atomic step (R198). -/
def ringTake (r : RingSel) : Nat → State → Except Fault (List Byte × State)
  | 0, s => .ok ([], s)
  | n + 1, s =>
    match ringPop r s with
    | .ok (some v, s') =>
      match ringTake r n s' with
      | .ok (vs, s'') => .ok (v :: vs, s'')
      | .error f => .error f
    | .ok (none, s') => .ok ([], s')
    | .error f => .error f

/-! ## Errors

There is no handler and no transfer of control: nothing is saved, and there is no return operation (R250, R252). -/

/-- `ParserReset` (R34): `dec.pay` is left as it is. -/
def Dec.parserReset (d : Dec) : Dec := { Dec.reset with pay := d.pay }

def State.parserReset (s : State) : State := s.setDec s.dec.parserReset

/-- `raise d` (00_scope.md section 7): the diagnostic is appended; a frame-level error then runs ParserReset (R250), the
fatal error clears `alive` (R246), a notice does nothing more (R247, R248). The operands are read before (R250). -/
def raise (d : Diag) (s : State) : State :=
  match d with
  | .framingError _ => (s.emitDiag d).parserReset
  | .oversizedPacket _ => (s.emitDiag d).parserReset
  | .checksumMismatch _ _ => (s.emitDiag d).parserReset
  | .terminatorMismatch _ _ => (s.emitDiag d).parserReset
  | .transportIoError => (s.emitDiag d).setAlive false
  | .unknownPacketType _ => s.emitDiag d
  | .speedLengthInvalid _ => s.emitDiag d
  | .messageText _ => s.emitDiag d

/-! ## Transport -/

/-- Every transport operation first tests `alive` and is refused with `Dead` when it is 0 (R190, R201). -/
def whenAlive (a : Agent) (s : State) (k : State → Answer) : Answer :=
  if s.alive then k s else .next (s.answer a .dead)

/-- The result of a fallible shared operation as an outcome. -/
def finishWith {α : Type} (r : Except Fault (α × State)) (k : α → State → Answer) : Answer :=
  match r with
  | .ok (v, s) => k v s
  | .error f => .fault f

end Sys2Proof.Machine
end

