-- ==== Sys2Proof/Machine/Encoder.lean ====
section
/-! DEFINITION. ENCODE (41_encoder.md), the ENQUEUE it feeds (43_transport.md R194, R195) and the two typed senders. -/

namespace Sys2Proof.Machine

/-- ENCODE `type`, `len`, `payload` -> a frame or `TooLong` (R140, R141): a pure function, no state is read or written (R39). -/
def execEncode (ptype len : Byte) (payload : List Byte) (s : State) : Answer :=
  match encodedFrame ptype len payload with
  | some frame => .next (s.answer .cmd (.bytes frame))
  | none => .next (s.answer .cmd .tooLong)

/-- RB.AVAIL and the test of the room of an ENQUEUE under Reject (R195): no room for the whole frame is `WouldBlock`, and nothing
is pushed; with room the pushes begin. -/
def enqRoom (frame : List Byte) (s : State) : State :=
  if s.outR.free < frame.length then (s.setEnq { s.enq with pending := none }).answer .cmd .wouldBlock
  else s.setEnq ⟨true, frame, 0, none⟩

/-- One RB.PUSH of the ENQUEUE in flight (R194, R195): hold while `out` is full, else push the next byte of the
frame; after the last one the call returns `Ok`. A hold changes nothing: it is a wait, not a step (R194). -/
def enqPush (s : State) : State :=
  match s.enq.frame[s.enq.idx]? with
  | some b =>
    if s.outR.isFull then s
    else
      let pushed := (ringPush .out b s).2
      if s.enq.idx + 1 = s.enq.frame.length then
        (pushed.setEnq { s.enq with active := false, idx := s.enq.idx + 1 }).answer .cmd .ok
      else pushed.setEnq { s.enq with idx := s.enq.idx + 1 }
  | none => (s.setEnq { s.enq with active := false }).answer .cmd .ok

/-- The next primitive step of the ENQUEUE in progress, after its ENCODE (R12): the test of the room, or a push. -/
def enqStep (s : State) : State :=
  match s.enq.pending with
  | some frame => enqRoom frame s
  | none => enqPush s

/-- Up to `k` primitive steps of the ENQUEUE in progress; it ends when the call does. -/
def enqSteps : Nat → State → State
  | 0, s => s
  | k + 1, s => if s.enq.busy then enqSteps k (enqStep s) else s

/-- How many primitive steps the ENQUEUE in progress still has, when no other agent's step falls inside it. -/
def Enq.stepsLeft (e : Enq) : Nat :=
  match e.pending with
  | some frame => frame.length + 1
  | none => e.frame.length - e.idx

/-- How many primitive steps one turn of the enqueuing agent takes: one, or enough for the call to end or to hold (log 6). -/
def enqFuel (s : State) : Nat :=
  match s.cfg.grain with
  | .call => s.enq.stepsLeft + 1
  | .primitive => 1

/-- The enqueuing agent goes on with its call. -/
def enqRun (s : State) : State := enqSteps (enqFuel s) s

/-- ENCODE has returned the frame: `enq.active <- 1; enq.frame <- F; enq.idx <- 0` under Spin (R194), the test of the room to
come under Reject (R195). -/
def enqEncoded (frame : List Byte) (s : State) : State :=
  match s.cfg.policy with
  | .spin => s.setEnq ⟨true, frame, 0, none⟩
  | .reject => s.setEnq { s.enq with pending := some frame }

/-- An ENQUEUE begins with its ENCODE, a primitive step of its own (R12); a turn of the whole call goes on to its end or to a
hold (log 6). -/
def enqStart (frame : List Byte) (s : State) : State :=
  match s.cfg.grain with
  | .call => enqRun (enqEncoded frame s)
  | .primitive => enqEncoded frame s

/-- ENQUEUE `type`, `len`, `payload` (R194 for Spin, R195 for Reject). `alive` is tested first (R201); a second ENQUEUE
"does not begin until the first has returned" (R196; log 13). -/
def enqueuePacket (ptype len : Byte) (payload : List Byte) (s : State) : Answer :=
  whenAlive .cmd s fun s =>
    if s.enq.busy then .refused .callInProgress
    else
      match encodedFrame ptype len payload with
      | none => .next (s.answer .cmd .tooLong)
      | some frame => .next (enqStart frame s)

/-- ENQUEUE (R194, R195). -/
def execEnqueue (ptype len : Byte) (payload : List Byte) (s : State) : Answer :=
  enqueuePacket ptype len payload s

/-- SEND_SPEED `left`, `right` (R143): no clamp on sending (D17). -/
def execSendSpeed (left right : Half) (s : State) : Answer :=
  enqueuePacket typeSpeed 4#8 (speedPayload left right) s

/-- SEND_MESSAGE `n`, `text` (R144): the first `min(n, 200)` bytes; the truncation is silent. -/
def execSendMessage (n : Nat) (text : List Byte) (s : State) : Answer :=
  enqueuePacket typeMessage (BitVec.ofNat 8 (messageLength n)) (text.take (messageLength n)) s

end Sys2Proof.Machine
end

