-- ==== Sys2Proof/Machine/Decoder.lean ====
section
/-! DEFINITION. DEC.STEP, DEC.RESET and the sixteen transition rows (42_decoder.md). -/

namespace Sys2Proof.Machine

/-- What one step of the decoder gives: at most one event (R160, R171) and the state after. -/
abbrev Stepped := Except Fault (Option Event × State)

/-! ## The arms -/

/-- Only `dec.st` changes; no event. -/
def advance (st : FramePos) (s : State) : Stepped := .ok (none, s.setDec { s.dec with st := st })

/-- The frame is abandoned: `raise d`, which ends in Sync1 (R250); the byte is used up (R170). -/
def abandon (d : Diag) (s : State) : Stepped := .ok (some (.diag d), raise d s)

/-- DEC.TYPE: the byte is the packet type (R163). -/
def takeType (b : Byte) (s : State) : Stepped :=
  .ok (none, s.setDec { s.dec with ptype := b, st := .length })

/-- DEC.LENGTH.ZERO and DEC.LENGTH.OK: the byte is the payload length (R164). -/
def takeLength (b : Byte) (st : FramePos) (s : State) : Stepped :=
  .ok (none, s.setDec { s.dec with plen := b, st := st })

/-- DEC.DATA.MORE and DEC.DATA.LAST: the three writes of R165. `dec.pay` has the indices 0 to 222 (R33). -/
def takeData (b : Byte) (st : FramePos) (s : State) : Stepped :=
  if s.dec.cnt.toNat < payloadMax then
    .ok (none, s.setDec { s.dec with
      pay := Memory.set s.dec.pay s.dec.cnt.toNat b
      csum := s.dec.csum ^^^ b
      cnt := s.dec.cnt + 1#8
      st := st })
  else .error .payloadIndex

/-- DEC.LF.OK: the packet is built from a copy of the payload, emitted, and the decoder reset (R168). -/
def completePacket (s : State) : Stepped :=
  match Memory.read s.dec.pay 0 s.dec.plen.toNat with
  | some payload =>
    let p : Packet := ⟨s.dec.ptype, payload⟩
    .ok (some (.packet p), (s.emitPacket p).parserReset)
  | none => .error .payloadWithoutValue

/-! ## One rule per state -/

/-- R161. -/
def stepSync1 (b : Byte) (s : State) : Stepped :=
  if b = syncByte then advance .sync2 s else advance .sync1 s

/-- R162. -/
def stepSync2 (b : Byte) (s : State) : Stepped :=
  if b = syncByte then advance .type s else abandon (.framingError b) s

/-- R163. -/
def stepType (b : Byte) (s : State) : Stepped := takeType b s

/-- R164. -/
def stepLength (b : Byte) (s : State) : Stepped :=
  if payloadMax < b.toNat then abandon (.oversizedPacket b) s
  else if b = 0#8 then takeLength b .checksum s
  else takeLength b .data s

/-- R165: the comparison uses the incremented count. -/
def stepData (b : Byte) (s : State) : Stepped :=
  if s.dec.cnt.toNat + 1 = s.dec.plen.toNat then takeData b .checksum s else takeData b .data s

/-- R166. -/
def stepChecksum (b : Byte) (s : State) : Stepped :=
  if b = s.dec.csum then advance .cr s else abandon (.checksumMismatch s.dec.csum b) s

/-- R167. -/
def stepCr (b : Byte) (s : State) : Stepped :=
  if b = crByte then advance .lf s else abandon (.terminatorMismatch .cr b) s

/-- R168. -/
def stepLf (b : Byte) (s : State) : Stepped :=
  if b = lfByte then completePacket s else abandon (.terminatorMismatch .lf b) s

/-- DEC.STEP `b` (R160): the rule of the decoder's state. -/
def stepDecoder (b : Byte) (s : State) : Stepped :=
  match s.dec.st with
  | .sync1 => stepSync1 b s
  | .sync2 => stepSync2 b s
  | .type => stepType b s
  | .length => stepLength b s
  | .data => stepData b s
  | .checksum => stepChecksum b s
  | .cr => stepCr b s
  | .lf => stepLf b s

/-! ## The rows of R178 -/

/-- The condition of a transition row of R178: the decoder's state and the byte condition. Constructors that are no
transition row have none. -/
def rowSelected (d : Dec) (i : Instr) : Bool :=
  match i with
  | .decSync1Hit => d.st == .sync1
  | .decSync1Miss b => d.st == .sync1 && b != syncByte
  | .decSync2Hit => d.st == .sync2
  | .decSync2Miss b => d.st == .sync2 && b != syncByte
  | .decType _ => d.st == .type
  | .decLengthZero => d.st == .length
  | .decLengthOk b => d.st == .length && decide (1 ≤ b.toNat ∧ b.toNat ≤ payloadMax)
  | .decLengthOver b => d.st == .length && decide (224 ≤ b.toNat)
  | .decDataMore _ => d.st == .data && decide (d.cnt.toNat + 1 < d.plen.toNat)
  | .decDataLast _ => d.st == .data && decide (d.cnt.toNat + 1 = d.plen.toNat)
  | .decChecksumOk b => d.st == .checksum && b == d.csum
  | .decChecksumBad b => d.st == .checksum && b != d.csum
  | .decCrOk => d.st == .cr
  | .decCrBad b => d.st == .cr && b != crByte
  | .decLfOk => d.st == .lf
  | .decLfBad b => d.st == .lf && b != lfByte
  | _ => false

/-- The result of a decoder step handed to the caller (R160). -/
def answerEvent (r : Stepped) : Answer :=
  finishWith r fun e s' => .next (s'.answer .poll (.event e))

/-- A row's arm where the row is selected; no meaning where another arm is (log 3). -/
def whenSelected (i : Instr) (s : State) (arm : Stepped) : Answer :=
  if rowSelected s.dec i then answerEvent arm else .refused .rowNotSelected

/-! ## The meanings -/

/-- DEC.STEP `b` (R160). It does not dispatch. -/
def execDecStep (b : Byte) (s : State) : Answer := answerEvent (stepDecoder b s)

/-- DEC.RESET (R169): silent; no result. -/
def execDecReset (s : State) : Answer := .next s.parserReset

/-- R161, the marker. -/
def execDecSync1Hit (s : State) : Answer := whenSelected .decSync1Hit s (advance .sync2 s)

/-- R161, any other byte: skipped silently. -/
def execDecSync1Miss (b : Byte) (s : State) : Answer := whenSelected (.decSync1Miss b) s (advance .sync1 s)

/-- R162, the marker. -/
def execDecSync2Hit (s : State) : Answer := whenSelected .decSync2Hit s (advance .type s)

/-- R162, any other byte: FramingError. -/
def execDecSync2Miss (b : Byte) (s : State) : Answer :=
  whenSelected (.decSync2Miss b) s (abandon (.framingError b) s)

/-- R163. -/
def execDecType (b : Byte) (s : State) : Answer := whenSelected (.decType b) s (takeType b s)

/-- R164, no payload: on to the checksum. -/
def execDecLengthZero (s : State) : Answer := whenSelected .decLengthZero s (takeLength 0#8 .checksum s)

/-- R164, 224 and above: OversizedPacket. -/
def execDecLengthOver (b : Byte) (s : State) : Answer :=
  whenSelected (.decLengthOver b) s (abandon (.oversizedPacket b) s)

/-- R164, 1 to 223. -/
def execDecLengthOk (b : Byte) (s : State) : Answer := whenSelected (.decLengthOk b) s (takeLength b .data s)

/-- R165, more bytes to come. -/
def execDecDataMore (b : Byte) (s : State) : Answer := whenSelected (.decDataMore b) s (takeData b .data s)

/-- R165, the last byte. -/
def execDecDataLast (b : Byte) (s : State) : Answer := whenSelected (.decDataLast b) s (takeData b .checksum s)

/-- R166, the checksum matches. -/
def execDecChecksumOk (b : Byte) (s : State) : Answer := whenSelected (.decChecksumOk b) s (advance .cr s)

/-- R166, ChecksumMismatch. -/
def execDecChecksumBad (b : Byte) (s : State) : Answer :=
  whenSelected (.decChecksumBad b) s (abandon (.checksumMismatch s.dec.csum b) s)

/-- R167, `0x0D`. -/
def execDecCrOk (s : State) : Answer := whenSelected .decCrOk s (advance .lf s)

/-- R167, TerminatorMismatch at CR. -/
def execDecCrBad (b : Byte) (s : State) : Answer :=
  whenSelected (.decCrBad b) s (abandon (.terminatorMismatch .cr b) s)

/-- R168, `0x0A`: the packet. -/
def execDecLfOk (s : State) : Answer := whenSelected .decLfOk s (completePacket s)

/-- R168, TerminatorMismatch at LF. -/
def execDecLfBad (b : Byte) (s : State) : Answer :=
  whenSelected (.decLfBad b) s (abandon (.terminatorMismatch .lf b) s)

end Sys2Proof.Machine
end

