-- ==== Sys2Proof/Machine/Dispatcher.lean ====
section
/-! DEFINITION. DISPATCH (44_dispatch.md) and the unassigned operation codes (R104). -/

namespace Sys2Proof.Machine

/-- Route one decoded packet (R220): the clamped pair to the motor (R221), SpeedLengthInvalid (R222), the text to the
telemetry sink and to the local diagnostics (R223, R224), UnknownPacketType (R225). -/
def dispatchPacket (p : Packet) (s : State) : State :=
  match classify p with
  | .speed left right => s.emitMotor ⟨clampSpeed left, clampSpeed right⟩
  | .speedMalformed len => raise (.speedLengthInvalid len) s
  | .message text => (s.emitTelem text).emitDiag (.messageText text)
  | .unknown ptype => raise (.unknownPacketType ptype) s

/-- DISPATCH `P` (R220): no result, never fails (R226). -/
def execDispatch (p : Packet) (s : State) : Answer := .next (dispatchPacket p s)

/-- An unassigned code "returns `BadOp` and changes no state" (R104). -/
def execBadOp (_code : BitVec 5) (s : State) : Answer := .next (s.answer .status .badOp)

end Sys2Proof.Machine
end

