-- ==== Sys2Proof/Machine/Transport.lean ====
section
/-! DEFINITION. The transport operations beside ENQUEUE (43_transport.md): RX.BYTE, POLL1, POLLALL, TX.BYTE, TX.FLUSH, IO.FAIL, ALIVE. -/

namespace Sys2Proof.Machine

/-- RX.BYTE `b` -> `Ok`, `Full` or `Dead` (R191): `Full` means the byte is lost (R277). -/
def execRxByte (b : Byte) (s : State) : Answer :=
  whenAlive .rx s fun s => .next ((ringPush .inp b s).2.answer .rx (ringPush .inp b s).1)

/-! ## The polling agent's call -/

/-- What the call returns when no byte is left: `None` for POLL1 (R192), the packets completed for the others (R193). -/
def PollCall.outcome (c : PollCall) : Result :=
  match c.kind with
  | .one => .absent
  | .all => .packets c.got
  | .feed _ => .packets c.got

/-- The call takes its next byte: RB.POP `in` for a POLL call (R192, R193), the next byte of the sequence for a feed; no byte left
ends the call. DESIGN CHOICE (log 26): in the primitive setting a feed spends a turn on taking each byte, and one more to find none
left, as a POLL call does with its RB.POP; FEED's expansion (R108) has DEC.STEP steps only. -/
def pollPop (c : PollCall) (s : State) : Answer :=
  match c.kind with
  | .feed rest =>
    match rest with
    | b :: rest' => .next (s.setPoll (some { c with kind := .feed rest', phase := .dec b }))
    | [] => .next ((s.setPoll none).answer .poll c.outcome)
  | .one =>
    finishWith (ringPop .inp s) fun v s' =>
      match v with
      | some b => .next (s'.setPoll (some { c with phase := .dec b }))
      | none => .next ((s'.setPoll none).answer .poll c.outcome)
  | .all =>
    finishWith (ringPop .inp s) fun v s' =>
      match v with
      | some b => .next (s'.setPoll (some { c with phase := .dec b }))
      | none => .next ((s'.setPoll none).answer .poll c.outcome)

/-- The call steps the decoder with the byte it took: a packet goes on to DISPATCH, anything else "keeps draining" (R192). -/
def pollDec (c : PollCall) (b : Byte) (s : State) : Answer :=
  finishWith (stepDecoder b s) fun e s' =>
    match e with
    | some (.packet p) => .next (s'.setPoll (some { c with phase := .disp p }))
    | some (.diag _) => .next (s'.setPoll (some { c with phase := .pop }))
    | none => .next (s'.setPoll (some { c with phase := .pop }))

/-- The call dispatches a packet: POLL1 returns it at once (R192), the others collect it (R193). -/
def pollDisp (c : PollCall) (p : Packet) (s : State) : Answer :=
  match c.kind with
  | .one => .next (((dispatchPacket p s).setPoll none).answer .poll (.packet p))
  | .all => .next ((dispatchPacket p s).setPoll (some { c with phase := .pop, got := c.got ++ [p] }))
  | .feed _ => .next ((dispatchPacket p s).setPoll (some { c with phase := .pop, got := c.got ++ [p] }))

/-- One primitive step of the call in progress: RB.POP, DEC.STEP or DISPATCH (R12, R69). -/
def pollStep (c : PollCall) (s : State) : Answer :=
  match c.phase with
  | .pop => pollPop c s
  | .dec b => pollDec c b s
  | .disp p => pollDisp c p s

/-- Up to `k` primitive steps of the call in progress; it ends when the call does. -/
def pollSteps : Nat → State → Answer
  | 0, s => .next s
  | k + 1, s =>
    match s.poll with
    | none => .next s
    | some c =>
      match pollStep c s with
      | .next s' => pollSteps k s'
      | .fault f => .fault f
      | .refused r => .refused r

/-- How many bytes the call can still take when no other agent's step falls inside it. -/
def bytesLeft (k : PollKind) (s : State) : Nat :=
  match k with
  | .feed rest => rest.length
  | .one => s.inR.count.toNat
  | .all => s.inR.count.toNat

/-- How many primitive steps one turn of the polling agent takes (log 6): at most three for each byte left, two for a byte
already taken, one to find none left. -/
def pollFuel (s : State) : Nat :=
  match s.cfg.grain with
  | .primitive => 1
  | .call =>
    match s.poll with
    | none => 0
    | some c => 3 * bytesLeft c.kind s + 3

/-- The polling agent goes on with its call. -/
def pollRun (s : State) : Answer := pollSteps (pollFuel s) s

/-- A call of the polling agent begins, with its first steps. There is one polling agent (R73; log 13). -/
def pollStart (k : PollKind) (s : State) : Answer :=
  if s.poll.isSome then .refused .callInProgress else pollRun (s.setPoll (some ⟨k, .pop, []⟩))

/-- POLL1 -> one packet, `None` or `Dead` (R192). -/
def execPoll1 (s : State) : Answer := whenAlive .poll s (pollStart .one)

/-- POLLALL -> zero or more packets, or `Dead` (R193). -/
def execPollAll (s : State) : Answer := whenAlive .poll s (pollStart .all)

/-! ## The transmit agent -/

/-- TX.BYTE -> the byte sent, `None` or `Dead` (R197). -/
def execTxByte (s : State) : Answer :=
  whenAlive .tx s fun s =>
    finishWith (ringPop .out s) fun v s' =>
      match v with
      | some b => .next ((s'.emitWire [b]).answer .tx (.byte b))
      | none => .next (s'.answer .tx .absent)

/-- TX.FLUSH -> the byte sequence sent, or `Dead` (R198): the bytes in `out` at its start, in one step. -/
def execTxFlush (s : State) : Answer :=
  whenAlive .tx s fun s =>
    finishWith (ringTake .out s.outR.count.toNat s) fun bs s' =>
      .next ((s'.emitWire bs).answer .tx (.bytes bs))

/-! ## Liveness -/

/-- IO.FAIL (R199): the first one raises TransportIoError, which clears `alive`; a second "does nothing". -/
def execIoFail (s : State) : Answer := if s.alive then .next (raise .transportIoError s) else .next s

/-- ALIVE -> 0 or 1 (R200). -/
def execAlive (s : State) : Answer := .next (s.answer .status (.liveness s.alive))

end Sys2Proof.Machine
end

