-- ==== Sys2Proof/Machine/Frame.lean ====
section
/-! DEFINITION. The three frame rows (R90 to R101, R106): a whole frame is parsed by the decoder and each packet it completes is
dispatched. -/

namespace Sys2Proof.Machine

/-- FEED of a byte sequence (R108), with DISPATCH of every packet completed (R3, R193): the frame's bytes go through
DEC.STEP one by one, whatever state the decoder is in (log 4). -/
def parseBytes (bytes : List Byte) (s : State) : Answer := pollStart (.feed bytes) s

/-- FRAME.SPEED: `24 24 53 L` and what follows (R98, R106). -/
def execFrameSpeed (len : Byte) (rest : List Byte) (s : State) : Answer :=
  parseBytes ([syncByte, syncByte, typeSpeed, len] ++ rest) s

/-- FRAME.MESSAGE: `24 24 4D L` and what follows (R99, R106). -/
def execFrameMessage (len : Byte) (rest : List Byte) (s : State) : Answer :=
  parseBytes ([syncByte, syncByte, typeMessage, len] ++ rest) s

/-- FRAME.UNKNOWN: any other type byte (R100, R106). -/
def execFrameUnknown (ptype len : Byte) (rest : List Byte) (s : State) : Answer :=
  parseBytes ([syncByte, syncByte, ptype, len] ++ rest) s

end Sys2Proof.Machine
end

