-- ==== Sys2Proof/Machine/RingBuffer.lean ====
section
/-! DEFINITION. RB.PUSH, RB.POP, RB.AVAIL (40_ringbuffer.md). -/

namespace Sys2Proof.Machine

/-- RB.PUSH `r`, `b` -> `Ok` or `Full` (R120). -/
def execRbPush (r : RingSel) (b : Byte) (s : State) : Answer :=
  .next ((ringPush r b s).2.answer (producer r) (ringPush r b s).1)

/-- RB.POP `r` -> a byte or `None` (R121). -/
def execRbPop (r : RingSel) (s : State) : Answer :=
  finishWith (ringPop r s) fun v s' =>
    match v with
    | some b => .next (s'.answer (consumer r) (.byte b))
    | none => .next (s'.answer (consumer r) .absent)

/-- RB.AVAIL `r` -> the number of unread bytes (R122; D10). -/
def execRbAvail (r : RingSel) (s : State) : Answer := .next (s.answer .status (.count (s.ring r).count))

end Sys2Proof.Machine
end

