-- ==== Sys2Proof/Machine/Dispatch.lean ====
section
/-! DEFINITION. One arm per constructor of Instr. -/

namespace Sys2Proof.Machine

def exec (i : Instr) (s : State) : Host.Outcome State Fault Refusal :=
  match i with
  | .rbPush r b => Sys2Proof.Machine.execRbPush r b s
  | .rbPop r => Sys2Proof.Machine.execRbPop r s
  | .rbAvail r => Sys2Proof.Machine.execRbAvail r s
  | .encodeFrame ptype len payload => Sys2Proof.Machine.execEncode ptype len payload s
  | .decStep b => Sys2Proof.Machine.execDecStep b s
  | .decReset => Sys2Proof.Machine.execDecReset s
  | .dispatch p => Sys2Proof.Machine.execDispatch p s
  | .rxByte b => Sys2Proof.Machine.execRxByte b s
  | .poll1 => Sys2Proof.Machine.execPoll1 s
  | .pollAll => Sys2Proof.Machine.execPollAll s
  | .enqueue ptype len payload => Sys2Proof.Machine.execEnqueue ptype len payload s
  | .sendSpeed left right => Sys2Proof.Machine.execSendSpeed left right s
  | .sendMessage n text => Sys2Proof.Machine.execSendMessage n text s
  | .txByte => Sys2Proof.Machine.execTxByte s
  | .txFlush => Sys2Proof.Machine.execTxFlush s
  | .ioFail => Sys2Proof.Machine.execIoFail s
  | .alive => Sys2Proof.Machine.execAlive s
  | .badOp code => Sys2Proof.Machine.execBadOp code s
  | .frameSpeed len rest => Sys2Proof.Machine.execFrameSpeed len rest s
  | .frameMessage len rest => Sys2Proof.Machine.execFrameMessage len rest s
  | .frameUnknown ptype len rest => Sys2Proof.Machine.execFrameUnknown ptype len rest s
  | .decSync1Hit => Sys2Proof.Machine.execDecSync1Hit s
  | .decSync1Miss b => Sys2Proof.Machine.execDecSync1Miss b s
  | .decSync2Hit => Sys2Proof.Machine.execDecSync2Hit s
  | .decSync2Miss b => Sys2Proof.Machine.execDecSync2Miss b s
  | .decType b => Sys2Proof.Machine.execDecType b s
  | .decLengthZero => Sys2Proof.Machine.execDecLengthZero s
  | .decLengthOver b => Sys2Proof.Machine.execDecLengthOver b s
  | .decLengthOk b => Sys2Proof.Machine.execDecLengthOk b s
  | .decDataMore b => Sys2Proof.Machine.execDecDataMore b s
  | .decDataLast b => Sys2Proof.Machine.execDecDataLast b s
  | .decChecksumOk b => Sys2Proof.Machine.execDecChecksumOk b s
  | .decChecksumBad b => Sys2Proof.Machine.execDecChecksumBad b s
  | .decCrOk => Sys2Proof.Machine.execDecCrOk s
  | .decCrBad b => Sys2Proof.Machine.execDecCrBad b s
  | .decLfOk => Sys2Proof.Machine.execDecLfOk s
  | .decLfBad b => Sys2Proof.Machine.execDecLfBad b s

end Sys2Proof.Machine
end

