-- ==== Sys2Proof/Machine/Turns.lean ====
section
/-! DEFINITION. What one turn of the schedule does: the reset event, a call that goes on, or the next request of a port. -/

namespace Sys2Proof.Machine

/-- The reset event (R270): every piece of block state at its reset value; the requests not yet begun, the schedule and the
settings are the environment's and stay (log 15). -/
def resetEvent (s : State) : State :=
  { State.reset with ports := s.ports, sched := s.sched, cfg := s.cfg }

/-- The agent's thread is inside another agent's call: on the device the main loop polls and enqueues one after the other
(R203, R276); on the host the worker receives, polls and transmits (R202, R259). -/
def threadBusy (a : Agent) (s : State) : Bool :=
  match s.cfg.threads, a with
  | .device, .poll => s.enq.busy
  | .device, .cmd => s.poll.isSome
  | .host, .rx => s.poll.isSome
  | .host, .tx => s.poll.isSome
  | _, _ => false

/-- The agent begins the next request on its port, if there is one (R272: otherwise nothing happens). -/
def beginRequest (a : Agent) (s : State) : Answer :=
  match s.ports.get a with
  | [] => .next s
  | bytes =>
    match decode bytes with
    | .error r => .refused (.undecodable r)
    | .ok (i, rest) =>
      if !mayIssue a i then .refused .roleViolation
      else if !variantAdmits s.cfg.threads i then .refused .hostOnly
      else exec i (s.setPort a rest)

/-- An agent's turn: a call in progress goes on (R12, R196), else the next request begins. -/
def agentTurn (a : Agent) (s : State) : Answer :=
  if threadBusy a s then .next s
  else
    match a with
    | .poll => if s.poll.isSome then pollRun s else beginRequest a s
    | .cmd => if s.enq.busy then .next (enqRun s) else beginRequest a s
    | _ => beginRequest a s

/-- The next turn of the schedule; with none the block is idle (R272). -/
def takeTurn (s : State) : Answer :=
  match s.sched with
  | [] => .next s
  | .reset :: ts => .next (resetEvent (s.setSched ts))
  | .agent a :: ts => agentTurn a (s.setSched ts)

/-- The port a table word's request belongs to: its operation's own (R259). -/
def wordPort (nbits w : Nat) : Agent :=
  match decodeTableWord nbits w with
  | some i => home i
  | none => .status

/-- Present a table word's request at the front of its port and give that port's agent the next turn (log 25). -/
def presentWord (s : State) (nbits w : Nat) : State :=
  (s.setPort (wordPort nbits w) (tableWordRequest nbits w ++ s.ports.get (wordPort nbits w))).setSched
    (.agent (wordPort nbits w) :: s.sched)

end Sys2Proof.Machine
end

