-- ==== Sys2Proof/Machine/Step.lean ====
section
/-! DEFINITION. One step of the machine: one turn of the schedule (R69). -/

namespace Sys2Proof.Machine

/-- At each step exactly one agent acts (R69), or the reset event happens (R270). -/
def step (s : State) : Host.Outcome State Fault Refusal := takeTurn s

/-- `s` with a table word's request presented on its port, and its agent's turn next, so that the next step begins exactly it
(log 25). -/
def State.withFetchWord (s : State) (nbits w : Nat) : State := presentWord s nbits w

end Sys2Proof.Machine
end

