-- ==== Sys2Proof/Safety.lean ====
section
/-! DEFINITION. What counts as a sound state (R20, R25, R35, R41), what an operation leaves alone, and the vocabulary the
statements are written in. -/

namespace Sys2Proof.Machine

/-! ## Invariants -/

/-- The stores' list form: rising indices below the store's size (R20, R33, R60). -/
abbrev Memory.within (m : Memory) (size : Nat) : Prop := Memory.wf m ∧ ∀ c ∈ m, c.1 < size

/-- The `k`-th slot from `r.rd` on, `r.rd +8 k` (R25). -/
def Ring.slot (r : Ring) (k : Nat) : Nat := (r.rd + BitVec.ofNat 8 k).toNat

/-- A sound ring: 256 slots, and every slot of the unread range holds a value (R20, R25). -/
abbrev Ring.sound (r : Ring) : Prop :=
  Memory.within r.buf ringSlots ∧ ∀ k, k < r.count.toNat → (Memory.get r.buf (r.slot k)).isSome

/-- The first `n` payload bytes hold values, and `dec.csum` is their XOR (R35 (e), (f)). -/
abbrev Dec.collected (d : Dec) (n : Nat) : Prop :=
  (Memory.read d.pay 0 n).isSome ∧ d.csum = checksum ((Memory.read d.pay 0 n).getD [])

/-- R35 (a) to (f), and the payload store's form (R33). -/
abbrev Dec.sound (d : Dec) : Prop :=
  Memory.within d.pay payloadMax ∧ d.plen.toNat ≤ payloadMax ∧ d.cnt ≤ d.plen ∧
  match d.st with
  | .sync1 => d.csum = 0#8 ∧ d.cnt = 0#8 ∧ d.plen = 0#8 ∧ d.ptype = 0#8
  | .sync2 => d.csum = 0#8 ∧ d.cnt = 0#8 ∧ d.plen = 0#8 ∧ d.ptype = 0#8
  | .type => d.csum = 0#8 ∧ d.cnt = 0#8 ∧ d.plen = 0#8
  | .length => d.csum = 0#8 ∧ d.cnt = 0#8 ∧ d.plen = 0#8
  | .data => d.cnt < d.plen ∧ d.collected d.cnt.toNat
  | .checksum => d.cnt = d.plen ∧ d.collected d.plen.toNat
  | .cr => d.cnt = d.plen ∧ d.collected d.plen.toNat
  | .lf => d.cnt = d.plen ∧ d.collected d.plen.toNat

/-- The decoder is as `ParserReset` leaves it, whatever its payload store holds (R34). -/
abbrev Dec.initial (d : Dec) : Prop :=
  d.st = .sync1 ∧ d.ptype = 0#8 ∧ d.plen = 0#8 ∧ d.csum = 0#8 ∧ d.cnt = 0#8

/-- A frame has 7 to 230 bytes (R41, R90). -/
abbrev frameFits (frame : List Byte) : Prop := frameOverhead ≤ frame.length ∧ frame.length ≤ payloadMax + frameOverhead

/-- While an ENQUEUE is in flight `enq.frame` is a frame and `enq.idx` counts the bytes pushed (R41); a frame whose room is still
to be tested belongs to an ENQUEUE that has pushed nothing. -/
abbrev Enq.sound (e : Enq) : Prop :=
  (e.active = true → frameFits e.frame ∧ e.idx < e.frame.length) ∧
  ∀ frame, e.pending = some frame → frameFits frame ∧ e.active = false

/-- A sound state: both rings, the decoder and the ENQUEUE in flight. -/
abbrev State.sound (s : State) : Prop := s.inR.sound ∧ s.outR.sound ∧ s.dec.sound ∧ s.enq.sound

/-! ## The unread bytes of a ring -/

/-- The values of `n` slots from slot `a` on, modulo 256, as far as they hold values. -/
def readSlots (m : Memory) (a : Byte) : Nat → List (Option Byte)
  | 0 => []
  | n + 1 => Memory.get m a.toNat :: readSlots m (a + 1#8) n

/-- The unread bytes of a ring, oldest first: the slots `r.rd`, `r.rd +8 1`, ..., `r.wr -8 1` (R25). -/
def Ring.unread (r : Ring) : List (Option Byte) := readSlots r.buf r.rd r.count.toNat

/-- `Count(r) = n` for a ring whose unread slots all hold values, read as bytes. -/
def Ring.holds (r : Ring) (bs : List Byte) : Prop := r.unread = bs.map some

/-! ## What is left alone -/

/-- The pieces of State. -/
inductive Part where
  | inRing
  | outRing
  | dec
  | alive
  | enq
  | poll
  | wireOut
  | pktOut
  | motorOut
  | telemOut
  | diagOut
  | returns
  | ports
  | sched
  | cfg
  deriving DecidableEq, Repr

/-- A piece is the same in two states. -/
def Part.same : Part → State → State → Prop
  | .inRing, s, t => t.inR = s.inR
  | .outRing, s, t => t.outR = s.outR
  | .dec, s, t => t.dec = s.dec
  | .alive, s, t => t.alive = s.alive
  | .enq, s, t => t.enq = s.enq
  | .poll, s, t => t.poll = s.poll
  | .wireOut, s, t => t.wireOut = s.wireOut
  | .pktOut, s, t => t.pktOut = s.pktOut
  | .motorOut, s, t => t.motorOut = s.motorOut
  | .telemOut, s, t => t.telemOut = s.telemOut
  | .diagOut, s, t => t.diagOut = s.diagOut
  | .returns, s, t => t.returns = s.returns
  | .ports, s, t => t.ports = s.ports
  | .sched, s, t => t.sched = s.sched
  | .cfg, s, t => t.cfg = s.cfg

/-- The frame of an operation: every piece of State but the named ones is as before. -/
def OnlyChanges (parts : List Part) (s t : State) : Prop := ∀ p, p ∉ parts → p.same s t

/-- The part a ring is. -/
def ringPart : RingSel → Part
  | .inp => .inRing
  | .out => .outRing

/-- The other ring. -/
def otherRing : RingSel → RingSel
  | .inp => .out
  | .out => .inp

/-- A store as before but for one index (R65). -/
def Memory.sameBut (m n : Memory) (i : Nat) : Prop := ∀ j, j ≠ i → Memory.get n j = Memory.get m j

/-- A history only grows (R43). -/
def State.historiesGrow (s t : State) : Prop :=
  s.wireOut <+: t.wireOut ∧ s.pktOut <+: t.pktOut ∧ s.motorOut <+: t.motorOut ∧ s.telemOut <+: t.telemOut ∧
  s.diagOut <+: t.diagOut

/-! ## Frames and rows, as the statements write them -/

/-- The frame of R90 written out: two sync bytes, type, length, payload, the XOR of the payload, CR, LF. -/
def wireFrame (ptype : Byte) (payload : List Byte) : List Byte :=
  0x24#8 :: 0x24#8 :: ptype :: BitVec.ofNat 8 payload.length ::
    (payload ++ [payload.foldl (· ^^^ ·) 0#8, 0x0D#8, 0x0A#8])

/-- What an enqueuing operation with well-formed operands sends, if its payload is not too long: the packet of ENQUEUE, the
four bytes of SEND_SPEED (R143), the first 200 bytes of SEND_MESSAGE (R144). -/
def sentPacket : Instr → Option Packet
  | .enqueue ptype len payload =>
      if payload.length = len.toNat ∧ len.toNat ≤ 223 then some ⟨ptype, payload⟩ else none
  | .sendSpeed left right =>
      some ⟨0x53#8, [left.extractLsb' 0 8, left.extractLsb' 8 8, right.extractLsb' 0 8, right.extractLsb' 8 8]⟩
  | .sendMessage n text => if text.length = n then some ⟨0x4D#8, text.take 200⟩ else none
  | _ => none

/-- The input byte of a transition row of R178; other constructors are no row. -/
def rowByte : Instr → Option Byte
  | .decSync1Hit => some 0x24#8
  | .decSync1Miss b => some b
  | .decSync2Hit => some 0x24#8
  | .decSync2Miss b => some b
  | .decType b => some b
  | .decLengthZero => some 0#8
  | .decLengthOver b => some b
  | .decLengthOk b => some b
  | .decDataMore b => some b
  | .decDataLast b => some b
  | .decChecksumOk b => some b
  | .decChecksumBad b => some b
  | .decCrOk => some 0x0D#8
  | .decCrBad b => some b
  | .decLfOk => some 0x0A#8
  | .decLfBad b => some b
  | _ => none

/-- A frame row and the packet it carries when its trailer is right (R90, R106). -/
def frameRow (p : Packet) : Instr :=
  if p.ptype = 0x53#8 then .frameSpeed (BitVec.ofNat 8 p.payload.length) ((wireFrame p.ptype p.payload).drop 4)
  else if p.ptype = 0x4D#8 then .frameMessage (BitVec.ofNat 8 p.payload.length) ((wireFrame p.ptype p.payload).drop 4)
  else .frameUnknown p.ptype (BitVec.ofNat 8 p.payload.length) ((wireFrame p.ptype p.payload).drop 4)

/-- What DISPATCH of a packet adds to the three histories it may write (R221, R222, R223, R225). -/
def dispatched (p : Packet) : List SetSpeeds × List (List Byte) × List Diag :=
  if p.ptype = 0x53#8 then
    match p.payload with
    | [a, b, c, d] =>
      ([⟨BitVec.ofNat 16 (min (a.toNat + 256 * b.toNat) 10000), BitVec.ofNat 16 (min (c.toNat + 256 * d.toNat) 10000)⟩], [], [])
    | other => ([], [], [.speedLengthInvalid other.length])
  else if p.ptype = 0x4D#8 then ([], [p.payload], [.messageText p.payload])
  else ([], [], [.unknownPacketType p.ptype])

/-- What an event of the decoder, its packet dispatched, adds to the same histories: a diagnostic is written as it is (R160, R250). -/
def eventShown : Event → List SetSpeeds × List (List Byte) × List Diag
  | .packet p => dispatched p
  | .diag d => ([], [], [d])

/-- The packets among a sequence of events, in order. -/
def packetsOf (es : List Event) : List Packet :=
  es.filterMap fun e =>
    match e with
    | .packet p => some p
    | .diag _ => none

/-- These events, each packet dispatched, are what happened between two states, as the three histories show it. -/
def ShowsEvents (es : List Event) (s t : State) : Prop :=
  t.motorOut = s.motorOut ++ (es.map fun e => (eventShown e).1).flatten ∧
  t.telemOut = s.telemOut ++ (es.map fun e => (eventShown e).2.1).flatten ∧
  t.diagOut = s.diagOut ++ (es.map fun e => (eventShown e).2.2).flatten

/-- The DISPATCH of these packets, and no diagnostic of the decoder, is what happened between two states. -/
def ShowsDispatch (ps : List Packet) (s t : State) : Prop := ShowsEvents (ps.map .packet) s t

/-! ## Runs -/

/-- Pushes (`some b`) and pops (`none`) on one ring in order: the bytes accepted, the bytes returned, and the state after. -/
def ringRun (r : RingSel) : List (Option Byte) → State → Except Fault (List Byte × List Byte × State)
  | [], s => .ok ([], [], s)
  | some b :: ops, s =>
    match ringRun r ops (ringPush r b s).2 with
    | .ok (pushed, popped, t) => .ok (if (ringPush r b s).1 = .ok then b :: pushed else pushed, popped, t)
    | .error f => .error f
  | none :: ops, s =>
    match ringPop r s with
    | .error f => .error f
    | .ok (v, s') =>
      match ringRun r ops s' with
      | .ok (pushed, popped, t) => .ok (pushed, v.toList ++ popped, t)
      | .error f => .error f

/-- The operations one after the other, each from the state the one before leaves. -/
def runOps : List Instr → State → Answer
  | [], s => .next s
  | i :: is, s =>
    match exec i s with
    | .next s' => runOps is s'
    | .fault f => .fault f
    | .refused r => .refused r

/-- FEED (R108): DEC.STEP of each byte in order, with the events collected. -/
def feed : List Byte → State → Except Fault (List Event × State)
  | [], s => .ok ([], s)
  | b :: bs, s =>
    match stepDecoder b s with
    | .ok (e, s') =>
      match feed bs s' with
      | .ok (es, s'') => .ok (e.toList ++ es, s'')
      | .error f => .error f
    | .error f => .error f

/-- `k` steps of the machine. -/
def steps : Nat → State → Answer
  | 0, s => .next s
  | k + 1, s =>
    match step s with
    | .next s' => steps k s'
    | .fault f => .fault f
    | .refused r => .refused r

end Sys2Proof.Machine
end

