-- ==== Sys2Proof/Certificates/Slice0/Obligations.lean ====
section
/-! DEFINITION. The statements for the provers, one def Obligations.<Name> : Prop each. The spec's rule or section each formalises is
named in its docstring; what rests on a decision the spec marks as its own, or on a log entry of this model, says so. Results
are read from `returns` (log 12). -/

open Sys2Proof Sys2Proof.Machine

/-! ## Ring buffer -/

/-- R120, both branches, the frame and the byte written: every other slot of the ring reads as before. -/
def Obligations.PushStoresOneByteOrAnswersFull : Prop :=
  ∀ (r : RingSel) (b : Byte) (s : State),
    ((s.ring r).wr + 1#8 = (s.ring r).rd →
      exec (.rbPush r b) s = .next { s with returns := s.returns ++ [⟨producer r, .full⟩] }) ∧
    ((s.ring r).wr + 1#8 ≠ (s.ring r).rd →
      ∃ t, exec (.rbPush r b) s = .next t ∧
        (t.ring r).wr = (s.ring r).wr + 1#8 ∧ (t.ring r).rd = (s.ring r).rd ∧
        Memory.get (t.ring r).buf (s.ring r).wr.toNat = some b ∧
        Memory.sameBut (s.ring r).buf (t.ring r).buf (s.ring r).wr.toNat ∧
        (t.ring r).wr ≠ (t.ring r).rd ∧
        t.returns = s.returns ++ [⟨producer r, .ok⟩] ∧
        OnlyChanges [ringPart r, .returns] s t)

/-- R121, both branches and the frame: the slot is not cleared. A slot that holds no value is the case of log 9. -/
def Obligations.PopReturnsOldestByteOrNone : Prop :=
  ∀ (r : RingSel) (s : State),
    ((s.ring r).wr = (s.ring r).rd →
      exec (.rbPop r) s = .next { s with returns := s.returns ++ [⟨consumer r, .absent⟩] }) ∧
    (∀ v, (s.ring r).wr ≠ (s.ring r).rd → Memory.get (s.ring r).buf (s.ring r).rd.toNat = some v →
      ∃ t, exec (.rbPop r) s = .next t ∧
        (t.ring r).rd = (s.ring r).rd + 1#8 ∧ (t.ring r).wr = (s.ring r).wr ∧ (t.ring r).buf = (s.ring r).buf ∧
        (t.ring r).wr + 1#8 ≠ (t.ring r).rd ∧
        t.returns = s.returns ++ [⟨consumer r, .byte v⟩] ∧
        OnlyChanges [ringPart r, .returns] s t)

/-- R122 and R23; that it counts unread bytes is decision D10. The count is `wr - rd` modulo 256, given as a natural. -/
def Obligations.AvailCountsUnreadBytes : Prop :=
  ∀ (r : RingSel) (s : State),
    ∃ n : Byte, n.toNat = ((s.ring r).wr.toNat + 256 - (s.ring r).rd.toNat) % 256 ∧
      exec (.rbAvail r) s = .next { s with returns := s.returns ++ [⟨.status, .count n⟩] }

/-- R64 and R124: whatever pushes and pops are made on one ring, the bytes accepted are the bytes returned followed by the
bytes still unread: nothing is lost, repeated or reordered, however often the cursors wrap. -/
def Obligations.RingIsFirstInFirstOut : Prop :=
  ∀ (r : RingSel) (ops : List (Option Byte)) (s : State) (old : List Byte), (s.ring r).holds old →
    ∃ pushed popped t left, ringRun r ops s = .ok (pushed, popped, t) ∧ (t.ring r).holds left ∧
      old ++ pushed = popped ++ left

/-- R123: from an empty ring exactly 255 pushes are accepted and the next is refused, whatever the cursors' common value. -/
def Obligations.RingHolds255BytesAndNoMore : Prop :=
  ∀ (r : RingSel) (bs : List Byte) (b : Byte) (s : State), (s.ring r).wr = (s.ring r).rd → bs.length = 255 →
    ∃ t u, runOps (bs.map (.rbPush r)) s = .next t ∧
      t.returns = s.returns ++ List.replicate 255 ⟨producer r, .ok⟩ ∧ (t.ring r).holds bs ∧
      exec (.rbPush r b) t = .next u ∧ u.ring r = t.ring r ∧ u.returns = t.returns ++ [⟨producer r, .full⟩]

/-- R127: a push and a pop on one ring commute unless it is empty or full; on different rings they always do. -/
def Obligations.PushAndPopCommute : Prop :=
  ∀ (r : RingSel) (b v : Byte) (s : State),
    ((s.ring r).wr ≠ (s.ring r).rd → (s.ring r).wr + 1#8 ≠ (s.ring r).rd →
      Memory.get (s.ring r).buf (s.ring r).rd.toNat = some v →
      ∃ s1 t, ringPop r s = .ok (some v, s1) ∧ ringPop r (ringPush r b s).2 = .ok (some v, t) ∧
        ringPush r b s1 = (.ok, t) ∧ (ringPush r b s).1 = .ok) ∧
    (∀ x s1, ringPop (otherRing r) s = .ok (x, s1) →
      ∃ t, ringPop (otherRing r) (ringPush r b s).2 = .ok (x, t) ∧ ringPush r b s1 = ((ringPush r b s).1, t))

/-! ## Encoder -/

/-- R90: the frame ENCODE returns, byte by byte; ENCODE changes nothing (R140). -/
def Obligations.EncodeBuildsTheWireFrame : Prop :=
  ∀ (ptype len : Byte) (payload : List Byte) (s : State), len.toNat ≤ 223 → payload.length = len.toNat →
    ∃ frame, exec (.encodeFrame ptype len payload) s = .next { s with returns := s.returns ++ [⟨.cmd, .bytes frame⟩] } ∧
      frame.length = 7 + len.toNat ∧
      frame[0]? = some 0x24#8 ∧ frame[1]? = some 0x24#8 ∧ frame[2]? = some ptype ∧ frame[3]? = some len ∧
      (∀ k, k < len.toNat → frame[4 + k]? = payload[k]?) ∧
      frame[4 + len.toNat]? = some (payload.foldl (· ^^^ ·) 0#8) ∧
      frame[5 + len.toNat]? = some 0x0D#8 ∧ frame[6 + len.toNat]? = some 0x0A#8

/-- R141, R194 (a) and R195 (decisions D13, D15): a length above 223 gives `TooLong`, and under Reject a frame without room for the
whole of it gives `WouldBlock`; nothing is pushed. The room is tested in a turn of its own when a turn takes one primitive step
(R12; log 6, 16), as it is then. -/
def Obligations.TurnedAwayFrameChangesNothing : Prop :=
  (∀ (ptype len : Byte) (payload : List Byte) (s : State), 224 ≤ len.toNat →
    exec (.encodeFrame ptype len payload) s = .next { s with returns := s.returns ++ [⟨.cmd, .tooLong⟩] } ∧
    (s.alive = true → s.enq.busy = false →
      exec (.enqueue ptype len payload) s = .next { s with returns := s.returns ++ [⟨.cmd, .tooLong⟩] })) ∧
  (∀ (i : Instr) (p : Packet) (s : State), sentPacket i = some p →
    s.alive = true → s.enq.busy = false → s.cfg.grain = .call → s.cfg.policy = .reject →
    s.outR.free < p.payload.length + 7 →
    exec i s = .next { s with returns := s.returns ++ [⟨.cmd, .wouldBlock⟩] }) ∧
  (∀ (frame : List Byte) (s : State), s.enq.pending = some frame → s.enq.active = false → threadBusy .cmd s = false →
    s.outR.free < frame.length →
    agentTurn .cmd s = .next { s with
      enq := { s.enq with pending := none }, returns := s.returns ++ [⟨.cmd, .wouldBlock⟩] })

/-- R194 (b), R195 with R143 and R144 (decisions D13, D16, D17): ENQUEUE, SEND_SPEED and SEND_MESSAGE with room for the whole
frame append exactly that frame to `out` and return `Ok`, under either policy, where the call runs whole (log 6). Where a turn is
one primitive step (R12), their first step is the ENCODE alone: no byte is pushed, and under Reject the room is not tested yet
(log 16). -/
def Obligations.EnqueueWithRoomAppendsTheFrame : Prop :=
  (∀ (i : Instr) (p : Packet) (s : State) (old : List Byte), sentPacket i = some p →
    s.alive = true → s.enq.busy = false → s.cfg.grain = .call → s.outR.holds old →
    old.length + (p.payload.length + 7) ≤ 255 →
    ∃ t, exec i s = .next t ∧ t.outR.holds (old ++ wireFrame p.ptype p.payload) ∧ t.outR.rd = s.outR.rd ∧
      t.enq.busy = false ∧ t.returns = s.returns ++ [⟨.cmd, .ok⟩] ∧ OnlyChanges [.outRing, .enq, .returns] s t) ∧
  (∀ (i : Instr) (p : Packet) (s : State), sentPacket i = some p →
    s.alive = true → s.enq.busy = false → s.cfg.grain = .primitive →
    (s.cfg.policy = .spin → exec i s = .next { s with enq := ⟨true, wireFrame p.ptype p.payload, 0, none⟩ }) ∧
    (s.cfg.policy = .reject →
      exec i s = .next { s with enq := { s.enq with pending := some (wireFrame p.ptype p.payload) } }))

/-- R194 and R41 (decision D13): under Spin, without room for the whole frame, as many bytes go in as fit, in order; the ring
is full, the call is in flight and has returned nothing. -/
def Obligations.SpinHoldsWhenOutIsFull : Prop :=
  ∀ (i : Instr) (p : Packet) (s : State) (old : List Byte), sentPacket i = some p →
    s.alive = true → s.enq.busy = false → s.cfg.grain = .call → s.cfg.policy = .spin → s.outR.holds old →
    old.length ≤ 255 → 255 < old.length + (p.payload.length + 7) →
    ∃ t, exec i s = .next t ∧
      t.outR.holds (old ++ (wireFrame p.ptype p.payload).take (255 - old.length)) ∧ t.outR.isFull = true ∧
      t.enq = ⟨true, wireFrame p.ptype p.payload, 255 - old.length, none⟩ ∧ OnlyChanges [.outRing, .enq] s t

/-- R194: the hold is lifted only by a pop on `out`: while `out` is full the enqueuing agent's turn changes nothing, and after
one TX.BYTE its turn pushes exactly the frame's next byte. -/
def Obligations.HeldEnqueueWaitsForOnePop : Prop :=
  ∀ (s : State) (v b : Byte), s.enq.active = true → s.enq.pending = none → s.enq.frame[s.enq.idx]? = some b →
    s.outR.isFull = true → s.alive = true → threadBusy .cmd s = false → Memory.get s.outR.buf s.outR.rd.toNat = some v →
    agentTurn .cmd s = .next s ∧
    ∃ t u, exec .txByte s = .next t ∧ t.wireOut = s.wireOut ++ [v] ∧ agentTurn .cmd t = .next u ∧
      Memory.get u.outR.buf s.outR.wr.toNat = some b ∧ u.outR.wr = s.outR.wr + 1#8 ∧
      u.outR.rd = s.outR.rd + 1#8 ∧ u.enq.idx = s.enq.idx + 1 ∧
      (u.enq.active = false ↔ s.enq.idx + 1 = s.enq.frame.length)

/-! ## Decoder -/

/-- R161: the marker goes on to Sync2, any other byte stays; no event, no other change. -/
def Obligations.Sync1WaitsForTheMarker : Prop :=
  ∀ (b : Byte) (s : State), s.dec.st = .sync1 →
    exec (.decStep b) s = .next { s with
      dec := { s.dec with st := if b = 0x24#8 then .sync2 else .sync1 }
      returns := s.returns ++ [⟨.poll, .event none⟩] }

/-- R162: the second marker goes on to Type; any other byte abandons the frame (the diagnostic is decision D20). -/
def Obligations.Sync2TakesTheSecondMarker : Prop :=
  ∀ (b : Byte) (s : State), s.dec.st = .sync2 →
    (b = 0x24#8 → exec (.decStep b) s = .next { s with
      dec := { s.dec with st := .type }, returns := s.returns ++ [⟨.poll, .event none⟩] }) ∧
    (b ≠ 0x24#8 → exec (.decStep b) s = .next { s with
      dec := ⟨.sync1, 0#8, 0#8, 0#8, 0#8, s.dec.pay⟩
      diagOut := s.diagOut ++ [.framingError b]
      returns := s.returns ++ [⟨.poll, .event (some (.diag (.framingError b)))⟩] })

/-- R163: any byte is captured as the packet type. -/
def Obligations.TypeByteIsCapturedVerbatim : Prop :=
  ∀ (b : Byte) (s : State), s.dec.st = .type →
    exec (.decStep b) s = .next { s with
      dec := { s.dec with ptype := b, st := .length }
      returns := s.returns ++ [⟨.poll, .event none⟩] }

/-- R164 (the zero branch is decision D9): 0 to Checksum, 1 to 223 to Data, 224 and above abandoned with nothing stored. -/
def Obligations.LengthByteIsBoundedBy223 : Prop :=
  ∀ (b : Byte) (s : State), s.dec.st = .length →
    (b = 0#8 → exec (.decStep b) s = .next { s with
      dec := { s.dec with plen := 0#8, st := .checksum }, returns := s.returns ++ [⟨.poll, .event none⟩] }) ∧
    (1 ≤ b.toNat → b.toNat ≤ 223 → exec (.decStep b) s = .next { s with
      dec := { s.dec with plen := b, st := .data }, returns := s.returns ++ [⟨.poll, .event none⟩] }) ∧
    (224 ≤ b.toNat → exec (.decStep b) s = .next { s with
      dec := ⟨.sync1, 0#8, 0#8, 0#8, 0#8, s.dec.pay⟩
      diagOut := s.diagOut ++ [.oversizedPacket b]
      returns := s.returns ++ [⟨.poll, .event (some (.diag (.oversizedPacket b)))⟩] })

/-- R165: the byte is stored at `dec.pay[dec.cnt]`, XORed in and counted; the state after compares the incremented count. The
premise is the range of the payload store's indices (R33); a decoder of R35 meets it (log 9). -/
def Obligations.DataByteIsStoredAndSummed : Prop :=
  ∀ (b : Byte) (s : State), s.dec.st = .data → s.dec.cnt.toNat ≤ 222 →
    ∃ t, exec (.decStep b) s = .next t ∧
      Memory.get t.dec.pay s.dec.cnt.toNat = some b ∧ Memory.sameBut s.dec.pay t.dec.pay s.dec.cnt.toNat ∧
      t.dec.csum = s.dec.csum ^^^ b ∧ t.dec.cnt.toNat = s.dec.cnt.toNat + 1 ∧
      t.dec.plen = s.dec.plen ∧ t.dec.ptype = s.dec.ptype ∧
      t.dec.st = (if t.dec.cnt = s.dec.plen then .checksum else .data) ∧
      t.returns = s.returns ++ [⟨.poll, .event none⟩] ∧ OnlyChanges [.dec, .returns] s t

/-- R166 (which operand is which is decision D19): a match goes on to CR, a mismatch abandons the frame. -/
def Obligations.ChecksumByteIsCompared : Prop :=
  ∀ (b : Byte) (s : State), s.dec.st = .checksum →
    (b = s.dec.csum → exec (.decStep b) s = .next { s with
      dec := { s.dec with st := .cr }, returns := s.returns ++ [⟨.poll, .event none⟩] }) ∧
    (b ≠ s.dec.csum → exec (.decStep b) s = .next { s with
      dec := ⟨.sync1, 0#8, 0#8, 0#8, 0#8, s.dec.pay⟩
      diagOut := s.diagOut ++ [.checksumMismatch s.dec.csum b]
      returns := s.returns ++ [⟨.poll, .event (some (.diag (.checksumMismatch s.dec.csum b)))⟩] })

/-- R167: `0x0D` goes on to LF; any other byte raises TerminatorMismatch at CR and resets. -/
def Obligations.CrByteIsRequired : Prop :=
  ∀ (b : Byte) (s : State), s.dec.st = .cr →
    (b = 0x0D#8 → exec (.decStep b) s = .next { s with
      dec := { s.dec with st := .lf }, returns := s.returns ++ [⟨.poll, .event none⟩] }) ∧
    (b ≠ 0x0D#8 → exec (.decStep b) s = .next { s with
      dec := ⟨.sync1, 0#8, 0#8, 0#8, 0#8, s.dec.pay⟩
      diagOut := s.diagOut ++ [.terminatorMismatch .cr b]
      returns := s.returns ++ [⟨.poll, .event (some (.diag (.terminatorMismatch .cr b)))⟩] })

/-- R168 (decisions D21, D32): `0x0A` emits the packet built before the reset; any other byte raises TerminatorMismatch at LF.
Either way the decoder is reset. -/
def Obligations.LfByteCompletesThePacket : Prop :=
  ∀ (b : Byte) (s : State) (payload : List Byte), s.dec.st = .lf →
    (b = 0x0A#8 → payload.length = s.dec.plen.toNat →
      (∀ k, k < payload.length → Memory.get s.dec.pay k = payload[k]?) →
      exec (.decStep b) s = .next { s with
        dec := ⟨.sync1, 0#8, 0#8, 0#8, 0#8, s.dec.pay⟩
        pktOut := s.pktOut ++ [⟨s.dec.ptype, payload⟩]
        returns := s.returns ++ [⟨.poll, .event (some (.packet ⟨s.dec.ptype, payload⟩))⟩] }) ∧
    (b ≠ 0x0A#8 → exec (.decStep b) s = .next { s with
      dec := ⟨.sync1, 0#8, 0#8, 0#8, 0#8, s.dec.pay⟩
      diagOut := s.diagOut ++ [.terminatorMismatch .lf b]
      returns := s.returns ++ [⟨.poll, .event (some (.diag (.terminatorMismatch .lf b)))⟩] })

/-- R169 and R34 (decision D7): the initial state, silently; `dec.pay` is left as it is. -/
def Obligations.DecResetIsSilent : Prop :=
  ∀ s : State, exec .decReset s = .next { s with dec := ⟨.sync1, 0#8, 0#8, 0#8, 0#8, s.dec.pay⟩ }

/-- R106 and R178: each of the sixteen rows, where it is selected, completes and is the arm DEC.STEP of its byte takes. -/
def Obligations.SelectedRowIsTheArmOfDecStep : Prop :=
  ∀ (i : Instr) (b : Byte) (s : State), rowByte i = some b → rowSelected s.dec i = true → s.dec.sound →
    ∃ t, exec i s = .next t ∧ exec (.decStep b) s = .next t

/-- R160 and R178: for a decoder of R35 and any byte exactly one row is selected. -/
def Obligations.ExactlyOneRowIsSelected : Prop :=
  ∀ (d : Dec) (b : Byte), d.sound → ∃ i, (rowByte i = some b ∧ rowSelected d i = true) ∧
    ∀ j, rowByte j = some b → rowSelected d j = true → j = i

/-- The model's choice (log 3): a row that is not the decoder's arm stops under its own name. -/
def Obligations.UnselectedRowIsRefused : Prop :=
  ∀ (i : Instr) (b : Byte) (s : State), rowByte i = some b → rowSelected s.dec i = false →
    exec i s = .refused .rowNotSelected

/-- R171: at most one event a byte; only LF completes a packet; Sync1, Type and Data never produce an event. -/
def Obligations.AtMostOneEventPerByte : Prop :=
  ∀ (b : Byte) (s t : State), exec (.decStep b) s = .next t →
    (t.pktOut = s.pktOut ∧ t.diagOut = s.diagOut ∧ t.returns = s.returns ++ [⟨.poll, .event none⟩]) ∨
    (∃ p, s.dec.st = .lf ∧ t.pktOut = s.pktOut ++ [p] ∧ t.diagOut = s.diagOut ∧
      t.returns = s.returns ++ [⟨.poll, .event (some (.packet p))⟩]) ∨
    (∃ d, s.dec.st ≠ .sync1 ∧ s.dec.st ≠ .type ∧ s.dec.st ≠ .data ∧
      t.pktOut = s.pktOut ∧ t.diagOut = s.diagOut ++ [d] ∧
      t.returns = s.returns ++ [⟨.poll, .event (some (.diag d))⟩])

/-- R250 (what ParserReset zeroes is decision D7): a DEC.STEP whose event is a diagnostic raises a frame-level error, code 1 to
4, whose operands are those of the decoder before it; the decoder is reset, and nothing else changes. -/
def Obligations.FrameLevelErrorResetsTheParser : Prop :=
  ∀ (b : Byte) (s t : State) (d : Diag), exec (.decStep b) s = .next t →
    t.returns = s.returns ++ [⟨.poll, .event (some (.diag d))⟩] →
    1 ≤ d.code ∧ d.code ≤ 4 ∧
    (d = .framingError b ∨ d = .oversizedPacket b ∨ d = .checksumMismatch s.dec.csum b ∨
      d = .terminatorMismatch .cr b ∨ d = .terminatorMismatch .lf b) ∧
    t.diagOut = s.diagOut ++ [d] ∧ t.dec = ⟨.sync1, 0#8, 0#8, 0#8, 0#8, s.dec.pay⟩ ∧
    OnlyChanges [.dec, .diagOut, .returns] s t

/-- R145: from the initial decoder state, feeding the frame ENCODE builds gives exactly one event, the packet, and leaves the
decoder in its initial state. -/
def Obligations.DecodeOfEncodeIsThePacket : Prop :=
  ∀ (ptype len : Byte) (payload : List Byte) (s : State), len.toNat ≤ 223 → payload.length = len.toNat →
    s.dec.initial →
    ∃ frame t, encodedFrame ptype len payload = some frame ∧
      feed frame s = .ok ([.packet ⟨ptype, payload⟩], t) ∧ t.dec.initial ∧
      t.pktOut = s.pktOut ++ [⟨ptype, payload⟩] ∧ OnlyChanges [.dec, .pktOut] s t

/-- R173: one payload bit flipped on the wire gives exactly one event, a ChecksumMismatch, and no packet. That
its `actual` operand is the byte transmitted is R166 with decision D19 (log 18). -/
def Obligations.FlippedPayloadBitIsDetected : Prop :=
  ∀ (ptype : Byte) (payload : List Byte) (j k : Nat) (b : Byte) (s : State), payload.length ≤ 223 →
    payload[j]? = some b → k < 8 → s.dec.initial →
    ∃ c t, feed (0x24#8 :: 0x24#8 :: ptype :: BitVec.ofNat 8 payload.length ::
        (payload.set j (b ^^^ (1#8 <<< k)) ++ [payload.foldl (· ^^^ ·) 0#8, 0x0D#8, 0x0A#8])) s =
      .ok ([.diag (.checksumMismatch c (payload.foldl (· ^^^ ·) 0#8))], t) ∧
      t.dec.initial ∧ t.pktOut = s.pktOut ∧ OnlyChanges [.dec, .diagOut] s t

/-- R175, the row of the missing CR, after garbage without a marker: TerminatorMismatch, then the whole next frame. -/
def Obligations.FrameAfterMissingCrIsDecoded : Prop :=
  ∀ (garbage : List Byte) (p q : Packet) (s : State), (∀ g ∈ garbage, g ≠ 0x24#8) →
    p.payload.length ≤ 223 → q.payload.length ≤ 223 → s.dec.initial →
    ∃ t, feed (garbage ++ (wireFrame p.ptype p.payload).eraseIdx (5 + p.payload.length) ++
        wireFrame q.ptype q.payload) s =
      .ok ([.diag (.terminatorMismatch .cr 0x0A#8), .packet q], t) ∧ t.dec.initial ∧ t.pktOut = s.pktOut ++ [q]

/-- R175, the row of the missing LF, and R170: the next frame's first marker is consumed as the failing byte, its second one
and its type end in a FramingError, and nothing is decoded, when the rest of that frame holds no marker. -/
def Obligations.FrameAfterMissingLfIsLost : Prop :=
  ∀ (p q : Packet) (s : State), p.payload.length ≤ 223 → q.payload.length ≤ 223 → q.ptype ≠ 0x24#8 →
    (∀ x ∈ (wireFrame q.ptype q.payload).drop 3, x ≠ 0x24#8) → s.dec.initial →
    ∃ t, feed ((wireFrame p.ptype p.payload).eraseIdx (6 + p.payload.length) ++ wireFrame q.ptype q.payload) s =
      .ok ([.diag (.terminatorMismatch .lf 0x24#8), .diag (.framingError q.ptype)], t) ∧
      t.dec.initial ∧ t.pktOut = s.pktOut

/-! ## Dispatcher and unassigned codes -/

/-- R221 and R222 (decisions D17, D18): a Speed packet of four bytes makes one `set_speeds` call with the little-endian values,
each at most 10000; one of another length writes one diagnostic; nothing else changes. -/
def Obligations.SpeedPacketIsClampedOrReported : Prop :=
  (∀ (a b c d : Byte) (s : State), ∃ left right : Half,
    left.toNat = min (a.toNat + 256 * b.toNat) 10000 ∧ right.toNat = min (c.toNat + 256 * d.toNat) 10000 ∧
    exec (.dispatch ⟨0x53#8, [a, b, c, d]⟩) s = .next { s with motorOut := s.motorOut ++ [⟨left, right⟩] }) ∧
  (∀ (payload : List Byte) (s : State), payload.length ≠ 4 →
    exec (.dispatch ⟨0x53#8, payload⟩) s =
      .next { s with diagOut := s.diagOut ++ [.speedLengthInvalid payload.length] })

/-- R223, R224 and R225 (that 201 to 223 bytes are forwarded whole is decision D16, log 18; the Message type's number is log 17):
the text goes whole to the telemetry sink and to the local diagnostics;
any type but the two is reported and discarded. -/
def Obligations.MessageIsForwardedUnknownIsReported : Prop :=
  (∀ (payload : List Byte) (s : State),
    exec (.dispatch ⟨0x4D#8, payload⟩) s = .next { s with
      telemOut := s.telemOut ++ [payload], diagOut := s.diagOut ++ [.messageText payload] }) ∧
  (∀ (p : Packet) (s : State), p.ptype ≠ 0x53#8 → p.ptype ≠ 0x4D#8 →
    exec (.dispatch p) s = .next { s with diagOut := s.diagOut ++ [.unknownPacketType p.ptype] })

/-- R104 (decision D3): every unassigned code returns `BadOp` and changes no state. That the code is a whole request byte is
log 1, and the port of the answer log 19: both the model's choice. -/
def Obligations.UnassignedCodeReturnsBadOp : Prop :=
  ∀ (code : BitVec 5) (s : State), 0x11 ≤ code.toNat →
    decode [code.setWidth 8] = .ok (.badOp code, []) ∧
    exec (.badOp code) s = .next { s with returns := s.returns ++ [⟨.status, .badOp⟩] }

/-! ## Transport -/

/-- R191 (decision D14): a received byte enters `in`, or is lost when `in` holds 255; nothing else changes and no diagnostic is
written (R277). -/
def Obligations.ReceivedByteEntersInOrIsLost : Prop :=
  ∀ (b : Byte) (s : State) (old : List Byte), s.alive = true → s.inR.holds old →
    (old.length = 255 → exec (.rxByte b) s = .next { s with returns := s.returns ++ [⟨.rx, .full⟩] }) ∧
    (old.length < 255 → ∃ t, exec (.rxByte b) s = .next t ∧ t.inR.holds (old ++ [b]) ∧
      t.inR.rd = s.inR.rd ∧ t.inR.wr = s.inR.wr + 1#8 ∧
      t.returns = s.returns ++ [⟨.rx, .ok⟩] ∧ OnlyChanges [.inRing, .returns] s t)

/-- R192, R193 and R37 (decision D23): POLL1 and POLLALL, run whole (log 6) from a sound state with any bytes in `in`, whole frames,
parts of frames or damaged ones, and the decoder anywhere inside a frame, complete and go on from where the decoder stands. POLLALL
does what FEED of all the bytes does, with every packet dispatched. POLL1 does the same if they complete no packet, and returns
`None`; else it stops at the first byte that completes one, which it dispatches and returns, with exactly the bytes behind it
still in `in`. -/
def Obligations.PollCallsComplete : Prop :=
  ∀ (bs : List Byte) (s : State), s.sound → s.alive = true → s.poll = none → s.cfg.grain = .call → s.inR.holds bs →
    (∃ t es u, exec .pollAll s = .next t ∧ feed bs s = .ok (es, u) ∧
      OnlyChanges [.inRing, .dec, .pktOut, .motorOut, .telemOut, .diagOut, .returns] s t ∧
      t.inR.holds [] ∧ t.inR.wr = s.inR.wr ∧ t.dec = u.dec ∧ t.pktOut = s.pktOut ++ packetsOf es ∧ ShowsEvents es s t ∧
      t.returns = s.returns ++ [⟨.poll, .packets (packetsOf es)⟩]) ∧
    (∃ t, exec .poll1 s = .next t ∧
      OnlyChanges [.inRing, .dec, .pktOut, .motorOut, .telemOut, .diagOut, .returns] s t ∧ t.inR.wr = s.inR.wr ∧
      ((∃ es u, feed bs s = .ok (es, u) ∧ packetsOf es = [] ∧ t.inR.holds [] ∧ t.dec = u.dec ∧ t.pktOut = s.pktOut ∧
          ShowsEvents es s t ∧ t.returns = s.returns ++ [⟨.poll, .absent⟩]) ∨
       (∃ taken b rest es u v q, bs = taken ++ b :: rest ∧ feed taken s = .ok (es, u) ∧ packetsOf es = [] ∧
          stepDecoder b u = .ok (some (.packet q), v) ∧ t.inR.holds rest ∧ t.dec = v.dec ∧ t.pktOut = s.pktOut ++ [q] ∧
          ShowsEvents (es ++ [.packet q]) s t ∧ t.returns = s.returns ++ [⟨.poll, .packet q⟩])))

/-- R192 (b): with a whole frame at the front of `in`, POLL1 returns its packet, dispatches it, and leaves the bytes behind it
queued. -/
def Obligations.Poll1TakesOnePacketAndStops : Prop :=
  ∀ (p : Packet) (rest : List Byte) (s : State), p.payload.length ≤ 223 → s.alive = true → s.poll = none →
    s.cfg.grain = .call → s.dec.initial → s.inR.holds (wireFrame p.ptype p.payload ++ rest) →
    ∃ t, exec .poll1 s = .next t ∧ t.inR.holds rest ∧ t.dec.initial ∧ t.pktOut = s.pktOut ++ [p] ∧
      ShowsDispatch [p] s t ∧ t.returns = s.returns ++ [⟨.poll, .packet p⟩] ∧
      OnlyChanges [.inRing, .dec, .pktOut, .motorOut, .telemOut, .diagOut, .returns] s t

/-- R193: with any number of whole frames in `in`, one POLLALL returns and dispatches them all, in order. -/
def Obligations.PollAllTakesEveryPacket : Prop :=
  ∀ (ps : List Packet) (s : State), (∀ p ∈ ps, p.payload.length ≤ 223) → s.alive = true → s.poll = none →
    s.cfg.grain = .call → s.dec.initial →
    s.inR.holds (ps.map fun p => wireFrame p.ptype p.payload).flatten →
    ∃ t, exec .pollAll s = .next t ∧ t.inR.holds [] ∧ t.dec.initial ∧ t.pktOut = s.pktOut ++ ps ∧
      ShowsDispatch ps s t ∧ t.returns = s.returns ++ [⟨.poll, .packets ps⟩] ∧
      OnlyChanges [.inRing, .dec, .pktOut, .motorOut, .telemOut, .diagOut, .returns] s t

/-- R12 and R69 (log 6): an operation of the polling or the enqueuing agent that runs whole is what its primitive steps do,
one a turn, when no other agent's turn falls between them, whichever agents share a thread (log 7). -/
def Obligations.WholeCallIsItsPrimitiveSteps : Prop :=
  ∀ (i : Instr) (s t : State), i.wf = true → (home i = .poll ∨ home i = .cmd) → s.cfg.grain = .call →
    s.poll = none → s.enq.busy = false → s.ports.get (home i) = encode i →
    exec i (s.setPort (home i) []) = .next t →
    ∃ n, steps n { s with cfg := { s.cfg with grain := .primitive }, sched := List.replicate n (.agent (home i)) } =
      .next { t with cfg := { s.cfg with grain := .primitive }, sched := [] }

/-- R197: TX.BYTE moves the oldest byte of `out` to the wire; with none, `None` and nothing sent. -/
def Obligations.TxByteSendsTheOldestByte : Prop :=
  ∀ (s : State), s.alive = true →
    (s.outR.holds [] → exec .txByte s = .next { s with returns := s.returns ++ [⟨.tx, .absent⟩] }) ∧
    (∀ v rest, s.outR.holds (v :: rest) → ∃ t, exec .txByte s = .next t ∧ t.outR.holds rest ∧
      t.outR.rd = s.outR.rd + 1#8 ∧ t.outR.wr = s.outR.wr ∧
      t.wireOut = s.wireOut ++ [v] ∧ t.returns = s.returns ++ [⟨.tx, .byte v⟩] ∧
      OnlyChanges [.outRing, .wireOut, .returns] s t)

/-- R198 (decision D24): TX.FLUSH moves every byte of `out` to the wire, in order. -/
def Obligations.TxFlushSendsEverything : Prop :=
  ∀ (s : State) (bs : List Byte), s.alive = true → s.outR.holds bs →
    ∃ t, exec .txFlush s = .next t ∧ t.outR.holds [] ∧ t.outR.rd = s.outR.wr ∧ t.outR.wr = s.outR.wr ∧
      t.wireOut = s.wireOut ++ bs ∧ t.returns = s.returns ++ [⟨.tx, .bytes bs⟩] ∧
      OnlyChanges [.outRing, .wireOut, .returns] s t

/-- R199 and R246 (decision D22): the first IO.FAIL clears `alive` and writes one diagnostic; a second does nothing. On the
constrained device it is never issued (R203): a step that would issue it stops there, which is the model's choice (log 7). -/
def Obligations.IoFailKillsTheTransportOnce : Prop :=
  (∀ s : State,
    (s.alive = true → exec .ioFail s = .next { s with alive := false, diagOut := s.diagOut ++ [.transportIoError] }) ∧
    (s.alive = false → exec .ioFail s = .next s)) ∧
  (∀ (s : State) (ts : List Turn) (rest : List Byte), s.sched = .agent .fault :: ts → s.cfg.threads = .device →
    decode (s.ports.get .fault) = .ok (.ioFail, rest) → step s = .refused .hostOnly)

/-- R200: ALIVE returns `alive`, writes nothing, and any agent may issue it. -/
def Obligations.AliveReadsLiveness : Prop :=
  ∀ (s : State) (a : Agent), (mayIssue a .alive = true ∧ variantAdmits s.cfg.threads .alive = true) ∧
    exec .alive s = .next { s with returns := s.returns ++ [⟨.status, .liveness s.alive⟩] }

/-- R201 (decision D22): with `alive` 0 the eight transport operations return `Dead` and change nothing. -/
def Obligations.DeadTransportRefusesEverything : Prop :=
  ∀ (b ptype len : Byte) (payload text : List Byte) (left right : Half) (n : Nat) (s : State), s.alive = false →
    exec (.rxByte b) s = .next { s with returns := s.returns ++ [⟨.rx, .dead⟩] } ∧
    exec .poll1 s = .next { s with returns := s.returns ++ [⟨.poll, .dead⟩] } ∧
    exec .pollAll s = .next { s with returns := s.returns ++ [⟨.poll, .dead⟩] } ∧
    exec (.enqueue ptype len payload) s = .next { s with returns := s.returns ++ [⟨.cmd, .dead⟩] } ∧
    exec (.sendSpeed left right) s = .next { s with returns := s.returns ++ [⟨.cmd, .dead⟩] } ∧
    exec (.sendMessage n text) s = .next { s with returns := s.returns ++ [⟨.cmd, .dead⟩] } ∧
    exec .txByte s = .next { s with returns := s.returns ++ [⟨.tx, .dead⟩] } ∧
    exec .txFlush s = .next { s with returns := s.returns ++ [⟨.tx, .dead⟩] }

/-- R196 and U5 (the refusal is the model's choice, log 13): an agent with a call in progress begins no other. -/
def Obligations.SecondCallOfOneAgentIsRefused : Prop :=
  (∀ (ptype len : Byte) (rest : List Byte) (s : State), s.poll.isSome = true →
    exec (.frameSpeed len rest) s = .refused .callInProgress ∧ exec (.frameMessage len rest) s = .refused .callInProgress ∧
    exec (.frameUnknown ptype len rest) s = .refused .callInProgress ∧
    (s.alive = true → exec .poll1 s = .refused .callInProgress ∧ exec .pollAll s = .refused .callInProgress)) ∧
  (∀ (ptype len : Byte) (payload text : List Byte) (left right : Half) (n : Nat) (s : State),
    s.enq.busy = true → s.alive = true →
    exec (.enqueue ptype len payload) s = .refused .callInProgress ∧
    exec (.sendSpeed left right) s = .refused .callInProgress ∧
    exec (.sendMessage n text) s = .refused .callInProgress)

/-! ## Frame rows and whole paths -/

/-- R98, R99, R100 with R145 and R220 (log 4): a whole frame of any type, given to an initial decoder, is decoded to its packet
and dispatched: the motor for a Speed packet of four bytes, the sinks for a Message, a diagnostic for the rest. -/
def Obligations.FrameRowIsDecodedAndDispatched : Prop :=
  ∀ (p : Packet) (s : State), p.payload.length ≤ 223 → s.dec.initial → s.poll = none → s.cfg.grain = .call →
    ∃ t, exec (frameRow p) s = .next t ∧ t.dec.initial ∧ t.pktOut = s.pktOut ++ [p] ∧ ShowsDispatch [p] s t ∧
      t.returns = s.returns ++ [⟨.poll, .packets [p]⟩] ∧
      OnlyChanges [.dec, .pktOut, .motorOut, .telemOut, .diagOut, .returns] s t

/-- R106, R108 and R101 (log 4): a frame row with any length byte and any bytes behind the header, right or wrong, does what FEED
of its bytes does, with every packet dispatched, and returns the packets completed. -/
def Obligations.FrameRowFeedsItsBytes : Prop :=
  ∀ (ptype len : Byte) (rest : List Byte) (s : State), s.sound → s.poll = none → s.cfg.grain = .call →
    ∃ es u, feed (0x24#8 :: 0x24#8 :: ptype :: len :: rest) s = .ok (es, u) ∧
      ∀ i, (ptype = 0x53#8 ∧ i = .frameSpeed len rest ∨ ptype = 0x4D#8 ∧ i = .frameMessage len rest ∨
          i = .frameUnknown ptype len rest) →
        ∃ t, exec i s = .next t ∧ t.dec = u.dec ∧ t.pktOut = u.pktOut ∧ t.pktOut = s.pktOut ++ packetsOf es ∧
          ShowsEvents es s t ∧ t.returns = s.returns ++ [⟨.poll, .packets (packetsOf es)⟩] ∧
          OnlyChanges [.dec, .pktOut, .motorOut, .telemOut, .diagOut, .returns] s t

/-- R146 and program P1 for every pair of speeds (decision D17 for the clamp): what SEND_SPEED and TX.FLUSH put on one block's
wire, received and polled by another, drives its motor once with each value clamped to 10000. -/
def Obligations.SpeedCommandReachesTheMotor : Prop :=
  ∀ (left right : Half) (x y : State), x.alive = true → x.enq.busy = false → x.cfg.grain = .call → x.outR.holds [] →
    y.alive = true → y.poll = none → y.cfg.grain = .call → y.inR.holds [] → y.dec.initial →
    ∃ x' wire y', runOps [.sendSpeed left right, .txFlush] x = .next x' ∧ x'.wireOut = x.wireOut ++ wire ∧
      wire.length = 11 ∧ runOps (wire.map .rxByte ++ [.poll1]) y = .next y' ∧
      y'.motorOut = y.motorOut ++
        [⟨BitVec.ofNat 16 (min left.toNat 10000), BitVec.ofNat 16 (min right.toNat 10000)⟩] ∧
      y'.diagOut = y.diagOut ∧ y'.telemOut = y.telemOut

/-- W3 and R144 (decision D16) end to end: a message of any length reaches the other side's telemetry as its first 200 bytes. -/
def Obligations.MessageArrivesTruncatedTo200 : Prop :=
  ∀ (text : List Byte) (x y : State), x.alive = true → x.enq.busy = false → x.cfg.grain = .call → x.outR.holds [] →
    y.alive = true → y.poll = none → y.cfg.grain = .call → y.inR.holds [] → y.dec.initial →
    ∃ x' wire y', runOps [.sendMessage text.length text, .txFlush] x = .next x' ∧ x'.wireOut = x.wireOut ++ wire ∧
      runOps (wire.map .rxByte ++ [.pollAll]) y = .next y' ∧
      y'.telemOut = y.telemOut ++ [text.take 200] ∧ y'.diagOut = y.diagOut ++ [.messageText (text.take 200)] ∧
      y'.motorOut = y.motorOut

/-! ## The whole machine -/

/-- R47 and R272 (decisions D1, D2, D5, D7, D13, D22; log 5, 6, 7, 10, 11, 12): the state after reset, which is sound and idle: no
request waits, no turn is scheduled, and a step changes nothing. -/
def Obligations.ResetStateIsSound : Prop :=
  State.reset.sound ∧ State.reset.inR.holds [] ∧ State.reset.outR.holds [] ∧ State.reset.dec.initial ∧
  State.reset.alive = true ∧ State.reset.enq.busy = false ∧ State.reset.poll = none ∧
  State.reset.wireOut = [] ∧ State.reset.pktOut = [] ∧ State.reset.motorOut = [] ∧ State.reset.telemOut = [] ∧
  State.reset.diagOut = [] ∧ State.reset.cfg.policy = .spin ∧
  State.reset.sched = [] ∧ (∀ a, State.reset.ports.get a = []) ∧ step State.reset = .next State.reset

/-- R25, R35, R41 and the stores' canonical form: every step keeps a sound state sound. -/
def Obligations.EveryStepKeepsStateSound : Prop :=
  ∀ s t : State, s.sound → step s = .next t → t.sound

/-- R65: in a sound state no step faults: every access is to a slot that exists and holds a value. -/
def Obligations.SoundStateNeverFaults : Prop :=
  ∀ (s : State) (f : Fault), s.sound → step s ≠ .fault f

/-- The model's choice (log 9, after R65, R271 and U1), in states no run reaches: a byte that nothing has written cannot be read, and
no payload byte lies past index 222. -/
def Obligations.BytesWithoutValueFault : Prop :=
  (∀ (r : RingSel) (s : State), (s.ring r).wr ≠ (s.ring r).rd → Memory.get (s.ring r).buf (s.ring r).rd.toNat = none →
    exec (.rbPop r) s = .fault .slotWithoutValue) ∧
  (∀ (b : Byte) (s : State), s.dec.st = .data → 223 ≤ s.dec.cnt.toNat → exec (.decStep b) s = .fault .payloadIndex) ∧
  (∀ (k : Nat) (s : State), s.dec.st = .lf → k < s.dec.plen.toNat → Memory.get s.dec.pay k = none →
    exec (.decStep 0x0A#8) s = .fault .payloadWithoutValue)

/-- R43: no step but the reset event shortens or rewrites an output history. -/
def Obligations.OutputHistoriesOnlyGrow : Prop :=
  ∀ s t : State, step s = .next t → (∀ ts, s.sched ≠ .reset :: ts) → s.historiesGrow t

/-- R24 and R79: with one primitive step a turn (log 6), no step but the reset event moves a read cursor of either ring past the
bytes it may consume, or a write cursor past the slots it may fill; and every cursor but `out.rd`, which TX.FLUSH advances by
several pops in one step (R198), advances by at most one. -/
def Obligations.CursorsOnlyAdvance : Prop :=
  ∀ s t : State, step s = .next t → s.cfg.grain = .primitive → (∀ ts, s.sched ≠ .reset :: ts) →
    (∀ r, ((t.ring r).rd - (s.ring r).rd).toNat ≤ (s.ring r).count.toNat ∧
      ((t.ring r).wr - (s.ring r).wr).toNat ≤ (s.ring r).free ∧
      ((t.ring r).wr = (s.ring r).wr ∨ (t.ring r).wr = (s.ring r).wr + 1#8)) ∧
    (t.inR.rd = s.inR.rd ∨ t.inR.rd = s.inR.rd + 1#8)

/-- R38 and R201: once `alive` is 0, no step but the reset event sets it. R199, R203 and R246: on the constrained device no step but
the reset event changes it (log 7). -/
def Obligations.DeadStaysDead : Prop :=
  ∀ s t : State, step s = .next t → (∀ ts, s.sched ≠ .reset :: ts) →
    (s.alive = false → t.alive = false) ∧ (s.cfg.threads = .device → t.alive = s.alive)

/-- R73, R37 and R127: an operation touches only its agent's side of the block. -/
def Obligations.OperationsKeepToTheirAgent : Prop :=
  ∀ (i : Instr) (s t : State), exec i s = .next t →
    (home i = .rx → OnlyChanges [.inRing, .returns] s t) ∧
    (home i = .poll → OnlyChanges [.inRing, .dec, .poll, .pktOut, .motorOut, .telemOut, .diagOut, .returns] s t) ∧
    (home i = .cmd → OnlyChanges [.outRing, .enq, .returns] s t) ∧
    (home i = .tx → OnlyChanges [.outRing, .wireOut, .returns] s t) ∧
    (home i = .fault → OnlyChanges [.alive, .diagOut] s t) ∧
    (home i = .status → OnlyChanges [.returns] s t)

/-- R270 (decision D5; what stays is log 15): the reset event. -/
def Obligations.ResetEventRestoresEverything : Prop :=
  ∀ (s : State) (ts : List Turn), s.sched = .reset :: ts →
    step s = .next { State.reset with ports := s.ports, sched := ts, cfg := s.cfg }

/-- The step runs the decoded operation (log 5): when it is an agent's turn, its thread is free, it has no call in progress and
the bytes on its port decode to a well-formed operation that it may issue and its variant admits (log 7), the step is exec of that
operation, the request taken off the port and the turn off the schedule. -/
def Obligations.StepRunsTheDecodedOperation : Prop :=
  ∀ (s : State) (a : Agent) (ts : List Turn) (i : Instr) (rest : List Byte),
    s.sched = .agent a :: ts → threadBusy a s = false → (a = .poll → s.poll = none) →
    (a = .cmd → s.enq.busy = false) → decode (s.ports.get a) = .ok (i, rest) → mayIssue a i = true →
    variantAdmits s.cfg.threads i = true → i.wf = true →
    step s = exec i ((s.setSched ts).setPort a rest)

/-- R203 and R276 (log 7): on the device an ENQUEUE in progress is the main loop, so the polling agent's turns do nothing and `in`
is not drained. -/
def Obligations.SpinningEnqueueBlocksThePoll : Prop :=
  ∀ (s : State) (ts : List Turn), s.sched = .agent .poll :: ts → s.cfg.threads = .device → s.enq.busy = true →
    step s = .next { s with sched := ts }

/-- Every well-formed operation and row survives encoding and decoding, with any bytes behind it (log 1, 2, 3: the request
layout is the model's; R90, R103). -/
def Obligations.DecodeOfEncodedRequestIsTheRequest : Prop :=
  ∀ (i : Instr) (rest : List Byte), i.wf = true → decode (encode i ++ rest) = .ok (i, rest)

/-- A few words written out from R103, R105, R106 and the worked frame of R146. -/
def Obligations.WrittenOutWordsDecode : Prop :=
  decode [0x00#8, 0x01#8, 0x24#8] = .ok (.rbPush .out 0x24#8, []) ∧
  decode [0x10#8] = .ok (.alive, []) ∧ decode [0x11#8] = .ok (.badOp 0x11#5, []) ∧
  decode [0x0B#8, 0x88#8, 0x13#8, 0x10#8, 0x27#8] = .ok (.sendSpeed 5000#16 10000#16, []) ∧
  decode [0x24#8, 0x24#8, 0x53#8, 0x04#8, 0x88#8, 0x13#8, 0x10#8, 0x27#8, 0xAC#8, 0x0D#8, 0x0A#8] =
    .ok (.frameSpeed 4#8 [0x88#8, 0x13#8, 0x10#8, 0x27#8, 0xAC#8, 0x0D#8, 0x0A#8], [])
end

