-- ==== Sys2Proof/Laws/Memory.lean ====
section
/-! SUPPORT. Laws of a byte store: read after write, and that a write keeps the canonical form. -/

namespace Sys2Proof.Machine

@[simp] theorem get_set_same (m : Memory) (a : Nat) (v : Byte) : Memory.get (Memory.set m a v) a = some v := by
  induction m with
  | nil => simp [Memory.set, Memory.get]
  | cons c t ih =>
    obtain ⟨k, w⟩ := c
    by_cases h1 : a < k
    · simp [Memory.set, Memory.get, h1]
    · by_cases h2 : a = k
      · simp [Memory.set, Memory.get, h2]
      · simp [Memory.set, Memory.get, h1, h2, Ne.symm h2, ih]

theorem get_set_ne (m : Memory) (a b : Nat) (v : Byte) (h : b ≠ a) :
    Memory.get (Memory.set m a v) b = Memory.get m b := by
  induction m with
  | nil => simp [Memory.set, Memory.get, h.symm]
  | cons c t ih =>
    obtain ⟨k, w⟩ := c
    by_cases h1 : a < k
    · simp [Memory.set, Memory.get, h1, h.symm]
    · by_cases h2 : a = k
      · subst h2; simp [Memory.set, Memory.get, h.symm]
      · simp [Memory.set, Memory.get, h1, h2, ih]

theorem mem_set (m : Memory) (a : Nat) (v : Byte) (c : Host.Cell) (h : c ∈ Memory.set m a v) :
    c = (a, v) ∨ c ∈ m := by
  induction m with
  | nil => simpa [Memory.set] using h
  | cons d t ih =>
    obtain ⟨k, w⟩ := d
    by_cases h1 : a < k
    · simpa [Memory.set, h1] using h
    · by_cases h2 : a = k
      · simp only [Memory.set, h2, lt_irrefl, if_false, if_true, List.mem_cons] at h ⊢
        rcases h with h | h
        · exact .inl h
        · exact .inr (.inr h)
      · simp only [Memory.set, h1, h2, if_false, List.mem_cons] at h ⊢
        rcases h with h | h
        · exact .inr (.inl h)
        · rcases ih h with h | h
          · exact .inl h
          · exact .inr (.inr h)

/-- A write keeps the canonical form. -/
theorem set_wf (m : Memory) (a : Nat) (v : Byte) (h : Memory.wf m) : Memory.wf (Memory.set m a v) := by
  induction m with
  | nil => simp [Memory.set, Memory.wf]
  | cons d t ih =>
    obtain ⟨k, w⟩ := d
    simp only [Memory.wf, List.map_cons, List.pairwise_cons] at h ih
    obtain ⟨hk, ht⟩ := h
    by_cases h1 : a < k
    · simp only [Memory.set, h1, if_true, Memory.wf, List.map_cons, List.pairwise_cons]
      refine ⟨?_, hk, ht⟩
      intro x hx
      rcases List.mem_cons.mp hx with rfl | hx
      · exact h1
      · exact lt_trans h1 (hk x hx)
    · by_cases h2 : a = k
      · subst h2
        simp only [Memory.set, lt_irrefl, if_false, if_true, Memory.wf, List.map_cons, List.pairwise_cons]
        exact ⟨hk, ht⟩
      · simp only [Memory.set, h1, h2, if_false, Memory.wf, List.map_cons, List.pairwise_cons]
        refine ⟨?_, ih ht⟩
        intro x hx
        obtain ⟨c, hc, rfl⟩ := List.mem_map.mp hx
        rcases mem_set t a v c hc with rfl | hc
        · exact lt_of_le_of_ne (not_lt.mp h1) (Ne.symm h2)
        · exact hk c.1 (List.mem_map_of_mem hc)

theorem set_within (m : Memory) (a : Nat) (v : Byte) (size : Nat) (h : Memory.within m size) (ha : a < size) :
    Memory.within (Memory.set m a v) size :=
  ⟨set_wf m a v h.1, fun c hc => (mem_set m a v c hc).elim (fun e => e ▸ ha) (h.2 c)⟩

/-- A write outside the range read leaves what is read. -/
theorem read_set_outside (m : Memory) (a : Nat) (v : Byte) (n : Nat) :
    ∀ i, (a < i ∨ i + n ≤ a) → Memory.read (Memory.set m a v) i n = Memory.read m i n := by
  induction n with
  | zero => intro i _; rfl
  | succ n ih =>
    intro i h
    simp only [Memory.read]
    rw [get_set_ne m a i v (by omega), ih (i + 1) (by omega)]

/-- One more byte: what was read, and the byte after it. -/
theorem read_succ (m : Memory) (n : Nat) :
    ∀ i bs b, Memory.read m i n = some bs → Memory.get m (i + n) = some b → Memory.read m i (n + 1) = some (bs ++ [b]) := by
  induction n with
  | zero =>
    intro i bs b h1 h2
    simp only [Memory.read, Option.some.injEq] at h1
    subst h1
    rw [Nat.add_zero] at h2
    simp [Memory.read, h2]
  | succ n ih =>
    intro i bs b h1 h2
    cases hg : Memory.get m i with
    | none => simp [Memory.read, hg] at h1
    | some w =>
      cases hr : Memory.read m (i + 1) n with
      | none => simp [Memory.read, hg, hr] at h1
      | some ws =>
        simp only [Memory.read, hg, hr, Option.some.injEq] at h1
        have := ih (i + 1) ws b hr (by rw [← h2]; congr 1; omega)
        rw [Memory.read, hg, this, ← h1]
        rfl

theorem read_length (m : Memory) (n : Nat) : ∀ i bs, Memory.read m i n = some bs → bs.length = n := by
  induction n with
  | zero => intro i bs h; simp only [Memory.read, Option.some.injEq] at h; simp [← h]
  | succ n ih =>
    intro i bs h
    cases hg : Memory.get m i with
    | none => simp [Memory.read, hg] at h
    | some w =>
      cases hr : Memory.read m (i + 1) n with
      | none => simp [Memory.read, hg, hr] at h
      | some ws =>
        simp only [Memory.read, hg, hr, Option.some.injEq] at h
        rw [← h, List.length_cons, ih (i + 1) ws hr]

theorem checksum_append (xs ys : List Byte) : checksum (xs ++ ys) = checksum xs ^^^ checksum ys := by
  induction xs with
  | nil => simp [checksum]
  | cons x xs ih => simp [checksum, ih, BitVec.xor_assoc]

theorem checksum_snoc (xs : List Byte) (b : Byte) : checksum (xs ++ [b]) = checksum xs ^^^ b := by
  simp [checksum_append, checksum]

end Sys2Proof.Machine
end

