-- ==== Sys2Proof/Laws/State.lean ====
section
/-! SUPPORT. One lemma per field per named update of State, each true by rfl, so that no later proof unfolds an update. -/

namespace Sys2Proof.Machine

variable (s : State)

/-! ## setDec -/

@[simp] theorem setDec_inR (d : Dec) : (s.setDec d).inR = s.inR := rfl
@[simp] theorem setDec_outR (d : Dec) : (s.setDec d).outR = s.outR := rfl
@[simp] theorem setDec_dec (d : Dec) : (s.setDec d).dec = d := rfl
@[simp] theorem setDec_alive (d : Dec) : (s.setDec d).alive = s.alive := rfl
@[simp] theorem setDec_enq (d : Dec) : (s.setDec d).enq = s.enq := rfl
@[simp] theorem setDec_poll (d : Dec) : (s.setDec d).poll = s.poll := rfl
@[simp] theorem setDec_wireOut (d : Dec) : (s.setDec d).wireOut = s.wireOut := rfl
@[simp] theorem setDec_pktOut (d : Dec) : (s.setDec d).pktOut = s.pktOut := rfl
@[simp] theorem setDec_motorOut (d : Dec) : (s.setDec d).motorOut = s.motorOut := rfl
@[simp] theorem setDec_telemOut (d : Dec) : (s.setDec d).telemOut = s.telemOut := rfl
@[simp] theorem setDec_diagOut (d : Dec) : (s.setDec d).diagOut = s.diagOut := rfl
@[simp] theorem setDec_returns (d : Dec) : (s.setDec d).returns = s.returns := rfl
@[simp] theorem setDec_ports (d : Dec) : (s.setDec d).ports = s.ports := rfl
@[simp] theorem setDec_sched (d : Dec) : (s.setDec d).sched = s.sched := rfl
@[simp] theorem setDec_cfg (d : Dec) : (s.setDec d).cfg = s.cfg := rfl
@[simp] theorem setDec_ring (d : Dec) (r : RingSel) : (s.setDec d).ring r = s.ring r := by cases r <;> rfl

/-! ## setAlive -/

@[simp] theorem setAlive_inR (b : Bool) : (s.setAlive b).inR = s.inR := rfl
@[simp] theorem setAlive_outR (b : Bool) : (s.setAlive b).outR = s.outR := rfl
@[simp] theorem setAlive_dec (b : Bool) : (s.setAlive b).dec = s.dec := rfl
@[simp] theorem setAlive_alive (b : Bool) : (s.setAlive b).alive = b := rfl
@[simp] theorem setAlive_enq (b : Bool) : (s.setAlive b).enq = s.enq := rfl
@[simp] theorem setAlive_poll (b : Bool) : (s.setAlive b).poll = s.poll := rfl
@[simp] theorem setAlive_wireOut (b : Bool) : (s.setAlive b).wireOut = s.wireOut := rfl
@[simp] theorem setAlive_pktOut (b : Bool) : (s.setAlive b).pktOut = s.pktOut := rfl
@[simp] theorem setAlive_motorOut (b : Bool) : (s.setAlive b).motorOut = s.motorOut := rfl
@[simp] theorem setAlive_telemOut (b : Bool) : (s.setAlive b).telemOut = s.telemOut := rfl
@[simp] theorem setAlive_diagOut (b : Bool) : (s.setAlive b).diagOut = s.diagOut := rfl
@[simp] theorem setAlive_returns (b : Bool) : (s.setAlive b).returns = s.returns := rfl
@[simp] theorem setAlive_ports (b : Bool) : (s.setAlive b).ports = s.ports := rfl
@[simp] theorem setAlive_sched (b : Bool) : (s.setAlive b).sched = s.sched := rfl
@[simp] theorem setAlive_cfg (b : Bool) : (s.setAlive b).cfg = s.cfg := rfl
@[simp] theorem setAlive_ring (b : Bool) (r : RingSel) : (s.setAlive b).ring r = s.ring r := by cases r <;> rfl

/-! ## setEnq -/

@[simp] theorem setEnq_inR (e : Enq) : (s.setEnq e).inR = s.inR := rfl
@[simp] theorem setEnq_outR (e : Enq) : (s.setEnq e).outR = s.outR := rfl
@[simp] theorem setEnq_dec (e : Enq) : (s.setEnq e).dec = s.dec := rfl
@[simp] theorem setEnq_alive (e : Enq) : (s.setEnq e).alive = s.alive := rfl
@[simp] theorem setEnq_enq (e : Enq) : (s.setEnq e).enq = e := rfl
@[simp] theorem setEnq_poll (e : Enq) : (s.setEnq e).poll = s.poll := rfl
@[simp] theorem setEnq_wireOut (e : Enq) : (s.setEnq e).wireOut = s.wireOut := rfl
@[simp] theorem setEnq_pktOut (e : Enq) : (s.setEnq e).pktOut = s.pktOut := rfl
@[simp] theorem setEnq_motorOut (e : Enq) : (s.setEnq e).motorOut = s.motorOut := rfl
@[simp] theorem setEnq_telemOut (e : Enq) : (s.setEnq e).telemOut = s.telemOut := rfl
@[simp] theorem setEnq_diagOut (e : Enq) : (s.setEnq e).diagOut = s.diagOut := rfl
@[simp] theorem setEnq_returns (e : Enq) : (s.setEnq e).returns = s.returns := rfl
@[simp] theorem setEnq_ports (e : Enq) : (s.setEnq e).ports = s.ports := rfl
@[simp] theorem setEnq_sched (e : Enq) : (s.setEnq e).sched = s.sched := rfl
@[simp] theorem setEnq_cfg (e : Enq) : (s.setEnq e).cfg = s.cfg := rfl
@[simp] theorem setEnq_ring (e : Enq) (r : RingSel) : (s.setEnq e).ring r = s.ring r := by cases r <;> rfl

/-! ## setPoll -/

@[simp] theorem setPoll_inR (c : Option PollCall) : (s.setPoll c).inR = s.inR := rfl
@[simp] theorem setPoll_outR (c : Option PollCall) : (s.setPoll c).outR = s.outR := rfl
@[simp] theorem setPoll_dec (c : Option PollCall) : (s.setPoll c).dec = s.dec := rfl
@[simp] theorem setPoll_alive (c : Option PollCall) : (s.setPoll c).alive = s.alive := rfl
@[simp] theorem setPoll_enq (c : Option PollCall) : (s.setPoll c).enq = s.enq := rfl
@[simp] theorem setPoll_poll (c : Option PollCall) : (s.setPoll c).poll = c := rfl
@[simp] theorem setPoll_wireOut (c : Option PollCall) : (s.setPoll c).wireOut = s.wireOut := rfl
@[simp] theorem setPoll_pktOut (c : Option PollCall) : (s.setPoll c).pktOut = s.pktOut := rfl
@[simp] theorem setPoll_motorOut (c : Option PollCall) : (s.setPoll c).motorOut = s.motorOut := rfl
@[simp] theorem setPoll_telemOut (c : Option PollCall) : (s.setPoll c).telemOut = s.telemOut := rfl
@[simp] theorem setPoll_diagOut (c : Option PollCall) : (s.setPoll c).diagOut = s.diagOut := rfl
@[simp] theorem setPoll_returns (c : Option PollCall) : (s.setPoll c).returns = s.returns := rfl
@[simp] theorem setPoll_ports (c : Option PollCall) : (s.setPoll c).ports = s.ports := rfl
@[simp] theorem setPoll_sched (c : Option PollCall) : (s.setPoll c).sched = s.sched := rfl
@[simp] theorem setPoll_cfg (c : Option PollCall) : (s.setPoll c).cfg = s.cfg := rfl
@[simp] theorem setPoll_ring (c : Option PollCall) (r : RingSel) : (s.setPoll c).ring r = s.ring r := by cases r <;> rfl

/-! ## setPort -/

@[simp] theorem setPort_inR (a : Agent) (l : List Byte) : (s.setPort a l).inR = s.inR := rfl
@[simp] theorem setPort_outR (a : Agent) (l : List Byte) : (s.setPort a l).outR = s.outR := rfl
@[simp] theorem setPort_dec (a : Agent) (l : List Byte) : (s.setPort a l).dec = s.dec := rfl
@[simp] theorem setPort_alive (a : Agent) (l : List Byte) : (s.setPort a l).alive = s.alive := rfl
@[simp] theorem setPort_enq (a : Agent) (l : List Byte) : (s.setPort a l).enq = s.enq := rfl
@[simp] theorem setPort_poll (a : Agent) (l : List Byte) : (s.setPort a l).poll = s.poll := rfl
@[simp] theorem setPort_wireOut (a : Agent) (l : List Byte) : (s.setPort a l).wireOut = s.wireOut := rfl
@[simp] theorem setPort_pktOut (a : Agent) (l : List Byte) : (s.setPort a l).pktOut = s.pktOut := rfl
@[simp] theorem setPort_motorOut (a : Agent) (l : List Byte) : (s.setPort a l).motorOut = s.motorOut := rfl
@[simp] theorem setPort_telemOut (a : Agent) (l : List Byte) : (s.setPort a l).telemOut = s.telemOut := rfl
@[simp] theorem setPort_diagOut (a : Agent) (l : List Byte) : (s.setPort a l).diagOut = s.diagOut := rfl
@[simp] theorem setPort_returns (a : Agent) (l : List Byte) : (s.setPort a l).returns = s.returns := rfl
@[simp] theorem setPort_ports (a : Agent) (l : List Byte) : (s.setPort a l).ports = s.ports.set a l := rfl
@[simp] theorem setPort_sched (a : Agent) (l : List Byte) : (s.setPort a l).sched = s.sched := rfl
@[simp] theorem setPort_cfg (a : Agent) (l : List Byte) : (s.setPort a l).cfg = s.cfg := rfl
@[simp] theorem setPort_ring (a : Agent) (l : List Byte) (r : RingSel) : (s.setPort a l).ring r = s.ring r := by cases r <;> rfl

/-! ## setSched -/

@[simp] theorem setSched_inR (ts : List Turn) : (s.setSched ts).inR = s.inR := rfl
@[simp] theorem setSched_outR (ts : List Turn) : (s.setSched ts).outR = s.outR := rfl
@[simp] theorem setSched_dec (ts : List Turn) : (s.setSched ts).dec = s.dec := rfl
@[simp] theorem setSched_alive (ts : List Turn) : (s.setSched ts).alive = s.alive := rfl
@[simp] theorem setSched_enq (ts : List Turn) : (s.setSched ts).enq = s.enq := rfl
@[simp] theorem setSched_poll (ts : List Turn) : (s.setSched ts).poll = s.poll := rfl
@[simp] theorem setSched_wireOut (ts : List Turn) : (s.setSched ts).wireOut = s.wireOut := rfl
@[simp] theorem setSched_pktOut (ts : List Turn) : (s.setSched ts).pktOut = s.pktOut := rfl
@[simp] theorem setSched_motorOut (ts : List Turn) : (s.setSched ts).motorOut = s.motorOut := rfl
@[simp] theorem setSched_telemOut (ts : List Turn) : (s.setSched ts).telemOut = s.telemOut := rfl
@[simp] theorem setSched_diagOut (ts : List Turn) : (s.setSched ts).diagOut = s.diagOut := rfl
@[simp] theorem setSched_returns (ts : List Turn) : (s.setSched ts).returns = s.returns := rfl
@[simp] theorem setSched_ports (ts : List Turn) : (s.setSched ts).ports = s.ports := rfl
@[simp] theorem setSched_sched (ts : List Turn) : (s.setSched ts).sched = ts := rfl
@[simp] theorem setSched_cfg (ts : List Turn) : (s.setSched ts).cfg = s.cfg := rfl
@[simp] theorem setSched_ring (ts : List Turn) (r : RingSel) : (s.setSched ts).ring r = s.ring r := by cases r <;> rfl

/-! ## emitWire -/

@[simp] theorem emitWire_inR (bs : List Byte) : (s.emitWire bs).inR = s.inR := rfl
@[simp] theorem emitWire_outR (bs : List Byte) : (s.emitWire bs).outR = s.outR := rfl
@[simp] theorem emitWire_dec (bs : List Byte) : (s.emitWire bs).dec = s.dec := rfl
@[simp] theorem emitWire_alive (bs : List Byte) : (s.emitWire bs).alive = s.alive := rfl
@[simp] theorem emitWire_enq (bs : List Byte) : (s.emitWire bs).enq = s.enq := rfl
@[simp] theorem emitWire_poll (bs : List Byte) : (s.emitWire bs).poll = s.poll := rfl
@[simp] theorem emitWire_wireOut (bs : List Byte) : (s.emitWire bs).wireOut = s.wireOut ++ bs := rfl
@[simp] theorem emitWire_pktOut (bs : List Byte) : (s.emitWire bs).pktOut = s.pktOut := rfl
@[simp] theorem emitWire_motorOut (bs : List Byte) : (s.emitWire bs).motorOut = s.motorOut := rfl
@[simp] theorem emitWire_telemOut (bs : List Byte) : (s.emitWire bs).telemOut = s.telemOut := rfl
@[simp] theorem emitWire_diagOut (bs : List Byte) : (s.emitWire bs).diagOut = s.diagOut := rfl
@[simp] theorem emitWire_returns (bs : List Byte) : (s.emitWire bs).returns = s.returns := rfl
@[simp] theorem emitWire_ports (bs : List Byte) : (s.emitWire bs).ports = s.ports := rfl
@[simp] theorem emitWire_sched (bs : List Byte) : (s.emitWire bs).sched = s.sched := rfl
@[simp] theorem emitWire_cfg (bs : List Byte) : (s.emitWire bs).cfg = s.cfg := rfl
@[simp] theorem emitWire_ring (bs : List Byte) (r : RingSel) : (s.emitWire bs).ring r = s.ring r := by cases r <;> rfl

/-! ## emitPacket -/

@[simp] theorem emitPacket_inR (p : Packet) : (s.emitPacket p).inR = s.inR := rfl
@[simp] theorem emitPacket_outR (p : Packet) : (s.emitPacket p).outR = s.outR := rfl
@[simp] theorem emitPacket_dec (p : Packet) : (s.emitPacket p).dec = s.dec := rfl
@[simp] theorem emitPacket_alive (p : Packet) : (s.emitPacket p).alive = s.alive := rfl
@[simp] theorem emitPacket_enq (p : Packet) : (s.emitPacket p).enq = s.enq := rfl
@[simp] theorem emitPacket_poll (p : Packet) : (s.emitPacket p).poll = s.poll := rfl
@[simp] theorem emitPacket_wireOut (p : Packet) : (s.emitPacket p).wireOut = s.wireOut := rfl
@[simp] theorem emitPacket_pktOut (p : Packet) : (s.emitPacket p).pktOut = s.pktOut ++ [p] := rfl
@[simp] theorem emitPacket_motorOut (p : Packet) : (s.emitPacket p).motorOut = s.motorOut := rfl
@[simp] theorem emitPacket_telemOut (p : Packet) : (s.emitPacket p).telemOut = s.telemOut := rfl
@[simp] theorem emitPacket_diagOut (p : Packet) : (s.emitPacket p).diagOut = s.diagOut := rfl
@[simp] theorem emitPacket_returns (p : Packet) : (s.emitPacket p).returns = s.returns := rfl
@[simp] theorem emitPacket_ports (p : Packet) : (s.emitPacket p).ports = s.ports := rfl
@[simp] theorem emitPacket_sched (p : Packet) : (s.emitPacket p).sched = s.sched := rfl
@[simp] theorem emitPacket_cfg (p : Packet) : (s.emitPacket p).cfg = s.cfg := rfl
@[simp] theorem emitPacket_ring (p : Packet) (r : RingSel) : (s.emitPacket p).ring r = s.ring r := by cases r <;> rfl

/-! ## emitMotor -/

@[simp] theorem emitMotor_inR (m : SetSpeeds) : (s.emitMotor m).inR = s.inR := rfl
@[simp] theorem emitMotor_outR (m : SetSpeeds) : (s.emitMotor m).outR = s.outR := rfl
@[simp] theorem emitMotor_dec (m : SetSpeeds) : (s.emitMotor m).dec = s.dec := rfl
@[simp] theorem emitMotor_alive (m : SetSpeeds) : (s.emitMotor m).alive = s.alive := rfl
@[simp] theorem emitMotor_enq (m : SetSpeeds) : (s.emitMotor m).enq = s.enq := rfl
@[simp] theorem emitMotor_poll (m : SetSpeeds) : (s.emitMotor m).poll = s.poll := rfl
@[simp] theorem emitMotor_wireOut (m : SetSpeeds) : (s.emitMotor m).wireOut = s.wireOut := rfl
@[simp] theorem emitMotor_pktOut (m : SetSpeeds) : (s.emitMotor m).pktOut = s.pktOut := rfl
@[simp] theorem emitMotor_motorOut (m : SetSpeeds) : (s.emitMotor m).motorOut = s.motorOut ++ [m] := rfl
@[simp] theorem emitMotor_telemOut (m : SetSpeeds) : (s.emitMotor m).telemOut = s.telemOut := rfl
@[simp] theorem emitMotor_diagOut (m : SetSpeeds) : (s.emitMotor m).diagOut = s.diagOut := rfl
@[simp] theorem emitMotor_returns (m : SetSpeeds) : (s.emitMotor m).returns = s.returns := rfl
@[simp] theorem emitMotor_ports (m : SetSpeeds) : (s.emitMotor m).ports = s.ports := rfl
@[simp] theorem emitMotor_sched (m : SetSpeeds) : (s.emitMotor m).sched = s.sched := rfl
@[simp] theorem emitMotor_cfg (m : SetSpeeds) : (s.emitMotor m).cfg = s.cfg := rfl
@[simp] theorem emitMotor_ring (m : SetSpeeds) (r : RingSel) : (s.emitMotor m).ring r = s.ring r := by cases r <;> rfl

/-! ## emitTelem -/

@[simp] theorem emitTelem_inR (x : List Byte) : (s.emitTelem x).inR = s.inR := rfl
@[simp] theorem emitTelem_outR (x : List Byte) : (s.emitTelem x).outR = s.outR := rfl
@[simp] theorem emitTelem_dec (x : List Byte) : (s.emitTelem x).dec = s.dec := rfl
@[simp] theorem emitTelem_alive (x : List Byte) : (s.emitTelem x).alive = s.alive := rfl
@[simp] theorem emitTelem_enq (x : List Byte) : (s.emitTelem x).enq = s.enq := rfl
@[simp] theorem emitTelem_poll (x : List Byte) : (s.emitTelem x).poll = s.poll := rfl
@[simp] theorem emitTelem_wireOut (x : List Byte) : (s.emitTelem x).wireOut = s.wireOut := rfl
@[simp] theorem emitTelem_pktOut (x : List Byte) : (s.emitTelem x).pktOut = s.pktOut := rfl
@[simp] theorem emitTelem_motorOut (x : List Byte) : (s.emitTelem x).motorOut = s.motorOut := rfl
@[simp] theorem emitTelem_telemOut (x : List Byte) : (s.emitTelem x).telemOut = s.telemOut ++ [x] := rfl
@[simp] theorem emitTelem_diagOut (x : List Byte) : (s.emitTelem x).diagOut = s.diagOut := rfl
@[simp] theorem emitTelem_returns (x : List Byte) : (s.emitTelem x).returns = s.returns := rfl
@[simp] theorem emitTelem_ports (x : List Byte) : (s.emitTelem x).ports = s.ports := rfl
@[simp] theorem emitTelem_sched (x : List Byte) : (s.emitTelem x).sched = s.sched := rfl
@[simp] theorem emitTelem_cfg (x : List Byte) : (s.emitTelem x).cfg = s.cfg := rfl
@[simp] theorem emitTelem_ring (x : List Byte) (r : RingSel) : (s.emitTelem x).ring r = s.ring r := by cases r <;> rfl

/-! ## emitDiag -/

@[simp] theorem emitDiag_inR (d : Diag) : (s.emitDiag d).inR = s.inR := rfl
@[simp] theorem emitDiag_outR (d : Diag) : (s.emitDiag d).outR = s.outR := rfl
@[simp] theorem emitDiag_dec (d : Diag) : (s.emitDiag d).dec = s.dec := rfl
@[simp] theorem emitDiag_alive (d : Diag) : (s.emitDiag d).alive = s.alive := rfl
@[simp] theorem emitDiag_enq (d : Diag) : (s.emitDiag d).enq = s.enq := rfl
@[simp] theorem emitDiag_poll (d : Diag) : (s.emitDiag d).poll = s.poll := rfl
@[simp] theorem emitDiag_wireOut (d : Diag) : (s.emitDiag d).wireOut = s.wireOut := rfl
@[simp] theorem emitDiag_pktOut (d : Diag) : (s.emitDiag d).pktOut = s.pktOut := rfl
@[simp] theorem emitDiag_motorOut (d : Diag) : (s.emitDiag d).motorOut = s.motorOut := rfl
@[simp] theorem emitDiag_telemOut (d : Diag) : (s.emitDiag d).telemOut = s.telemOut := rfl
@[simp] theorem emitDiag_diagOut (d : Diag) : (s.emitDiag d).diagOut = s.diagOut ++ [d] := rfl
@[simp] theorem emitDiag_returns (d : Diag) : (s.emitDiag d).returns = s.returns := rfl
@[simp] theorem emitDiag_ports (d : Diag) : (s.emitDiag d).ports = s.ports := rfl
@[simp] theorem emitDiag_sched (d : Diag) : (s.emitDiag d).sched = s.sched := rfl
@[simp] theorem emitDiag_cfg (d : Diag) : (s.emitDiag d).cfg = s.cfg := rfl
@[simp] theorem emitDiag_ring (d : Diag) (r : RingSel) : (s.emitDiag d).ring r = s.ring r := by cases r <;> rfl

/-! ## answer -/

@[simp] theorem answer_inR (a : Agent) (v : Result) : (s.answer a v).inR = s.inR := rfl
@[simp] theorem answer_outR (a : Agent) (v : Result) : (s.answer a v).outR = s.outR := rfl
@[simp] theorem answer_dec (a : Agent) (v : Result) : (s.answer a v).dec = s.dec := rfl
@[simp] theorem answer_alive (a : Agent) (v : Result) : (s.answer a v).alive = s.alive := rfl
@[simp] theorem answer_enq (a : Agent) (v : Result) : (s.answer a v).enq = s.enq := rfl
@[simp] theorem answer_poll (a : Agent) (v : Result) : (s.answer a v).poll = s.poll := rfl
@[simp] theorem answer_wireOut (a : Agent) (v : Result) : (s.answer a v).wireOut = s.wireOut := rfl
@[simp] theorem answer_pktOut (a : Agent) (v : Result) : (s.answer a v).pktOut = s.pktOut := rfl
@[simp] theorem answer_motorOut (a : Agent) (v : Result) : (s.answer a v).motorOut = s.motorOut := rfl
@[simp] theorem answer_telemOut (a : Agent) (v : Result) : (s.answer a v).telemOut = s.telemOut := rfl
@[simp] theorem answer_diagOut (a : Agent) (v : Result) : (s.answer a v).diagOut = s.diagOut := rfl
@[simp] theorem answer_returns (a : Agent) (v : Result) : (s.answer a v).returns = s.returns ++ [⟨a, v⟩] := rfl
@[simp] theorem answer_ports (a : Agent) (v : Result) : (s.answer a v).ports = s.ports := rfl
@[simp] theorem answer_sched (a : Agent) (v : Result) : (s.answer a v).sched = s.sched := rfl
@[simp] theorem answer_cfg (a : Agent) (v : Result) : (s.answer a v).cfg = s.cfg := rfl
@[simp] theorem answer_ring (a : Agent) (v : Result) (r : RingSel) : (s.answer a v).ring r = s.ring r := by cases r <;> rfl

/-! ## setRing -/

@[simp] theorem setRing_dec (r : RingSel) (ρ : Ring) : (s.setRing r ρ).dec = s.dec := by cases r <;> rfl
@[simp] theorem setRing_alive (r : RingSel) (ρ : Ring) : (s.setRing r ρ).alive = s.alive := by cases r <;> rfl
@[simp] theorem setRing_enq (r : RingSel) (ρ : Ring) : (s.setRing r ρ).enq = s.enq := by cases r <;> rfl
@[simp] theorem setRing_poll (r : RingSel) (ρ : Ring) : (s.setRing r ρ).poll = s.poll := by cases r <;> rfl
@[simp] theorem setRing_wireOut (r : RingSel) (ρ : Ring) : (s.setRing r ρ).wireOut = s.wireOut := by cases r <;> rfl
@[simp] theorem setRing_pktOut (r : RingSel) (ρ : Ring) : (s.setRing r ρ).pktOut = s.pktOut := by cases r <;> rfl
@[simp] theorem setRing_motorOut (r : RingSel) (ρ : Ring) : (s.setRing r ρ).motorOut = s.motorOut := by cases r <;> rfl
@[simp] theorem setRing_telemOut (r : RingSel) (ρ : Ring) : (s.setRing r ρ).telemOut = s.telemOut := by cases r <;> rfl
@[simp] theorem setRing_diagOut (r : RingSel) (ρ : Ring) : (s.setRing r ρ).diagOut = s.diagOut := by cases r <;> rfl
@[simp] theorem setRing_returns (r : RingSel) (ρ : Ring) : (s.setRing r ρ).returns = s.returns := by cases r <;> rfl
@[simp] theorem setRing_ports (r : RingSel) (ρ : Ring) : (s.setRing r ρ).ports = s.ports := by cases r <;> rfl
@[simp] theorem setRing_sched (r : RingSel) (ρ : Ring) : (s.setRing r ρ).sched = s.sched := by cases r <;> rfl
@[simp] theorem setRing_cfg (r : RingSel) (ρ : Ring) : (s.setRing r ρ).cfg = s.cfg := by cases r <;> rfl

@[simp] theorem setRing_inp_inR (ρ : Ring) : (s.setRing .inp ρ).inR = ρ := rfl
@[simp] theorem setRing_inp_outR (ρ : Ring) : (s.setRing .inp ρ).outR = s.outR := rfl
@[simp] theorem setRing_out_inR (ρ : Ring) : (s.setRing .out ρ).inR = s.inR := rfl
@[simp] theorem setRing_out_outR (ρ : Ring) : (s.setRing .out ρ).outR = ρ := rfl
@[simp] theorem setRing_ring (r : RingSel) (ρ : Ring) : (s.setRing r ρ).ring r = ρ := by cases r <;> rfl
@[simp] theorem ring_inp : s.ring .inp = s.inR := rfl
@[simp] theorem ring_out : s.ring .out = s.outR := rfl

/-! ## parserReset -/

@[simp] theorem parserReset_inR : s.parserReset.inR = s.inR := rfl
@[simp] theorem parserReset_outR : s.parserReset.outR = s.outR := rfl
@[simp] theorem parserReset_dec : s.parserReset.dec = s.dec.parserReset := rfl
@[simp] theorem parserReset_alive : s.parserReset.alive = s.alive := rfl
@[simp] theorem parserReset_enq : s.parserReset.enq = s.enq := rfl
@[simp] theorem parserReset_poll : s.parserReset.poll = s.poll := rfl
@[simp] theorem parserReset_wireOut : s.parserReset.wireOut = s.wireOut := rfl
@[simp] theorem parserReset_pktOut : s.parserReset.pktOut = s.pktOut := rfl
@[simp] theorem parserReset_motorOut : s.parserReset.motorOut = s.motorOut := rfl
@[simp] theorem parserReset_telemOut : s.parserReset.telemOut = s.telemOut := rfl
@[simp] theorem parserReset_diagOut : s.parserReset.diagOut = s.diagOut := rfl
@[simp] theorem parserReset_returns : s.parserReset.returns = s.returns := rfl
@[simp] theorem parserReset_ports : s.parserReset.ports = s.ports := rfl
@[simp] theorem parserReset_sched : s.parserReset.sched = s.sched := rfl
@[simp] theorem parserReset_cfg : s.parserReset.cfg = s.cfg := rfl
@[simp] theorem parserReset_ring (r : RingSel) : s.parserReset.ring r = s.ring r := by cases r <;> rfl
@[simp] theorem dec_parserReset_st (d : Dec) : d.parserReset.st = .sync1 := rfl
@[simp] theorem dec_parserReset_ptype (d : Dec) : d.parserReset.ptype = 0#8 := rfl
@[simp] theorem dec_parserReset_plen (d : Dec) : d.parserReset.plen = 0#8 := rfl
@[simp] theorem dec_parserReset_csum (d : Dec) : d.parserReset.csum = 0#8 := rfl
@[simp] theorem dec_parserReset_cnt (d : Dec) : d.parserReset.cnt = 0#8 := rfl
@[simp] theorem dec_parserReset_pay (d : Dec) : d.parserReset.pay = d.pay := rfl

/-! ## resetEvent (R270) -/

@[simp] theorem resetEvent_inR : (resetEvent s).inR = Ring.reset := rfl
@[simp] theorem resetEvent_outR : (resetEvent s).outR = Ring.reset := rfl
@[simp] theorem resetEvent_dec : (resetEvent s).dec = Dec.reset := rfl
@[simp] theorem resetEvent_alive : (resetEvent s).alive = true := rfl
@[simp] theorem resetEvent_enq : (resetEvent s).enq = Enq.reset := rfl
@[simp] theorem resetEvent_poll : (resetEvent s).poll = none := rfl
@[simp] theorem resetEvent_wireOut : (resetEvent s).wireOut = [] := rfl
@[simp] theorem resetEvent_pktOut : (resetEvent s).pktOut = [] := rfl
@[simp] theorem resetEvent_motorOut : (resetEvent s).motorOut = [] := rfl
@[simp] theorem resetEvent_telemOut : (resetEvent s).telemOut = [] := rfl
@[simp] theorem resetEvent_diagOut : (resetEvent s).diagOut = [] := rfl
@[simp] theorem resetEvent_returns : (resetEvent s).returns = [] := rfl
@[simp] theorem resetEvent_ports : (resetEvent s).ports = s.ports := rfl
@[simp] theorem resetEvent_sched : (resetEvent s).sched = s.sched := rfl
@[simp] theorem resetEvent_cfg : (resetEvent s).cfg = s.cfg := rfl

/-! ## Ports -/

@[simp] theorem ports_get_set (p : Ports) (a : Agent) (l : List Byte) : (p.set a l).get a = l := by cases a <;> rfl
theorem ports_get_set_ne (p : Ports) (a b : Agent) (l : List Byte) (h : b ≠ a) : (p.set a l).get b = p.get b := by
  cases a <;> cases b <;> first | rfl | exact absurd rfl h

end Sys2Proof.Machine
end

