-- ==== Sys2Proof/Laws/Decoder.lean ====
section
/-! SUPPORT. What one step of the decoder can do, said once (R160 to R168), and that it keeps the decoder sound (R35). -/

namespace Sys2Proof.Machine

/-- The frame-level errors, with the state and the byte that raise them (R241 to R245). -/
def raisedBy (d : Dec) (b : Byte) : Diag → Prop
  | .framingError b' => d.st = .sync2 ∧ b ≠ syncByte ∧ b' = b
  | .oversizedPacket b' => d.st = .length ∧ payloadMax < b.toNat ∧ b' = b
  | .checksumMismatch e a => d.st = .checksum ∧ b ≠ d.csum ∧ e = d.csum ∧ a = b
  | .terminatorMismatch .cr b' => d.st = .cr ∧ b ≠ crByte ∧ b' = b
  | .terminatorMismatch .lf b' => d.st = .lf ∧ b ≠ lfByte ∧ b' = b
  | _ => False

theorem raisedBy_frameLevel (d : Dec) (b : Byte) (g : Diag) (h : raisedBy d b g) : g.frameLevel = true := by
  cases g <;> first | rfl | exact absurd h id

/-- A frame-level error appends one diagnostic and resets the parser (R250). -/
theorem raise_frameLevel (g : Diag) (s : State) (h : g.frameLevel = true) : raise g s = (s.emitDiag g).parserReset := by
  cases g <;> first | rfl | exact absurd h (by simp [Diag.frameLevel, Diag.code])

/-- The decoder's next registers when no event comes of the byte: the rows of R178 without an event. -/
def quietNext (d : Dec) (b : Byte) : Dec → Prop := fun d' =>
  (d.st = .sync1 ∧ b = syncByte ∧ d' = { d with st := .sync2 }) ∨
  (d.st = .sync1 ∧ b ≠ syncByte ∧ d' = d) ∨
  (d.st = .sync2 ∧ b = syncByte ∧ d' = { d with st := .type }) ∨
  (d.st = .type ∧ d' = { d with ptype := b, st := .length }) ∨
  (d.st = .length ∧ b = 0#8 ∧ d' = { d with plen := b, st := .checksum }) ∨
  (d.st = .length ∧ b ≠ 0#8 ∧ b.toNat ≤ payloadMax ∧ d' = { d with plen := b, st := .data }) ∨
  (d.st = .data ∧ d.cnt.toNat < payloadMax ∧ ∃ st : FramePos,
    (st = .checksum ∧ d.cnt.toNat + 1 = d.plen.toNat ∨ st = .data ∧ d.cnt.toNat + 1 ≠ d.plen.toNat) ∧
    d' = { d with pay := Memory.set d.pay d.cnt.toNat b, csum := d.csum ^^^ b, cnt := d.cnt + 1#8, st := st }) ∨
  (d.st = .checksum ∧ b = d.csum ∧ d' = { d with st := .cr }) ∨
  (d.st = .cr ∧ b = crByte ∧ d' = { d with st := .lf })

/-- Everything a DEC.STEP that does not fault can do: change registers without an event, abandon the frame with one
diagnostic, or complete a packet. -/
theorem stepDecoder_cases (b : Byte) (s t : State) (e : Option Event) (h : stepDecoder b s = .ok (e, t)) :
    (∃ d', quietNext s.dec b d' ∧ e = none ∧ t = s.setDec d') ∨
    (∃ g, raisedBy s.dec b g ∧ e = some (.diag g) ∧ t = (s.emitDiag g).parserReset) ∨
    (∃ payload, s.dec.st = .lf ∧ b = lfByte ∧ Memory.read s.dec.pay 0 s.dec.plen.toNat = some payload ∧
      e = some (.packet ⟨s.dec.ptype, payload⟩) ∧ t = (s.emitPacket ⟨s.dec.ptype, payload⟩).parserReset) := by
  unfold stepDecoder at h
  cases hst : s.dec.st <;> rw [hst] at h <;> simp only at h
  · unfold stepSync1 advance at h
    split at h <;> rename_i hb <;> cases h
    · exact .inl ⟨_, .inl ⟨hst, hb, rfl⟩, rfl, rfl⟩
    · refine .inl ⟨_, .inr (.inl ⟨hst, hb, rfl⟩), rfl, ?_⟩
      rw [← hst]
  · unfold stepSync2 advance abandon at h
    split at h <;> rename_i hb <;> cases h
    · exact .inl ⟨_, .inr (.inr (.inl ⟨hst, hb, rfl⟩)), rfl, rfl⟩
    · exact .inr (.inl ⟨.framingError b, ⟨hst, hb, rfl⟩, rfl, rfl⟩)
  · unfold stepType takeType at h
    cases h
    exact .inl ⟨_, .inr (.inr (.inr (.inl ⟨hst, rfl⟩))), rfl, rfl⟩
  · unfold stepLength takeLength abandon at h
    split at h <;> rename_i hb
    · cases h
      exact .inr (.inl ⟨.oversizedPacket b, ⟨hst, hb, rfl⟩, rfl, rfl⟩)
    · split at h <;> rename_i hz <;> cases h
      · exact .inl ⟨_, .inr (.inr (.inr (.inr (.inl ⟨hst, hz, rfl⟩)))), rfl, rfl⟩
      · exact .inl ⟨_, .inr (.inr (.inr (.inr (.inr (.inl ⟨hst, hz, by omega, rfl⟩))))), rfl, rfl⟩
  · unfold stepData takeData at h
    split at h <;> rename_i hb <;> split at h <;> rename_i hc <;> cases h
    · exact .inl ⟨_, .inr (.inr (.inr (.inr (.inr (.inr (.inl ⟨hst, hc, _, .inl ⟨rfl, hb⟩, rfl⟩)))))), rfl, rfl⟩
    · exact .inl ⟨_, .inr (.inr (.inr (.inr (.inr (.inr (.inl ⟨hst, hc, _, .inr ⟨rfl, hb⟩, rfl⟩)))))), rfl, rfl⟩
  · unfold stepChecksum advance abandon at h
    split at h <;> rename_i hb <;> cases h
    · exact .inl ⟨_, .inr (.inr (.inr (.inr (.inr (.inr (.inr (.inl ⟨hst, hb, rfl⟩))))))), rfl, rfl⟩
    · exact .inr (.inl ⟨.checksumMismatch s.dec.csum b, ⟨hst, hb, rfl, rfl⟩, rfl, rfl⟩)
  · unfold stepCr advance abandon at h
    split at h <;> rename_i hb <;> cases h
    · exact .inl ⟨_, .inr (.inr (.inr (.inr (.inr (.inr (.inr (.inr ⟨hst, hb, rfl⟩))))))), rfl, rfl⟩
    · exact .inr (.inl ⟨.terminatorMismatch .cr b, ⟨hst, hb, rfl⟩, rfl, rfl⟩)
  · unfold stepLf completePacket abandon at h
    split at h <;> rename_i hb
    · cases hr : Memory.read s.dec.pay 0 s.dec.plen.toNat with
      | none => rw [hr] at h; cases h
      | some payload =>
        rw [hr] at h; cases h
        exact .inr (.inr ⟨payload, rfl, hb, rfl, rfl, rfl⟩)
    · cases h
      exact .inr (.inl ⟨.terminatorMismatch .lf b, ⟨hst, hb, rfl⟩, rfl, rfl⟩)

/-- The parser reset makes the decoder sound. -/
theorem parserReset_sound (d : Dec) (h : Memory.within d.pay payloadMax) : d.parserReset.sound :=
  ⟨h, by simp [Dec.parserReset, Dec.reset], by simp [Dec.parserReset, Dec.reset], by simp [Dec.parserReset, Dec.reset]⟩

/-- A row without an event keeps the decoder sound (R35). -/
theorem quietNext_sound (d d' : Dec) (b : Byte) (h : d.sound) (hn : quietNext d b d') : d'.sound := by
  obtain ⟨hw, hp, hc, hs⟩ := h
  rcases hn with ⟨hst, hb, rfl⟩ | ⟨hst, hb, rfl⟩ | ⟨hst, hb, rfl⟩ | ⟨hst, rfl⟩ | ⟨hst, hb, rfl⟩ |
    ⟨hst, hb, hl, rfl⟩ | ⟨hst, hl, st, hst', rfl⟩ | ⟨hst, hb, rfl⟩ | ⟨hst, hb, rfl⟩
  · rw [hst] at hs; exact ⟨hw, hp, hc, hs⟩
  · exact ⟨hw, hp, hc, hs⟩
  · rw [hst] at hs; exact ⟨hw, hp, hc, hs.1, hs.2.1, hs.2.2.1⟩
  · rw [hst] at hs; exact ⟨hw, hp, hc, hs⟩
  · rw [hst] at hs; subst hb
    obtain ⟨h1, h2, -⟩ := hs
    refine ⟨hw, by simp, by simp [h2], h2, ?_⟩
    simp [Dec.collected, Memory.read, checksum, h1]
  · rw [hst] at hs
    obtain ⟨h1, h2, -⟩ := hs
    refine ⟨hw, hl, by simp only [h2]; bv_omega, ?_, ?_⟩
    · simp only [h2]; bv_omega
    · simp [Dec.collected, h2, Memory.read, checksum, h1]
  · rw [hst] at hs
    obtain ⟨h1, h2, h3⟩ := hs
    obtain ⟨bs, hbs⟩ := Option.isSome_iff_exists.mp h2
    have hread : Memory.read (Memory.set d.pay d.cnt.toNat b) 0 (d.cnt + 1#8).toNat = some (bs ++ [b]) := by
      rw [show (d.cnt + 1#8).toNat = d.cnt.toNat + 1 by bv_omega]
      exact read_succ _ _ _ _ _ (by rw [read_set_outside _ _ _ _ _ (by omega)]; exact hbs) (by simp)
    have hcsum : d.csum ^^^ b = checksum (bs ++ [b]) := by
      rw [checksum_snoc, h3, hbs]; rfl
    have hcol : Dec.collected { d with
        pay := Memory.set d.pay d.cnt.toNat b, csum := d.csum ^^^ b, cnt := d.cnt + 1#8, st := st } (d.cnt + 1#8).toNat := by
      unfold Dec.collected
      simp only [hread]
      exact ⟨rfl, hcsum⟩
    rcases hst' with ⟨rfl, hn⟩ | ⟨rfl, hn⟩
    · have he : d.cnt + 1#8 = d.plen := by bv_omega
      refine ⟨set_within _ _ _ _ hw hl, hp, ?_, he, ?_⟩
      · simp only [he]; bv_omega
      · rw [he] at hcol; simp only at hcol ⊢; rw [he]; exact hcol
    · refine ⟨set_within _ _ _ _ hw hl, hp, ?_, ?_, hcol⟩
      · simp only; bv_omega
      · simp only; bv_omega
  · rw [hst] at hs; exact ⟨hw, hp, hc, hs⟩
  · rw [hst] at hs; exact ⟨hw, hp, hc, hs⟩

/-- A DEC.STEP keeps the decoder sound (R35). -/
theorem stepDecoder_sound (b : Byte) (s t : State) (e : Option Event) (h : s.dec.sound) (hr : stepDecoder b s = .ok (e, t)) :
    t.dec.sound := by
  rcases stepDecoder_cases b s t e hr with ⟨d', hn, -, rfl⟩ | ⟨g, -, -, rfl⟩ | ⟨p, -, -, -, -, rfl⟩
  · exact quietNext_sound _ _ _ h hn
  · exact parserReset_sound _ h.1
  · exact parserReset_sound _ h.1

/-- A DEC.STEP of a sound decoder never faults (R65, R160). -/
theorem stepDecoder_ok (b : Byte) (s : State) (h : s.dec.sound) : ∃ e t, stepDecoder b s = .ok (e, t) := by
  obtain ⟨hw, hp, hc, hs⟩ := h
  unfold stepDecoder
  cases hst : s.dec.st <;> simp only
  · unfold stepSync1 advance; split <;> exact ⟨_, _, rfl⟩
  · unfold stepSync2 advance abandon; split <;> exact ⟨_, _, rfl⟩
  · exact ⟨_, _, rfl⟩
  · unfold stepLength takeLength abandon
    split
    · exact ⟨_, _, rfl⟩
    · split <;> exact ⟨_, _, rfl⟩
  · rw [hst] at hs
    have hlt : s.dec.cnt.toNat < payloadMax := by
      have := hs.1; bv_omega
    unfold stepData takeData
    rw [if_pos hlt, if_pos hlt]
    split <;> exact ⟨_, _, rfl⟩
  · unfold stepChecksum advance abandon; split <;> exact ⟨_, _, rfl⟩
  · unfold stepCr advance abandon; split <;> exact ⟨_, _, rfl⟩
  · rw [hst] at hs
    obtain ⟨-, h2, -⟩ := hs
    obtain ⟨bs, hbs⟩ := Option.isSome_iff_exists.mp h2
    unfold stepLf completePacket abandon
    split
    · rw [hbs]; exact ⟨_, _, rfl⟩
    · exact ⟨_, _, rfl⟩

/-- What a DEC.STEP leaves alone: it "reads and writes only `dec`", and `pkt_out` or `diag_out` (R160). -/
theorem stepDecoder_frame (b : Byte) (s t : State) (e : Option Event) (hr : stepDecoder b s = .ok (e, t)) :
    t.inR = s.inR ∧ t.outR = s.outR ∧ t.alive = s.alive ∧ t.enq = s.enq ∧ t.poll = s.poll ∧ t.wireOut = s.wireOut ∧
    t.motorOut = s.motorOut ∧ t.telemOut = s.telemOut ∧ t.returns = s.returns ∧ t.ports = s.ports ∧ t.sched = s.sched ∧
    t.cfg = s.cfg := by
  rcases stepDecoder_cases b s t e hr with ⟨d', hn, -, rfl⟩ | ⟨g, -, -, rfl⟩ | ⟨p, -, -, -, -, rfl⟩ <;> simp

/-- A packet an event carries has at most 223 payload bytes when the decoder is sound (R6). -/
theorem stepDecoder_packet_length (b : Byte) (s t : State) (p : Packet) (h : s.dec.sound)
    (hr : stepDecoder b s = .ok (some (.packet p), t)) : p.payload.length ≤ payloadMax := by
  rcases stepDecoder_cases b s t _ hr with ⟨d', hn, he, -⟩ | ⟨g, -, he, -⟩ | ⟨bs, -, -, hbs, he, -⟩
  · cases he
  · cases he
  · cases he
    rw [read_length _ _ _ _ hbs]; exact h.2.1

end Sys2Proof.Machine
end

