-- ==== Sys2Proof/Laws/PerInstr.lean ====
section
/-! SUPPORT. Per instruction: the request the encoder writes meets the match and mask its row has in spec/opcode_table.json. -/

namespace Sys2Proof.Laws.TableMatch

/-- A well-formed instruction's request meets its row's match and mask (R103, R104, R106). -/
def Statement (i : Instr) : Prop := i.wf = true → i.tableRow.matches (encode i) = true

/-- The upper 24 bits of a header word are its first three bytes (R106). -/
theorem headerWord_type {b0 b1 b2 : Byte} (len : Byte) :
    (b0 ++ b1 ++ b2 ++ len) &&& 0xFFFFFF00#32 = b0 ++ b1 ++ b2 ++ 0#8 := by
  apply BitVec.eq_of_getLsbD_eq
  intro i hi
  rw [BitVec.getLsbD_and]
  repeat rw [BitVec.getLsbD_append]
  interval_cases i <;> simp

/-- The upper half of a header word is its two sync bytes (R106). -/
theorem headerWord_sync {b0 b1 : Byte} (ptype len : Byte) :
    (b0 ++ b1 ++ ptype ++ len) &&& 0xFFFF0000#32 = b0 ++ b1 ++ 0#8 ++ 0#8 := by
  apply BitVec.eq_of_getLsbD_eq
  intro i hi
  rw [BitVec.getLsbD_and]
  repeat rw [BitVec.getLsbD_append]
  interval_cases i <;> simp

theorem rbPush (r : RingSel) (b : Byte) : Statement (.rbPush r b) := fun _ => by
  simp [TableRow.matches, Instr.tableRow, encode, rowWord]

theorem rbPop (r : RingSel) : Statement (.rbPop r) := fun _ => by
  simp [TableRow.matches, Instr.tableRow, encode, rowWord]

theorem rbAvail (r : RingSel) : Statement (.rbAvail r) := fun _ => by
  simp [TableRow.matches, Instr.tableRow, encode, rowWord]

theorem encodeFrame (ptype : Byte) (len : Byte) (payload : List Byte) : Statement (.encodeFrame ptype len payload) := fun _ => by
  simp [TableRow.matches, Instr.tableRow, encode, rowWord]

theorem decStep (b : Byte) : Statement (.decStep b) := fun _ => by
  simp [TableRow.matches, Instr.tableRow, encode, rowWord]

theorem decReset : Statement .decReset := fun _ => by
  simp [TableRow.matches, Instr.tableRow, encode, rowWord]

theorem dispatch (p : Packet) : Statement (.dispatch p) := fun _ => by
  simp [TableRow.matches, Instr.tableRow, encode, rowWord]

theorem rxByte (b : Byte) : Statement (.rxByte b) := fun _ => by
  simp [TableRow.matches, Instr.tableRow, encode, rowWord]

theorem poll1 : Statement .poll1 := fun _ => by
  simp [TableRow.matches, Instr.tableRow, encode, rowWord]

theorem pollAll : Statement .pollAll := fun _ => by
  simp [TableRow.matches, Instr.tableRow, encode, rowWord]

theorem enqueue (ptype : Byte) (len : Byte) (payload : List Byte) : Statement (.enqueue ptype len payload) := fun _ => by
  simp [TableRow.matches, Instr.tableRow, encode, rowWord]

theorem sendSpeed (left : Half) (right : Half) : Statement (.sendSpeed left right) := fun _ => by
  simp [TableRow.matches, Instr.tableRow, encode, rowWord]

theorem sendMessage (n : Nat) (text : List Byte) : Statement (.sendMessage n text) := fun _ => by
  simp [TableRow.matches, Instr.tableRow, encode, rowWord]

theorem txByte : Statement .txByte := fun _ => by
  simp [TableRow.matches, Instr.tableRow, encode, rowWord]

theorem txFlush : Statement .txFlush := fun _ => by
  simp [TableRow.matches, Instr.tableRow, encode, rowWord]

theorem ioFail : Statement .ioFail := fun _ => by
  simp [TableRow.matches, Instr.tableRow, encode, rowWord]

theorem alive : Statement .alive := fun _ => by
  simp [TableRow.matches, Instr.tableRow, encode, rowWord]

theorem badOp (code : BitVec 5) : Statement (.badOp code) := by
  unfold Statement; revert code; decide

theorem frameSpeed (len : Byte) (rest : List Byte) : Statement (.frameSpeed len rest) := by
  simp only [Statement, TableRow.matches, Instr.tableRow, encode, rowWord, List.cons_append, beq_iff_eq]
  intro _
  exact headerWord_type len

theorem frameMessage (len : Byte) (rest : List Byte) : Statement (.frameMessage len rest) := by
  simp only [Statement, TableRow.matches, Instr.tableRow, encode, rowWord, List.cons_append, beq_iff_eq]
  intro _
  exact headerWord_type len

theorem frameUnknown (ptype : Byte) (len : Byte) (rest : List Byte) : Statement (.frameUnknown ptype len rest) := by
  simp only [Statement, TableRow.matches, Instr.tableRow, encode, rowWord, List.cons_append, beq_iff_eq]
  intro _
  exact headerWord_sync ptype len

theorem decSync1Hit : Statement .decSync1Hit := fun _ => by
  simp [TableRow.matches, Instr.tableRow, encode, rowWord]

theorem decSync1Miss (b : Byte) : Statement (.decSync1Miss b) := fun _ => by
  simp [TableRow.matches, Instr.tableRow, encode, rowWord]

theorem decSync2Hit : Statement .decSync2Hit := fun _ => by
  simp [TableRow.matches, Instr.tableRow, encode, rowWord]

theorem decSync2Miss (b : Byte) : Statement (.decSync2Miss b) := fun _ => by
  simp [TableRow.matches, Instr.tableRow, encode, rowWord]

theorem decType (b : Byte) : Statement (.decType b) := fun _ => by
  simp [TableRow.matches, Instr.tableRow, encode, rowWord]

theorem decLengthZero : Statement .decLengthZero := fun _ => by
  simp [TableRow.matches, Instr.tableRow, encode, rowWord]

theorem decLengthOver (b : Byte) : Statement (.decLengthOver b) := by
  unfold Statement; revert b; decide

theorem decLengthOk (b : Byte) : Statement (.decLengthOk b) := fun _ => by
  simp [TableRow.matches, Instr.tableRow, encode, rowWord]

theorem decDataMore (b : Byte) : Statement (.decDataMore b) := fun _ => by
  simp [TableRow.matches, Instr.tableRow, encode, rowWord]

theorem decDataLast (b : Byte) : Statement (.decDataLast b) := fun _ => by
  simp [TableRow.matches, Instr.tableRow, encode, rowWord]

theorem decChecksumOk (b : Byte) : Statement (.decChecksumOk b) := fun _ => by
  simp [TableRow.matches, Instr.tableRow, encode, rowWord]

theorem decChecksumBad (b : Byte) : Statement (.decChecksumBad b) := fun _ => by
  simp [TableRow.matches, Instr.tableRow, encode, rowWord]

theorem decCrOk : Statement .decCrOk := fun _ => by
  simp [TableRow.matches, Instr.tableRow, encode, rowWord]

theorem decCrBad (b : Byte) : Statement (.decCrBad b) := fun _ => by
  simp [TableRow.matches, Instr.tableRow, encode, rowWord]

theorem decLfOk : Statement .decLfOk := fun _ => by
  simp [TableRow.matches, Instr.tableRow, encode, rowWord]

theorem decLfBad (b : Byte) : Statement (.decLfBad b) := fun _ => by
  simp [TableRow.matches, Instr.tableRow, encode, rowWord]

end Sys2Proof.Laws.TableMatch
end

