-- ==== Sys2Proof/Laws/Ring.lean ====
section
/-! SUPPORT. What a push and a pop can do, said once, and that they keep a ring sound. -/

namespace Sys2Proof.Machine

/-! ## Flags -/

theorem isEmpty_iff (r : Ring) : r.isEmpty = true ↔ r.wr = r.rd := by simp [Ring.isEmpty]

theorem isFull_iff (r : Ring) : r.isFull = true ↔ r.wr + 1#8 = r.rd := by simp [Ring.isFull]

theorem count_eq_zero_iff (r : Ring) : r.count = 0#8 ↔ r.wr = r.rd := by
  unfold Ring.count; constructor <;> intro h <;> bv_omega

theorem isFull_iff_count (r : Ring) : r.isFull = true ↔ r.count = 255#8 := by
  rw [isFull_iff]; unfold Ring.count; constructor <;> intro h <;> bv_omega

theorem isEmpty_iff_count (r : Ring) : r.isEmpty = true ↔ r.count.toNat = 0 := by
  rw [isEmpty_iff]; unfold Ring.count; constructor <;> intro h <;> bv_omega

theorem free_eq (r : Ring) : r.free = 255 - r.count.toNat := rfl

/-! ## RB.PUSH -/

/-- Everything a push can do: `Full` and nothing else, or `Ok`, one slot written and the write cursor one further (R120). -/
theorem ringPush_cases (r : RingSel) (b : Byte) (s : State) :
    ((s.ring r).isFull = true ∧ ringPush r b s = (.full, s)) ∨
    ((s.ring r).isFull = false ∧ ringPush r b s = (.ok, s.setRing r
      { s.ring r with buf := Memory.set (s.ring r).buf (s.ring r).wr.toNat b, wr := (s.ring r).wr + 1#8 })) := by
  unfold ringPush
  by_cases h : (s.ring r).isFull = true
  · exact .inl ⟨h, by simp [h]⟩
  · exact .inr ⟨by simpa using h, by simp [h]⟩

/-- The slot of a push is none of the unread ones (R79). -/
theorem slot_ne_wr (r : Ring) (k : Nat) (hk : k < r.count.toNat) : r.slot k ≠ r.wr.toNat := by
  unfold Ring.count at hk
  unfold Ring.slot
  intro h
  bv_omega

/-- A push keeps a ring sound, and does not touch an unread slot (R79, R120). -/
theorem push_sound (r : Ring) (b : Byte) (h : r.sound) (hf : r.isFull = false) :
    Ring.sound { r with buf := Memory.set r.buf r.wr.toNat b, wr := r.wr + 1#8 } := by
  obtain ⟨hw, hl⟩ := h
  refine ⟨set_within _ _ _ _ hw r.wr.isLt, ?_⟩
  intro k hk
  by_cases hkw : Ring.slot r k = r.wr.toNat
  · show (Memory.get (Memory.set r.buf r.wr.toNat b) (Ring.slot r k)).isSome = true
    rw [hkw]; simp
  · show (Memory.get (Memory.set r.buf r.wr.toNat b) (Ring.slot r k)).isSome = true
    rw [get_set_ne _ _ _ _ hkw]
    apply hl
    have hne : ¬ (r.wr + 1#8 = r.rd) := by simpa [Ring.isFull] using hf
    unfold Ring.count at hk ⊢
    unfold Ring.slot at hkw
    simp only at hk
    bv_omega

/-! ## RB.POP -/

/-- Everything a pop can do (R121). -/
theorem ringPop_cases (r : RingSel) (s : State) :
    ((s.ring r).isEmpty = true ∧ ringPop r s = .ok (none, s)) ∨
    ((s.ring r).isEmpty = false ∧ ∃ v, Memory.get (s.ring r).buf (s.ring r).rd.toNat = some v ∧
      ringPop r s = .ok (some v, s.setRing r { s.ring r with rd := (s.ring r).rd + 1#8 })) ∨
    ((s.ring r).isEmpty = false ∧ Memory.get (s.ring r).buf (s.ring r).rd.toNat = none ∧
      ringPop r s = .error .slotWithoutValue) := by
  unfold ringPop
  by_cases h : (s.ring r).isEmpty = true
  · exact .inl ⟨h, by simp [h]⟩
  · have h' : (s.ring r).isEmpty = false := by simpa using h
    cases hg : Memory.get (s.ring r).buf (s.ring r).rd.toNat with
    | none => exact .inr (.inr ⟨h', rfl, by simp [h', hg]⟩)
    | some v => exact .inr (.inl ⟨h', v, rfl, by simp [h', hg]⟩)

/-- A sound ring that is not empty has a value in the slot a pop reads (R65). -/
theorem sound_front (r : Ring) (h : r.sound) (he : r.isEmpty = false) : ∃ v, Memory.get r.buf r.rd.toNat = some v := by
  have hc : ¬ r.count.toNat = 0 := fun hc => by
    rw [(isEmpty_iff_count r).mpr hc] at he; exact absurd he (by decide)
  have := h.2 0 (by omega)
  rw [show r.slot 0 = r.rd.toNat by simp [Ring.slot]] at this
  exact Option.isSome_iff_exists.mp this

/-- A pop keeps a ring sound (R121). -/
theorem pop_sound (r : Ring) (h : r.sound) (he : r.isEmpty = false) : Ring.sound { r with rd := r.rd + 1#8 } := by
  refine ⟨h.1, ?_⟩
  intro k hk
  have hne : ¬ (r.wr = r.rd) := by simpa [Ring.isEmpty] using he
  have hk' : k + 1 < r.count.toNat := by
    unfold Ring.count at hk ⊢; simp only at hk; bv_omega
  have := h.2 (k + 1) hk'
  rwa [show r.slot (k + 1) = Ring.slot { r with rd := r.rd + 1#8 } k by
    unfold Ring.slot; simp only; bv_omega] at this

/-- A pop of a sound ring never faults (R65). -/
theorem ringPop_ok (r : RingSel) (s : State) (h : (s.ring r).sound) :
    ∃ v s', ringPop r s = .ok (v, s') := by
  rcases ringPop_cases r s with ⟨_, e⟩ | ⟨_, v, _, e⟩ | ⟨he, hn, _⟩
  · exact ⟨_, _, e⟩
  · exact ⟨_, _, e⟩
  · obtain ⟨v, hv⟩ := sound_front _ h he
    rw [hn] at hv; exact absurd hv (by simp)

/-! ## The unread bytes -/

theorem readSlots_length (m : Memory) (n : Nat) : ∀ a, (readSlots m a n).length = n := by
  induction n with
  | zero => intro a; rfl
  | succ n ih => intro a; simp [readSlots, ih]

theorem readSlots_snoc (m : Memory) (n : Nat) :
    ∀ a, readSlots m a (n + 1) = readSlots m a n ++ [Memory.get m (a + BitVec.ofNat 8 n).toNat] := by
  induction n with
  | zero => intro a; simp [readSlots]
  | succ n ih =>
    intro a
    rw [readSlots, ih (a + 1#8)]
    have : a + 1#8 + BitVec.ofNat 8 n = a + BitVec.ofNat 8 (n + 1) := by bv_omega
    simp [readSlots, this]

theorem readSlots_set (m : Memory) (w : Nat) (v : Byte) (n : Nat) :
    ∀ a : Byte, (∀ k, k < n → (a + BitVec.ofNat 8 k).toNat ≠ w) → readSlots (Memory.set m w v) a n = readSlots m a n := by
  induction n with
  | zero => intro a _; rfl
  | succ n ih =>
    intro a h
    have h0 := h 0 (by omega)
    rw [show a + BitVec.ofNat 8 0 = a by simp] at h0
    rw [readSlots, readSlots, get_set_ne _ _ _ _ h0, ih]
    intro k hk
    have := h (k + 1) (by omega)
    rwa [show a + BitVec.ofNat 8 (k + 1) = a + 1#8 + BitVec.ofNat 8 k by bv_omega] at this

end Sys2Proof.Machine
end

