-- ==== Sys2Proof/Laws/Transport.lean ====
section
/-! SUPPORT. What the primitive steps of a composite operation can do, and that they keep a state sound. -/

namespace Sys2Proof.Machine

/-! ## Soundness of the shared operations -/

theorem sound_of_parts (s t : State) (h : s.sound) (h1 : t.inR = s.inR) (h2 : t.outR = s.outR) (h3 : t.dec = s.dec)
    (h4 : t.enq = s.enq) : t.sound := by
  unfold State.sound at h ⊢; rw [h1, h2, h3, h4]; exact h

theorem sound_ring (s : State) (r : RingSel) (h : s.sound) : (s.ring r).sound := by
  cases r
  · exact h.1
  · exact h.2.1

theorem setRing_sound (s : State) (r : RingSel) (ρ : Ring) (h : s.sound) (hρ : ρ.sound) : (s.setRing r ρ).sound := by
  cases r
  · exact ⟨hρ, h.2.1, h.2.2.1, h.2.2.2⟩
  · exact ⟨h.1, hρ, h.2.2.1, h.2.2.2⟩

theorem ringPush_sound (r : RingSel) (b : Byte) (s : State) (h : s.sound) : (ringPush r b s).2.sound := by
  rcases ringPush_cases r b s with ⟨_, e⟩ | ⟨hf, e⟩ <;> rw [e]
  · exact h
  · exact setRing_sound _ _ _ h (push_sound _ b (sound_ring s r h) hf)

theorem ringPop_sound (r : RingSel) (s t : State) (v : Option Byte) (h : s.sound) (hr : ringPop r s = .ok (v, t)) :
    t.sound := by
  rcases ringPop_cases r s with ⟨_, e⟩ | ⟨he, w, _, e⟩ | ⟨_, _, e⟩ <;> rw [e] at hr <;> cases hr
  · exact h
  · exact setRing_sound _ _ _ h (pop_sound _ (sound_ring s r h) he)

theorem ringTake_sound (r : RingSel) (n : Nat) :
    ∀ s, s.sound → ∃ bs t, ringTake r n s = .ok (bs, t) ∧ t.sound := by
  induction n with
  | zero => intro s h; exact ⟨_, _, rfl, h⟩
  | succ n ih =>
    intro s h
    obtain ⟨v, t, hp⟩ := ringPop_ok r s (sound_ring s r h)
    have ht := ringPop_sound r s t v h hp
    cases v with
    | none => exact ⟨[], t, by simp [ringTake, hp], ht⟩
    | some b =>
      obtain ⟨bs, u, hu, hus⟩ := ih t ht
      exact ⟨b :: bs, u, by simp [ringTake, hp, hu], hus⟩

theorem stepDecoder_state_sound (b : Byte) (s t : State) (e : Option Event) (h : s.sound)
    (hr : stepDecoder b s = .ok (e, t)) : t.sound := by
  obtain ⟨h1, h2, -, h4, -⟩ := stepDecoder_frame b s t e hr
  refine ⟨?_, ?_, stepDecoder_sound b s t e h.2.2.1 hr, ?_⟩
  · rw [h1]; exact h.1
  · rw [h2]; exact h.2.1
  · rw [h4]; exact h.2.2.2

/-- DISPATCH changes no state of the block (R226): only the four histories it may write. -/
theorem dispatchPacket_frame (p : Packet) (s : State) :
    (dispatchPacket p s).inR = s.inR ∧ (dispatchPacket p s).outR = s.outR ∧ (dispatchPacket p s).dec = s.dec ∧
    (dispatchPacket p s).alive = s.alive ∧ (dispatchPacket p s).enq = s.enq ∧ (dispatchPacket p s).poll = s.poll ∧
    (dispatchPacket p s).wireOut = s.wireOut ∧ (dispatchPacket p s).pktOut = s.pktOut ∧
    (dispatchPacket p s).returns = s.returns ∧ (dispatchPacket p s).ports = s.ports ∧
    (dispatchPacket p s).sched = s.sched ∧ (dispatchPacket p s).cfg = s.cfg := by
  unfold dispatchPacket
  cases classify p <;> simp [raise]

theorem dispatchPacket_sound (p : Packet) (s : State) (h : s.sound) : (dispatchPacket p s).sound :=
  sound_of_parts s _ h (dispatchPacket_frame p s).1 (dispatchPacket_frame p s).2.1 (dispatchPacket_frame p s).2.2.1
    (dispatchPacket_frame p s).2.2.2.2.1

/-- Only IO.FAIL on the device is not admitted (R203). -/
theorem variantAdmits_eq_false (v : Threads) (i : Instr) : variantAdmits v i = false ↔ v = .device ∧ i = .ioFail := by
  simp [variantAdmits]

/-! ## The ENQUEUE in flight -/

/-- No ENQUEUE is in progress: none is pushing, and no frame waits for its room test. -/
theorem busy_eq_false (e : Enq) : e.busy = false ↔ e.active = false ∧ e.pending = none := by simp [Enq.busy]

@[simp] theorem busy_active (frame : List Byte) (idx : Nat) (p : Option (List Byte)) : Enq.busy ⟨true, frame, idx, p⟩ = true := rfl

/-- Everything one push of an ENQUEUE can do: hold, push a byte and go on, push the last byte and return `Ok`, or
(only when the index is past the frame) return. -/
theorem enqPush_cases (s : State) :
    (s.outR.isFull = true ∧ s.enq.idx < s.enq.frame.length ∧ enqPush s = s) ∨
    (∃ b, s.outR.isFull = false ∧ s.enq.frame[s.enq.idx]? = some b ∧ s.enq.idx + 1 < s.enq.frame.length ∧
      enqPush s = (ringPush .out b s).2.setEnq { s.enq with idx := s.enq.idx + 1 }) ∨
    (∃ b, s.outR.isFull = false ∧ s.enq.frame[s.enq.idx]? = some b ∧ s.enq.idx + 1 = s.enq.frame.length ∧
      enqPush s = ((ringPush .out b s).2.setEnq { s.enq with active := false, idx := s.enq.idx + 1 }).answer .cmd .ok) ∨
    (s.enq.frame.length ≤ s.enq.idx ∧ enqPush s = (s.setEnq { s.enq with active := false }).answer .cmd .ok) := by
  unfold enqPush
  cases hg : s.enq.frame[s.enq.idx]? with
  | none => exact .inr (.inr (.inr ⟨by simpa using hg, rfl⟩))
  | some b =>
    obtain ⟨hlt, -⟩ := List.getElem?_eq_some_iff.mp hg
    by_cases hf : s.outR.isFull = true
    · exact .inl ⟨hf, hlt, by simp [hf]⟩
    · have hf' : s.outR.isFull = false := by simpa using hf
      by_cases hl : s.enq.idx + 1 = s.enq.frame.length
      · exact .inr (.inr (.inl ⟨b, hf', rfl, hl, by simp [hf', hl]⟩))
      · exact .inr (.inl ⟨b, hf', rfl, by omega, by simp [hf', hl]⟩)

/-- Everything the test of the room can do: end the call with `WouldBlock`, or let the pushes begin (R195). -/
theorem enqRoom_cases (frame : List Byte) (s : State) :
    (s.outR.free < frame.length ∧ enqRoom frame s = (s.setEnq { s.enq with pending := none }).answer .cmd .wouldBlock) ∨
    (frame.length ≤ s.outR.free ∧ enqRoom frame s = s.setEnq ⟨true, frame, 0, none⟩) := by
  unfold enqRoom
  by_cases h : s.outR.free < frame.length
  · exact .inl ⟨h, if_pos h⟩
  · exact .inr ⟨by omega, if_neg h⟩

theorem enqStep_room (s : State) (frame : List Byte) (h : s.enq.pending = some frame) : enqStep s = enqRoom frame s := by
  simp [enqStep, h]

theorem enqStep_push (s : State) (h : s.enq.pending = none) : enqStep s = enqPush s := by simp [enqStep, h]

theorem setEnq_sound (s : State) (e : Enq) (h : s.sound) (he : e.sound) : (s.setEnq e).sound := ⟨h.1, h.2.1, h.2.2.1, he⟩

theorem answer_sound (s : State) (a : Agent) (v : Result) (h : s.sound) : (s.answer a v).sound := h

/-- A frame that has just been encoded is a sound ENQUEUE at its first push. -/
theorem enq_begun_sound (frame : List Byte) (h : frameFits frame) : Enq.sound ⟨true, frame, 0, none⟩ :=
  ⟨fun _ => ⟨h, show 0 < frame.length from Nat.lt_of_lt_of_le (by decide) h.1⟩, nofun⟩

theorem enqPush_sound (s : State) (h : s.sound) (hn : s.enq.pending = none) : (enqPush s).sound := by
  have hp : ∀ b, (ringPush .out b s).2.sound := fun b => ringPush_sound .out b s h
  have none_sound : ∀ e : Enq, e.pending = none → (e.active = true → frameFits e.frame ∧ e.idx < e.frame.length) → e.sound :=
    fun e h1 h2 => ⟨h2, fun f hf => by rw [h1] at hf; cases hf⟩
  rcases enqPush_cases s with ⟨_, _, e⟩ | ⟨b, _, _, hl, e⟩ | ⟨b, _, _, hl, e⟩ | ⟨_, e⟩ <;> rw [e]
  · exact h
  · exact setEnq_sound _ _ (hp b) (none_sound _ hn fun ha => ⟨(h.2.2.2.1 ha).1, hl⟩)
  · exact answer_sound _ _ _ (setEnq_sound _ _ (hp b) (none_sound _ hn (by simp)))
  · exact answer_sound _ _ _ (setEnq_sound _ _ h (none_sound _ hn (by simp)))

theorem enqRoom_sound (frame : List Byte) (s : State) (h : s.sound) (hf : s.enq.pending = some frame) : (enqRoom frame s).sound := by
  obtain ⟨hfit, hact⟩ := h.2.2.2.2 frame hf
  rcases enqRoom_cases frame s with ⟨_, e⟩ | ⟨_, e⟩ <;> rw [e]
  · exact answer_sound _ _ _ (setEnq_sound _ _ h ⟨fun ha => absurd (hact.symm.trans ha) (by decide), nofun⟩)
  · exact setEnq_sound _ _ h (enq_begun_sound frame hfit)

theorem enqStep_sound (s : State) (h : s.sound) : (enqStep s).sound := by
  cases hp : s.enq.pending with
  | none => rw [enqStep_push s hp]; exact enqPush_sound s h hp
  | some frame => rw [enqStep_room s frame hp]; exact enqRoom_sound frame s h hp

theorem enqSteps_sound (k : Nat) : ∀ s, s.sound → (enqSteps k s).sound := by
  induction k with
  | zero => intro s h; exact h
  | succ k ih =>
    intro s h
    unfold enqSteps
    split
    · exact ih _ (enqStep_sound s h)
    · exact h

theorem encodedFrame_length (ptype len : Byte) (payload frame : List Byte) (h : encodedFrame ptype len payload = some frame) :
    frameFits frame := by
  unfold encodedFrame at h
  split at h <;> rename_i hl
  · cases h
  · cases h
    simp only [payloadMax] at hl
    simp only [frameFits, frameOverhead, payloadMax, frameBytes, List.length_append, List.length_cons, List.length_nil, List.length_take]
    omega

/-- ENCODE leaves a sound ENQUEUE in progress (R194, R195). -/
theorem enqEncoded_sound (frame : List Byte) (s : State) (h : s.sound) (hf : frameFits frame) (hb : s.enq.busy = false) :
    (enqEncoded frame s).sound := by
  have ha := ((busy_eq_false s.enq).mp hb).1
  unfold enqEncoded
  cases s.cfg.policy with
  | spin => exact setEnq_sound _ _ h (enq_begun_sound frame hf)
  | reject => exact setEnq_sound _ _ h ⟨fun h' => absurd (ha.symm.trans h') (by decide), fun f e => by cases e; exact ⟨hf, ha⟩⟩

theorem enqStart_sound (frame : List Byte) (s : State) (h : s.sound) (hf : frameFits frame) (hb : s.enq.busy = false) :
    (enqStart frame s).sound := by
  have he := enqEncoded_sound frame s h hf hb
  unfold enqStart
  cases s.cfg.grain with
  | call => exact enqSteps_sound _ _ he
  | primitive => exact he

/-! ## The POLL call in progress -/

/-- One primitive step of a call keeps a sound state sound and never faults (R65). -/
theorem pollStep_sound (c : PollCall) (s : State) (h : s.sound) : ∃ t, pollStep c s = .next t ∧ t.sound := by
  unfold pollStep
  cases c.phase with
  | pop =>
    have hpop : ∀ k : Option Byte → State → Answer, (∀ v t, t.sound → ∃ u, k v t = .next u ∧ u.sound) →
        ∃ u, finishWith (ringPop .inp s) k = .next u ∧ u.sound := by
      intro k hk
      obtain ⟨v, t, hp⟩ := ringPop_ok .inp s h.1
      rw [hp]
      exact hk v t (ringPop_sound .inp s t v h hp)
    simp only [pollPop]
    cases c.kind with
    | feed rest => cases rest <;> exact ⟨_, rfl, h⟩
    | one => apply hpop; intro v t ht; cases v <;> exact ⟨_, rfl, ht⟩
    | all => apply hpop; intro v t ht; cases v <;> exact ⟨_, rfl, ht⟩
  | dec b =>
    obtain ⟨e, t, hd⟩ := stepDecoder_ok b s h.2.2.1
    have ht := stepDecoder_state_sound b s t e h hd
    simp only [pollDec, hd, finishWith]
    rcases e with _ | (p | g) <;> exact ⟨_, rfl, ht⟩
  | disp p =>
    have hd := dispatchPacket_sound p s h
    simp only [pollDisp]
    cases c.kind <;> exact ⟨_, rfl, hd⟩

theorem pollSteps_sound (k : Nat) : ∀ s, s.sound → ∃ t, pollSteps k s = .next t ∧ t.sound := by
  induction k with
  | zero => intro s h; exact ⟨s, rfl, h⟩
  | succ k ih =>
    intro s h
    unfold pollSteps
    cases hp : s.poll with
    | none => exact ⟨s, rfl, h⟩
    | some c =>
      obtain ⟨t, ht, hs⟩ := pollStep_sound c s h
      simp only [ht]
      exact ih t hs

end Sys2Proof.Machine
end

