-- ==== Sys2Proof/Tests/Slice0.lean ====
section
/-! SUPPORT. Tests of one decoding or one step each, their expected results taken from spec/95_test_vectors.md and the rules named,
and for every obligation with hypotheses a witness that meets them. -/

namespace Sys2Proof.Tests

-- One theorem at a time: waiting threads would take more memory than a check has.
set_option Elab.async false

open Sys2Proof.Machine

/-! ## Helpers -/

/-- The bytes decode to this instruction with these bytes left. -/
def reads (bytes : List Byte) (i : Instr) (rest : List Byte) : Bool :=
  match decode bytes with
  | .ok (j, t) => j == i && t == rest
  | .error _ => false

/-- The bytes are rejected for this reason. -/
def rejects (bytes : List Byte) (r : Reject) : Bool :=
  match decode bytes with
  | .ok _ => false
  | .error e => e == r

/-- The outcome is a next state of which this holds. -/
def after (o : Answer) (p : State → Bool) : Bool :=
  match o with
  | .next s => p s
  | .fault _ => false
  | .refused _ => false

/-- Bytes in consecutive slots from `a` on, modulo 256. -/
def fill (a : Byte) : List Byte → Memory
  | [] => []
  | b :: bs => Memory.set (fill (a + 1#8) bs) a.toNat b

/-- A ring whose unread bytes are `bs`, the first in slot `rd`. -/
def ringOf (rd : Byte) (bs : List Byte) : Ring := ⟨fill rd bs, rd, rd + BitVec.ofNat 8 bs.length⟩

/-- The reset state with whole calls as turns (log 6). -/
def whole : State := { State.reset with cfg := ⟨.spin, .free, .call⟩ }

/-- That state with these bytes in `in`. -/
def withIn (bs : List Byte) : State := { whole with inR := ringOf 0#8 bs }

/-- That state with these bytes in `out`. -/
def withOut (bs : List Byte) : State := { whole with outR := ringOf 0#8 bs }

/-- A ring with these cursors in which nothing has been written; used where no slot is read. -/
def cursors (rd wr : Byte) : Ring := ⟨[], rd, wr⟩

/-- That state with this decoder. -/
def withDec (d : Dec) : State := { whole with dec := d }

/-- A decoder inside frame A of 95_test_vectors.md, as the table of W1 lists it, in each position. -/
def decAt : FramePos → Dec
  | .sync1 => ⟨.sync1, 0#8, 0#8, 0#8, 0#8, []⟩
  | .sync2 => ⟨.sync2, 0#8, 0#8, 0#8, 0#8, []⟩
  | .type => ⟨.type, 0#8, 0#8, 0#8, 0#8, []⟩
  | .length => ⟨.length, 0x53#8, 0#8, 0#8, 0#8, []⟩
  | .data => ⟨.data, 0x53#8, 4#8, 0x8B#8, 3#8, fill 0#8 [0x88#8, 0x13#8, 0x10#8]⟩
  | .checksum => ⟨.checksum, 0x53#8, 4#8, 0xAC#8, 4#8, fill 0#8 [0x88#8, 0x13#8, 0x10#8, 0x27#8]⟩
  | .cr => ⟨.cr, 0x53#8, 4#8, 0xAC#8, 4#8, fill 0#8 [0x88#8, 0x13#8, 0x10#8, 0x27#8]⟩
  | .lf => ⟨.lf, 0x53#8, 4#8, 0xAC#8, 4#8, fill 0#8 [0x88#8, 0x13#8, 0x10#8, 0x27#8]⟩

/-- That state with the decoder in this position of frame A. -/
def inFrame (st : FramePos) : State := withDec (decAt st)

/-- Frame A of 95_test_vectors.md: `Speed` 5000, 10000. -/
def frameA : List Byte := [0x24#8, 0x24#8, 0x53#8, 0x04#8, 0x88#8, 0x13#8, 0x10#8, 0x27#8, 0xAC#8, 0x0D#8, 0x0A#8]

/-- A ring in which every slot but one is unread (R23: 255 bytes). -/
def fullRing : Ring := ringOf 0#8 (List.replicate 255 0x41#8)

/-! ## WellFormed refuses ill-formed operands -/

theorem test_illformed_encode_length : Instr.wf (.encodeFrame 0x53#8 2#8 [1#8]) = false := by decide +kernel

theorem test_illformed_enqueue_length : Instr.wf (.enqueue 0x53#8 0#8 [1#8]) = false := by decide +kernel

theorem test_illformed_dispatch_224 : Instr.wf (.dispatch ⟨0x4D#8, List.replicate 224 0#8⟩) = false := by decide +kernel

theorem test_illformed_message_length : Instr.wf (.sendMessage 3 [1#8]) = false := by decide +kernel

theorem test_illformed_badop_alive : Instr.wf (.badOp 0x10#5) = false := by decide +kernel

theorem test_illformed_badop_assigned : Instr.wf (.badOp 0x00#5) = false := by decide +kernel

theorem test_illformed_speed_rest_short : Instr.wf (.frameSpeed 4#8 [0#8, 0#8, 0#8, 0#8, 0#8, 0x0D#8]) = false := by decide +kernel

theorem test_illformed_speed_rest_oversized : Instr.wf (.frameSpeed 224#8 [0#8]) = false := by decide +kernel

theorem test_illformed_message_rest : Instr.wf (.frameMessage 0#8 [0#8, 0x0D#8]) = false := by decide +kernel

theorem test_illformed_unknown_is_speed : Instr.wf (.frameUnknown 0x53#8 0#8 [0#8, 0x0D#8, 0x0A#8]) = false := by decide +kernel

theorem test_illformed_unknown_is_message : Instr.wf (.frameUnknown 0x4D#8 0#8 [0#8, 0x0D#8, 0x0A#8]) = false := by decide +kernel

theorem test_illformed_unknown_rest : Instr.wf (.frameUnknown 0x58#8 0#8 []) = false := by decide +kernel

theorem test_illformed_sync1_miss_marker : Instr.wf (.decSync1Miss 0x24#8) = false := by decide +kernel

theorem test_illformed_sync2_miss_marker : Instr.wf (.decSync2Miss 0x24#8) = false := by decide +kernel

theorem test_illformed_length_over_223 : Instr.wf (.decLengthOver 223#8) = false := by decide +kernel

theorem test_illformed_length_ok_zero : Instr.wf (.decLengthOk 0#8) = false := by decide +kernel

theorem test_illformed_length_ok_224 : Instr.wf (.decLengthOk 224#8) = false := by decide +kernel

theorem test_illformed_cr_bad_cr : Instr.wf (.decCrBad 0x0D#8) = false := by decide +kernel

theorem test_illformed_lf_bad_lf : Instr.wf (.decLfBad 0x0A#8) = false := by decide +kernel

/-! ## Words written out from the encodings (R90, R103, R104, R105, R106; operand layout: log 1, 2, 3) -/

theorem test_decode_rbPush : reads [0x00#8, 0x01#8, 0x24#8] (.rbPush .out 0x24#8) [] = true := by decide +kernel

theorem test_decode_rbPop : reads [0x01#8, 0x00#8] (.rbPop .inp) [] = true := by decide +kernel

theorem test_decode_rbAvail : reads [0x02#8, 0x01#8] (.rbAvail .out) [] = true := by decide +kernel

theorem test_decode_encode : reads [0x03#8, 0x58#8, 0x02#8, 0x01#8, 0x02#8] (.encodeFrame 0x58#8 2#8 [1#8, 2#8]) [] = true := by decide +kernel

theorem test_decode_decStep : reads [0x04#8, 0x24#8] (.decStep 0x24#8) [] = true := by decide +kernel

theorem test_decode_decReset : reads [0x05#8] (.decReset) [] = true := by decide +kernel

theorem test_decode_dispatch : reads [0x06#8, 0x4D#8, 0x02#8, 0x48#8, 0x69#8] (.dispatch ⟨0x4D#8, [0x48#8, 0x69#8]⟩) [] = true := by decide +kernel

theorem test_decode_rxByte : reads [0x07#8, 0xA5#8] (.rxByte 0xA5#8) [] = true := by decide +kernel

theorem test_decode_poll1 : reads [0x08#8] (.poll1) [] = true := by decide +kernel

theorem test_decode_pollAll : reads [0x09#8] (.pollAll) [] = true := by decide +kernel

theorem test_decode_enqueue : reads [0x0A#8, 0x53#8, 0x04#8, 0x88#8, 0x13#8, 0x10#8, 0x27#8] (.enqueue 0x53#8 4#8 [0x88#8, 0x13#8, 0x10#8, 0x27#8]) [] = true := by decide +kernel

theorem test_decode_sendSpeed : reads [0x0B#8, 0x88#8, 0x13#8, 0x10#8, 0x27#8] (.sendSpeed 5000#16 10000#16) [] = true := by decide +kernel

theorem test_decode_sendMessage : reads [0x0C#8, 0x02#8, 0x48#8, 0x69#8] (.sendMessage 2 [0x48#8, 0x69#8]) [] = true := by decide +kernel

theorem test_decode_txByte : reads [0x0D#8] (.txByte) [] = true := by decide +kernel

theorem test_decode_txFlush : reads [0x0E#8] (.txFlush) [] = true := by decide +kernel

theorem test_decode_ioFail : reads [0x0F#8] (.ioFail) [] = true := by decide +kernel

theorem test_decode_alive : reads [0x10#8] (.alive) [] = true := by decide +kernel

theorem test_decode_badOp_first : reads [0x11#8] (.badOp 0x11#5) [] = true := by decide +kernel

theorem test_decode_badOp_last : reads [0x1F#8] (.badOp 0x1F#5) [] = true := by decide +kernel

theorem test_decode_frameSpeed : reads [0x24#8, 0x24#8, 0x53#8, 0x04#8, 0x88#8, 0x13#8, 0x10#8, 0x27#8, 0xAC#8, 0x0D#8, 0x0A#8] (.frameSpeed 4#8 [0x88#8, 0x13#8, 0x10#8, 0x27#8, 0xAC#8, 0x0D#8, 0x0A#8]) [] = true := by decide +kernel

theorem test_decode_frameMessage : reads [0x24#8, 0x24#8, 0x4D#8, 0x02#8, 0x0D#8, 0x0A#8, 0x07#8, 0x0D#8, 0x0A#8] (.frameMessage 2#8 [0x0D#8, 0x0A#8, 7#8, 0x0D#8, 0x0A#8]) [] = true := by decide +kernel

theorem test_decode_frameUnknown : reads [0x24#8, 0x24#8, 0x24#8, 0x02#8, 0x24#8, 0x24#8, 0x00#8, 0x0D#8, 0x0A#8] (.frameUnknown 0x24#8 2#8 [0x24#8, 0x24#8, 0#8, 0x0D#8, 0x0A#8]) [] = true := by decide +kernel

theorem test_decode_frame_oversized : reads [0x24#8, 0x24#8, 0x53#8, 0xE0#8] (.frameSpeed 0xE0#8 []) [] = true := by decide +kernel

theorem test_decode_sync1Hit : reads [0x80#8, 0x24#8] (.decSync1Hit) [] = true := by decide +kernel

theorem test_decode_sync1Miss : reads [0x81#8, 0x41#8] (.decSync1Miss 0x41#8) [] = true := by decide +kernel

theorem test_decode_sync2Hit : reads [0x82#8, 0x24#8] (.decSync2Hit) [] = true := by decide +kernel

theorem test_decode_sync2Miss : reads [0x83#8, 0x41#8] (.decSync2Miss 0x41#8) [] = true := by decide +kernel

theorem test_decode_type : reads [0x84#8, 0x53#8] (.decType 0x53#8) [] = true := by decide +kernel

theorem test_decode_lengthZero : reads [0x85#8, 0x00#8] (.decLengthZero) [] = true := by decide +kernel

theorem test_decode_lengthOk : reads [0x86#8, 0xDF#8] (.decLengthOk 0xDF#8) [] = true := by decide +kernel

theorem test_decode_lengthOver : reads [0x87#8, 0xE0#8] (.decLengthOver 0xE0#8) [] = true := by decide +kernel

theorem test_decode_dataMore : reads [0x88#8, 0x13#8] (.decDataMore 0x13#8) [] = true := by decide +kernel

theorem test_decode_dataLast : reads [0x89#8, 0x27#8] (.decDataLast 0x27#8) [] = true := by decide +kernel

theorem test_decode_checksumOk : reads [0x8A#8, 0xAC#8] (.decChecksumOk 0xAC#8) [] = true := by decide +kernel

theorem test_decode_checksumBad : reads [0x8B#8, 0x9B#8] (.decChecksumBad 0x9B#8) [] = true := by decide +kernel

theorem test_decode_crOk : reads [0x8C#8, 0x0D#8] (.decCrOk) [] = true := by decide +kernel

theorem test_decode_crBad : reads [0x8D#8, 0x0A#8] (.decCrBad 0x0A#8) [] = true := by decide +kernel

theorem test_decode_lfOk : reads [0x8E#8, 0x0A#8] (.decLfOk) [] = true := by decide +kernel

theorem test_decode_lfBad : reads [0x8F#8, 0x0D#8] (.decLfBad 0x0D#8) [] = true := by decide +kernel

/-- A message of 255 bytes: 255 and 0 (log 2). -/
theorem test_decode_long_message :
    reads ([0x0C#8, 0xFF#8, 0x00#8] ++ List.replicate 255 0x41#8 ++ [0x08#8]) (.sendMessage 255 (List.replicate 255 0x41#8)) [0x08#8] = true := by
  decide +kernel

/-! ## Rejections, each by name -/

theorem test_reject_empty : rejects [] .truncated = true := by decide +kernel

theorem test_reject_push_short : rejects [0x00#8, 0x01#8] .truncated = true := by decide +kernel

theorem test_reject_payload_short : rejects [0x03#8, 0x53#8, 0x02#8, 0x01#8] .truncated = true := by decide +kernel

theorem test_reject_frame_short : rejects [0x24#8, 0x24#8, 0x53#8, 0x00#8, 0x00#8, 0x0D#8] .truncated = true := by decide +kernel

theorem test_reject_code_0x20 : rejects [0x20#8] .reservedByte = true := by decide +kernel

theorem test_reject_code_0xE0 : rejects [0xE0#8] .reservedByte = true := by decide +kernel

theorem test_reject_row_16 : rejects [0x90#8, 0x00#8] .reservedByte = true := by decide +kernel

theorem test_reject_ring_2 : rejects [0x01#8, 0x02#8] .badRingSelect = true := by decide +kernel

theorem test_reject_packet_224 : rejects [0x06#8, 0x4D#8, 0xE0#8] .packetTooLong = true := by decide +kernel

theorem test_reject_one_marker : rejects [0x24#8, 0x41#8] .badSync = true := by decide +kernel

theorem test_reject_sync1_hit_other : rejects [0x80#8, 0x25#8] .rowByte = true := by decide +kernel

theorem test_reject_length_ok_0 : rejects [0x86#8, 0x00#8] .rowByte = true := by decide +kernel

theorem test_reject_length_over_DF : rejects [0x87#8, 0xDF#8] .rowByte = true := by decide +kernel

theorem test_reject_cr_bad_0D : rejects [0x8D#8, 0x0D#8] .rowByte = true := by decide +kernel

/-! ## Words of the opcode table -/

theorem test_word_rbPush : decodeTableWord 8 0x00 = some (.rbPush .inp 0#8) := by decide +kernel

theorem test_word_badOp : decodeTableWord 8 0x11 = some (.badOp 0x11#5) := by decide +kernel

theorem test_word_frameSpeed : decodeTableWord 32 0x24245300 = some (.frameSpeed 0#8 [0#8, 0#8, 0#8]) := by decide +kernel

/-- The word's request runs as the first step after reset (R200). -/
theorem test_word_runs_alive :
    after (step (State.reset.withFetchWord 8 0x10)) (fun t => t.returns == [⟨.status, .liveness true⟩]) = true := by decide +kernel

/-- RX.BYTE of the zero operand byte (R191). -/
theorem test_word_runs_rxByte :
    after (step (State.reset.withFetchWord 8 0x07)) (fun t => t.inR == ⟨[(0, 0#8)], 0#8, 1#8⟩) = true := by decide +kernel

/-- A frame row begins by taking its first byte, the sync marker (R7, R108). -/
theorem test_word_runs_frameUnknown :
    after (step (State.reset.withFetchWord 32 0x24240000))
      (fun t => t.poll == some ⟨.feed [0x24#8, 0#8, 0#8, 0#8, 0#8, 0#8], .dec 0x24#8, []⟩) = true := by decide +kernel

/-! ## Ring buffer (vectors B1, B4 to B8; R127) -/

/-- B5: slot 255 is written and the write cursor wraps. -/
theorem test_push_wraps :
    after (exec (.rbPush .inp 0xAA#8) { whole with inR := cursors 3#8 255#8 })
      (fun t => t.inR == ⟨[(255, 0xAA#8)], 3#8, 0#8⟩ && t.returns == [⟨.rx, .ok⟩]) = true := by decide +kernel

/-- B7: `Full` at `wr + 1 = rd`, nothing written. -/
theorem test_push_full :
    after (exec (.rbPush .out 0xBB#8) { whole with outR := cursors 1#8 0#8 })
      (fun t => t.outR == cursors 1#8 0#8 && t.returns == [⟨.cmd, .full⟩]) = true := by decide +kernel

/-- B6: the read cursor wraps, two bytes are left. -/
theorem test_pop_wraps :
    after (exec (.rbPop .inp) { whole with inR := ⟨[(255, 0x7E#8)], 255#8, 2#8⟩ })
      (fun t => t.inR.rd == 0#8 && t.inR.count == 2#8 && t.returns == [⟨.poll, .byte 0x7E#8⟩]) = true := by decide +kernel

/-- B8: empty at any cursor value. -/
theorem test_pop_empty :
    after (exec (.rbPop .out) { whole with outR := cursors 77#8 77#8 })
      (fun t => t.outR == cursors 77#8 77#8 && t.returns == [⟨.tx, .absent⟩]) = true := by decide +kernel

/-- B4: (4 - 250) mod 256. -/
theorem test_avail_wrapped :
    after (exec (.rbAvail .inp) { whole with inR := cursors 250#8 4#8 })
      (fun t => t.returns == [⟨.status, .count 10#8⟩]) = true := by decide +kernel

/-! ## Encoder (vectors E1, E3, E7, E12, E13, E15, T7, T8, T10) -/

/-- E3: nothing is escaped. -/
theorem test_encode_no_escape :
    after (exec (.encodeFrame 0x24#8 2#8 [0x24#8, 0x24#8]) whole)
      (fun t => t.returns == [⟨.cmd, .bytes [0x24#8, 0x24#8, 0x24#8, 0x02#8, 0x24#8, 0x24#8, 0x00#8, 0x0D#8, 0x0A#8]⟩]) = true := by decide +kernel

/-- E7. -/
theorem test_encode_too_long :
    after (exec (.encodeFrame 0x4D#8 224#8 (List.replicate 224 0#8)) whole)
      (fun t => t.returns == [⟨.cmd, .tooLong⟩]) = true := by decide +kernel

/-- T10, first step: frame A fills slots 0 to 10. -/
theorem test_enqueue_frame :
    after (exec (.enqueue 0x53#8 4#8 [0x88#8, 0x13#8, 0x10#8, 0x27#8]) whole)
      (fun t => t.outR == ringOf 0#8 frameA && !t.enq.active && t.returns == [⟨.cmd, .ok⟩]) = true := by decide +kernel

/-- T7: 11 bytes needed, 5 free, policy Reject. -/
theorem test_enqueue_would_block :
    after (exec (.enqueue 0x53#8 4#8 [0x88#8, 0x13#8, 0x10#8, 0x27#8]) { whole with outR := cursors 0#8 250#8, cfg := ⟨.reject, .free, .call⟩ })
      (fun t => t.outR == cursors 0#8 250#8 && t.returns == [⟨.cmd, .wouldBlock⟩]) = true := by decide +kernel

/-- E12: values above 10000 are sent as they are. -/
theorem test_sendSpeed_no_clamp :
    after (exec (.sendSpeed 65535#16 10001#16) whole)
      (fun t => t.outR == ringOf 0#8 [0x24#8, 0x24#8, 0x53#8, 0x04#8, 0xFF#8, 0xFF#8, 0x11#8, 0x27#8, 0x36#8, 0x0D#8, 0x0A#8]) = true := by decide +kernel

/-- E13. -/
theorem test_sendMessage_empty :
    after (exec (.sendMessage 0 []) whole)
      (fun t => t.outR == ringOf 0#8 [0x24#8, 0x24#8, 0x4D#8, 0x00#8, 0x00#8, 0x0D#8, 0x0A#8]) = true := by decide +kernel

/-- E15: byte 200 is dropped; the frame, here held by a full ring, has 207 bytes and the length byte C8. -/
theorem test_sendMessage_truncates :
    after (exec (.sendMessage 201 (List.replicate 201 0x41#8)) { whole with outR := cursors 1#8 0#8 })
      (fun t => t.enq.frame.length == 207 && t.enq.frame[3]? == some 0xC8#8 && t.enq.frame[204]? == some 0#8 && t.enq.idx == 0) = true := by decide +kernel

/-! ## Decoder (vectors W1, W2, D5, D6, D8, D12, D13, D16) -/

/-- W1, index 7. -/
theorem test_decStep_data :
    after (exec (.decStep 0x27#8) (inFrame .data))
      (fun t => t.dec == decAt .checksum && t.returns == [⟨.poll, .event none⟩]) = true := by decide +kernel

/-- W2: the source's 9B. -/
theorem test_decStep_bad_checksum :
    after (exec (.decStep 0x9B#8) (inFrame .checksum))
      (fun t => t.dec.st == .sync1 && t.dec.csum == 0#8 && t.diagOut == [.checksumMismatch 0xAC#8 0x9B#8] && t.pktOut == []) = true := by decide +kernel

/-- D16: in the middle of a frame, no event. -/
theorem test_decReset_silent :
    after (exec .decReset (inFrame .data))
      (fun t => t.dec.st == .sync1 && t.dec.cnt == 0#8 && t.diagOut == [] && t.returns == []) = true := by decide +kernel

/-- R161. -/
theorem test_row_sync1Hit :
    after (exec .decSync1Hit (inFrame .sync1))
      (fun t => t.dec == decAt .sync2) = true := by decide +kernel

/-- D4: skipped silently. -/
theorem test_row_sync1Miss :
    after (exec (.decSync1Miss 0xFF#8) (inFrame .sync1))
      (fun t => t.dec == decAt .sync1 && t.diagOut == []) = true := by decide +kernel

/-- R162. -/
theorem test_row_sync2Hit :
    after (exec .decSync2Hit (inFrame .sync2))
      (fun t => t.dec == decAt .type) = true := by decide +kernel

/-- D5. -/
theorem test_row_sync2Miss :
    after (exec (.decSync2Miss 0x41#8) (inFrame .sync2))
      (fun t => t.dec == decAt .sync1 && t.diagOut == [.framingError 0x41#8]) = true := by decide +kernel

/-- W1, index 2. -/
theorem test_row_type :
    after (exec (.decType 0x53#8) (inFrame .type))
      (fun t => t.dec == decAt .length) = true := by decide +kernel

/-- D2: straight to Checksum. -/
theorem test_row_lengthZero :
    after (exec .decLengthZero (inFrame .length))
      (fun t => t.dec.st == .checksum && t.dec.plen == 0#8) = true := by decide +kernel

/-- D6. -/
theorem test_row_lengthOver :
    after (exec (.decLengthOver 0xE0#8) (inFrame .length))
      (fun t => t.dec == decAt .sync1 && t.diagOut == [.oversizedPacket 0xE0#8]) = true := by decide +kernel

/-- D8. -/
theorem test_row_lengthOk :
    after (exec (.decLengthOk 0xDF#8) (inFrame .length))
      (fun t => t.dec.st == .data && t.dec.plen == 0xDF#8 && t.dec.cnt == 0#8) = true := by decide +kernel

/-- W1, index 5. -/
theorem test_row_dataMore :
    after (exec (.decDataMore 0x13#8) (withDec ⟨.data, 0x53#8, 4#8, 0x88#8, 1#8, [(0, 0x88#8)]⟩))
      (fun t => t.dec == ⟨.data, 0x53#8, 4#8, 0x9B#8, 2#8, [(0, 0x88#8), (1, 0x13#8)]⟩) = true := by decide +kernel

/-- W1, index 7. -/
theorem test_row_dataLast :
    after (exec (.decDataLast 0x27#8) (inFrame .data))
      (fun t => t.dec == decAt .checksum) = true := by decide +kernel

/-- W1, index 8. -/
theorem test_row_checksumOk :
    after (exec (.decChecksumOk 0xAC#8) (inFrame .checksum))
      (fun t => t.dec == decAt .cr) = true := by decide +kernel

/-- D11. -/
theorem test_row_checksumBad :
    after (exec (.decChecksumBad 0xAD#8) (inFrame .checksum))
      (fun t => t.diagOut == [.checksumMismatch 0xAC#8 0xAD#8] && t.dec.plen == 0#8) = true := by decide +kernel

/-- W1, index 9. -/
theorem test_row_crOk :
    after (exec .decCrOk (inFrame .cr))
      (fun t => t.dec == decAt .lf) = true := by decide +kernel

/-- D12. -/
theorem test_row_crBad :
    after (exec (.decCrBad 0x0A#8) (inFrame .cr))
      (fun t => t.diagOut == [.terminatorMismatch .cr 0x0A#8] && t.dec.st == .sync1) = true := by decide +kernel

/-- W1, index 10: the packet; the payload store is left. -/
theorem test_row_lfOk :
    after (exec .decLfOk (inFrame .lf))
      (fun t => t.pktOut == [⟨0x53#8, [0x88#8, 0x13#8, 0x10#8, 0x27#8]⟩] && t.dec == { decAt .sync1 with pay := (decAt .lf).pay }) = true := by decide +kernel

/-- D13. -/
theorem test_row_lfBad :
    after (exec (.decLfBad 0x0D#8) (inFrame .lf))
      (fun t => t.diagOut == [.terminatorMismatch .lf 0x0D#8] && t.pktOut == []) = true := by decide +kernel

/-! ## Dispatcher and unassigned codes (vectors X3, X7, X8, X12, O3) -/

/-- X3: 10001 is clamped, 0 passes. -/
theorem test_dispatch_clamps :
    after (exec (.dispatch ⟨0x53#8, [0x11#8, 0x27#8, 0#8, 0#8]⟩) whole)
      (fun t => t.motorOut == [⟨10000#16, 0#16⟩]) = true := by decide +kernel

/-- X7: no `set_speeds` from the first four bytes. -/
theorem test_dispatch_five_bytes :
    after (exec (.dispatch ⟨0x53#8, [0x88#8, 0x13#8, 0x10#8, 0x27#8, 0#8]⟩) whole)
      (fun t => t.motorOut == [] && t.diagOut == [.speedLengthInvalid 5]) = true := by decide +kernel

/-- O3. -/
theorem test_badOp :
    after (exec (.badOp 0x1F#5) whole)
      (fun t => t == { whole with returns := [⟨.status, .badOp⟩] }) = true := by decide +kernel

/-! ## Transport (vectors T1, T2, T3, T4, T6, T10) -/

/-- T4, the 256th: `Full`, no diagnostic. -/
theorem test_rxByte_lost :
    after (exec (.rxByte 0#8) { whole with inR := cursors 0#8 255#8 })
      (fun t => t.inR == cursors 0#8 255#8 && t.returns == [⟨.rx, .full⟩] && t.diagOut == []) = true := by decide +kernel

/-- T4, the first. -/
theorem test_rxByte_first :
    after (exec (.rxByte 0x24#8) whole)
      (fun t => t.inR == ⟨[(0, 0x24#8)], 0#8, 1#8⟩ && t.returns == [⟨.rx, .ok⟩]) = true := by decide +kernel

/-- T3, the first POLL1: `None`, the decoder stays in the frame. -/
theorem test_poll1_half_frame :
    after (exec .poll1 (withIn [0x24#8, 0x24#8, 0x53#8, 0x04#8, 0x88#8, 0x13#8]))
      (fun t => t.returns == [⟨.poll, .absent⟩] && t.dec.st == .data && t.dec.cnt == 2#8 && t.dec.csum == 0x9B#8) = true := by decide +kernel

/-- T3, the second POLL1: the frame the first one left half received is completed (R37). -/
theorem test_poll1_continues :
    after (exec .poll1 { inFrame .data with inR := ringOf 0#8 [0x27#8, 0xAC#8, 0x0D#8, 0x0A#8] })
      (fun t => t.returns == [⟨.poll, .packet ⟨0x53#8, [0x88#8, 0x13#8, 0x10#8, 0x27#8]⟩⟩] && t.dec.st == .sync1) = true := by decide +kernel

/-- T1, the first POLL1, with the next frame's first byte behind. -/
theorem test_poll1_one_packet :
    after (exec .poll1 (withIn (frameA ++ [0x24#8])))
      (fun t => t.inR.count == 1#8 && t.motorOut == [⟨5000#16, 10000#16⟩] && t.poll == none) = true := by decide +kernel

/-- T2 with two short frames: both packets in order. -/
theorem test_pollAll_two :
    after (exec .pollAll (withIn [0x24#8, 0x24#8, 0x58#8, 0x00#8, 0x00#8, 0x0D#8, 0x0A#8, 0x24#8, 0x24#8, 0x4D#8, 0x00#8, 0x00#8, 0x0D#8, 0x0A#8]))
      (fun t => t.returns == [⟨.poll, .packets [⟨0x58#8, []⟩, ⟨0x4D#8, []⟩]⟩] && t.inR.count == 0#8 && t.telemOut == [[]]) = true := by decide +kernel

/-- T10, second step. -/
theorem test_txByte :
    after (exec .txByte (withOut frameA))
      (fun t => t.wireOut == [0x24#8] && t.outR.rd == 1#8 && t.returns == [⟨.tx, .byte 0x24#8⟩]) = true := by decide +kernel

/-- T10 without its TX.BYTE. -/
theorem test_txFlush :
    after (exec .txFlush (withOut frameA))
      (fun t => t.wireOut == frameA && t.outR.rd == 11#8 && t.outR.wr == 11#8) = true := by decide +kernel

/-- T6: the second adds nothing. -/
theorem test_ioFail_twice :
    after (exec .ioFail { whole with alive := false })
      (fun t => t == { whole with alive := false }) = true := by decide +kernel

/-- T6. -/
theorem test_alive_dead :
    after (exec .alive { whole with alive := false })
      (fun t => t.returns == [⟨.status, .liveness false⟩]) = true := by decide +kernel

/-- T6: `Dead`, nothing sent. -/
theorem test_dead_txFlush :
    after (exec .txFlush { withOut frameA with alive := false })
      (fun t => t.wireOut == [] && t.returns == [⟨.tx, .dead⟩]) = true := by decide +kernel

/-! ## Frames and turns -/

/-- W1, whole. -/
theorem test_frameSpeed :
    after (exec (.frameSpeed 4#8 (frameA.drop 4)) whole)
      (fun t => t.motorOut == [⟨5000#16, 10000#16⟩] && t.dec.st == .sync1) = true := by decide +kernel

/-- E5 with one byte. -/
theorem test_frameMessage :
    after (exec (.frameMessage 1#8 [0x68#8, 0x68#8, 0x0D#8, 0x0A#8]) whole)
      (fun t => t.telemOut == [[0x68#8]] && t.diagOut == [.messageText [0x68#8]]) = true := by decide +kernel

/-- X11 as a frame. -/
theorem test_frameUnknown :
    after (exec (.frameUnknown 0x58#8 2#8 [1#8, 2#8, 3#8, 0x0D#8, 0x0A#8]) whole)
      (fun t => t.diagOut == [.unknownPacketType 0x58#8] && t.pktOut.length == 1) = true := by decide +kernel

/-- One primitive step of POLL1 takes one byte (R192). -/
theorem test_step_primitive :
    after (step { withIn frameA with ports := { Ports.empty with poll := [0x08#8] }, sched := [.agent .poll], cfg := ⟨.spin, .free, .primitive⟩ })
      (fun t => t.inR.rd == 1#8 && t.poll == some ⟨.one, .dec 0x24#8, []⟩ && t.returns == []) = true := by decide +kernel

/-- R270: back to the reset state, the settings kept. -/
theorem test_step_reset :
    after (step { inFrame .data with alive := false, sched := [.reset] })
      (fun t => t == whole) = true := by decide +kernel

/-- R12: under Reject the first step of an ENQUEUE is its ENCODE, the test of the room and the pushes are still to come. -/
theorem test_step_encode :
    after (step { State.reset with ports := { Ports.empty with cmd := [0x0A#8, 0x58#8, 0#8] }, sched := [.agent .cmd], cfg := ⟨.reject, .free, .primitive⟩ })
      (fun t => t.enq.pending == some [0x24#8, 0x24#8, 0x58#8, 0x00#8, 0x00#8, 0x0D#8, 0x0A#8] && !t.enq.active && t.outR == Ring.reset) = true := by decide +kernel

/-- R195: the test of the room is a step of its own. -/
theorem test_step_room :
    after (step { State.reset with enq := ⟨false, [], 0, some frameA⟩, sched := [.agent .cmd], cfg := ⟨.reject, .free, .primitive⟩ })
      (fun t => t.enq == ⟨true, frameA, 0, none⟩ && t.outR == Ring.reset && t.returns == []) = true := by decide +kernel

/-- R194: then one byte a step. -/
theorem test_step_push :
    after (step { State.reset with enq := ⟨true, frameA, 0, none⟩, sched := [.agent .cmd] })
      (fun t => t.enq.idx == 1 && t.outR == ringOf 0#8 [0x24#8]) = true := by decide +kernel

/-- An agent may issue only its own operations and the STATUS ones (U5, R259; log 13). -/
theorem test_role_refused :
    step { whole with ports := { Ports.empty with rx := [0x0D#8] }, sched := [.agent .rx] } = .refused .roleViolation := rfl

/-- IO.FAIL is never issued on the device (R203; log 7). -/
theorem test_device_ioFail_refused :
    step { whole with ports := { Ports.empty with fault := [0x0F#8] }, sched := [.agent .fault], cfg := ⟨.spin, .device, .call⟩ } =
      .refused .hostOnly := rfl

/-- A slot that holds no value cannot be read (U1; log 9). -/
theorem test_dead_slot_faults : exec (.rbPop .inp) { whole with inR := cursors 0#8 1#8 } = .fault .slotWithoutValue := rfl

/-! ## Witnesses: states and operands that meet every hypothesis of a statement -/

/-- A decoder in each position of frame A is one of R35. -/
theorem decAt_sound (st : FramePos) : (decAt st).sound := by
  cases st <;> refine ⟨by decide +kernel, by decide +kernel, by decide +kernel, ?_⟩ <;> simp only [decAt] <;> decide +kernel

theorem ring_reset_sound : Ring.reset.sound := by decide +kernel

theorem inFrame_sound (st : FramePos) : (inFrame st).sound :=
  ⟨ring_reset_sound, ring_reset_sound, decAt_sound st, nofun, nofun⟩

/-- The filled slots read as the bytes filled in, as long as they do not run into each other. -/
theorem readSlots_fill (bs : List Byte) : ∀ a : Byte, bs.length ≤ 256 → readSlots (fill a bs) a bs.length = bs.map some := by
  induction bs with
  | nil => intro a _; rfl
  | cons b bs ih =>
    intro a h
    simp only [List.length_cons] at h
    simp only [fill, List.length_cons, readSlots, get_set_same, List.map_cons]
    rw [readSlots_set, ih _ (by omega)]
    intro k hk
    bv_omega

theorem ringOf_holds (rd : Byte) (bs : List Byte) (h : bs.length ≤ 255) : (ringOf rd bs).holds bs := by
  have hc : (ringOf rd bs).count.toNat = bs.length := by
    simp only [Ring.count, ringOf]; bv_omega
  rw [Ring.holds, Ring.unread, hc]
  exact readSlots_fill bs rd (by omega)

theorem fullRing_holds : fullRing.holds (List.replicate 255 0x41#8) := ringOf_holds _ _ (by rw [List.length_replicate])

/-- Two packets, one of them the shortest, and the longest payload. -/
def packetA : Packet := ⟨0x53#8, [0x88#8, 0x13#8, 0x10#8, 0x27#8]⟩

def packetEmpty : Packet := ⟨0x4D#8, []⟩

def longest : List Byte := List.replicate 223 0x41#8

theorem witness_push_full : (State.ring { whole with inR := cursors 0#8 255#8 } .inp).wr + 1#8 =
    (State.ring { whole with inR := cursors 0#8 255#8 } .inp).rd := by decide +kernel

theorem witness_push_room : (State.ring { whole with outR := cursors 0#8 254#8 } .out).wr + 1#8 ≠
    (State.ring { whole with outR := cursors 0#8 254#8 } .out).rd := by decide +kernel

theorem witness_pop_empty : (State.ring whole .inp).wr = (State.ring whole .inp).rd := by decide +kernel

theorem witness_pop_byte : ((withIn [7#8]).ring .inp).wr ≠ ((withIn [7#8]).ring .inp).rd ∧
    Memory.get ((withIn [7#8]).ring .inp).buf ((withIn [7#8]).ring .inp).rd.toNat = some 7#8 := by decide +kernel

/-- An empty ring, one with two bytes across the wrap, and a full one. -/
theorem witness_fifo : (State.ring whole .out).holds [] ∧ (ringOf 255#8 [1#8, 2#8]).holds [1#8, 2#8] ∧
    fullRing.holds (List.replicate 255 0x41#8) := ⟨rfl, rfl, fullRing_holds⟩

theorem witness_capacity : (State.ring { whole with inR := cursors 77#8 77#8 } .inp).wr =
    (State.ring { whole with inR := cursors 77#8 77#8 } .inp).rd ∧ (List.replicate 255 (0#8 : Byte)).length = 255 := by
  decide +kernel

theorem witness_commute : ((withIn [7#8]).ring .inp).wr ≠ ((withIn [7#8]).ring .inp).rd ∧
    ((withIn [7#8]).ring .inp).wr + 1#8 ≠ ((withIn [7#8]).ring .inp).rd ∧
    Memory.get ((withIn [7#8]).ring .inp).buf ((withIn [7#8]).ring .inp).rd.toNat = some 7#8 := by decide +kernel

theorem witness_commute_other : ∃ x s1, ringPop (otherRing .out) (withIn [7#8]) = .ok (x, s1) := ⟨_, _, rfl⟩

theorem witness_encode : (0#8 : Byte).toNat ≤ 223 ∧ ([] : List Byte).length = (0#8 : Byte).toNat ∧
    (223#8 : Byte).toNat ≤ 223 ∧ longest.length = (223#8 : Byte).toNat := by decide +kernel

theorem witness_tooLong : 224 ≤ (224#8 : Byte).toNat ∧ 224 ≤ (255#8 : Byte).toNat ∧ whole.alive = true ∧
    whole.enq.busy = false := by decide +kernel

/-- The three operations that send, the first one filling `out` to its last byte. -/
theorem witness_enqueue_room :
    sentPacket (.enqueue 0x53#8 4#8 packetA.payload) = some packetA ∧ sentPacket (.sendSpeed 5000#16 10000#16) = some packetA ∧
    sentPacket (.sendMessage 0 []) = some packetEmpty ∧ whole.alive = true ∧ whole.enq.busy = false ∧
    whole.cfg.grain = .call ∧ (withOut (List.replicate 244 0#8)).outR.holds (List.replicate 244 0#8) ∧
    (List.replicate 244 (0#8 : Byte)).length + (packetA.payload.length + 7) ≤ 255 :=
  ⟨rfl, rfl, rfl, rfl, rfl, rfl, ringOf_holds _ _ (by decide +kernel), by decide +kernel⟩

/-- One byte more than fits, and a full ring. -/
theorem witness_enqueue_spin :
    sentPacket (.sendSpeed 5000#16 10000#16) = some packetA ∧ whole.cfg.policy = .spin ∧
    (withOut (List.replicate 245 0#8)).outR.holds (List.replicate 245 0#8) ∧
    255 < (List.replicate 245 (0#8 : Byte)).length + (packetA.payload.length + 7) ∧
    fullRing.holds (List.replicate 255 0x41#8) ∧ (List.replicate 255 (0x41#8 : Byte)).length ≤ 255 :=
  ⟨rfl, rfl, ringOf_holds _ _ (by decide +kernel), by decide +kernel, fullRing_holds, by decide +kernel⟩

/-- An ENQUEUE in flight, at its last byte and before it, behind a full ring. -/
def heldAt (idx : Nat) : State := { whole with outR := fullRing, enq := ⟨true, frameA, idx, none⟩ }

theorem witness_held : (heldAt 3).enq.active = true ∧ (heldAt 3).enq.frame[(heldAt 3).enq.idx]? = some 4#8 ∧
    (heldAt 10).enq.frame[(heldAt 10).enq.idx]? = some 0x0A#8 ∧ (heldAt 3).outR.isFull = true ∧ (heldAt 3).alive = true ∧
    (heldAt 3).enq.pending = none ∧ threadBusy .cmd (heldAt 3) = false ∧ Memory.get (heldAt 3).outR.buf (heldAt 3).outR.rd.toNat = some 0x41#8 := by decide +kernel

/-- An ENQUEUE under Reject whose room is still to be tested, in a turn of one primitive step. -/
def untested : State :=
  { State.reset with outR := cursors 0#8 249#8, enq := ⟨false, [], 0, some frameA⟩, cfg := ⟨.reject, .free, .primitive⟩ }

theorem witness_untested : untested.enq.pending = some frameA ∧ untested.enq.active = false ∧ threadBusy .cmd untested = false ∧
    untested.outR.free < frameA.length := by decide +kernel

/-- The first step of a sending operation, under either policy. -/
theorem witness_enqueue_encode : sentPacket (.sendMessage 0 []) = some packetEmpty ∧ State.reset.alive = true ∧
    State.reset.enq.busy = false ∧ State.reset.cfg.grain = .primitive ∧ State.reset.cfg.policy = .spin ∧
    (⟨.reject, .free, .primitive⟩ : Config).policy = .reject := by decide +kernel

theorem witness_reject : sentPacket (.sendMessage 0 []) = some packetEmpty ∧
    (⟨.reject, .free, .call⟩ : Config).policy = .reject ∧
    (cursors 0#8 249#8).free < packetEmpty.payload.length + 7 := by decide +kernel

/-- A decoder in each of the eight states. -/
theorem witness_states : ∀ st ∈ [FramePos.sync1, .sync2, .type, .length, .data, .checksum, .cr, .lf], (inFrame st).dec.st = st := by
  decide +kernel

theorem witness_length : (0#8 : Byte) = 0#8 ∧ 1 ≤ (1#8 : Byte).toNat ∧ (223#8 : Byte).toNat ≤ 223 ∧ 224 ≤ (224#8 : Byte).toNat := by
  decide

/-- The first and the last index of the payload store. -/
theorem witness_data : (inFrame .data).dec.cnt.toNat ≤ 222 ∧
    (withDec ⟨.data, 0#8, 223#8, 0#8, 222#8, []⟩).dec.cnt.toNat ≤ 222 ∧ (withDec ⟨.data, 0#8, 1#8, 0#8, 0#8, []⟩).dec.cnt.toNat ≤ 222 := by
  decide +kernel

theorem witness_checksum : (0xAC#8 : Byte) = (inFrame .checksum).dec.csum ∧ (0x9B#8 : Byte) ≠ (inFrame .checksum).dec.csum := by
  decide +kernel

theorem witness_lf : (inFrame .lf).dec.st = .lf ∧ packetA.payload.length = (inFrame .lf).dec.plen.toNat ∧
    ∀ k, k < packetA.payload.length → Memory.get (inFrame .lf).dec.pay k = packetA.payload[k]? := by decide +kernel

/-- Each of the sixteen rows is selected in a decoder of R35. -/
theorem witness_rows : ∀ x ∈ [(Instr.decSync1Hit, FramePos.sync1), (.decSync1Miss 0#8, .sync1), (.decSync2Hit, .sync2),
      (.decSync2Miss 0#8, .sync2), (.decType 0#8, .type), (.decLengthZero, .length), (.decLengthOver 224#8, .length),
      (.decLengthOk 223#8, .length), (.decDataLast 0#8, .data), (.decChecksumOk 0xAC#8, .checksum),
      (.decChecksumBad 0#8, .checksum), (.decCrOk, .cr), (.decCrBad 0x0A#8, .cr), (.decLfOk, .lf), (.decLfBad 0x0D#8, .lf)],
    (rowByte x.1).isSome ∧ rowSelected (inFrame x.2).dec x.1 = true ∧ (inFrame x.2).dec = decAt x.2 := by decide +kernel

theorem witness_row_dataMore : rowByte (.decDataMore 0x13#8) = some 0x13#8 ∧
    rowSelected ⟨.data, 0x53#8, 4#8, 0x88#8, 1#8, [(0, 0x88#8)]⟩ (.decDataMore 0x13#8) = true ∧
    Dec.sound ⟨.data, 0x53#8, 4#8, 0x88#8, 1#8, [(0, 0x88#8)]⟩ := by
  refine ⟨by decide +kernel, by decide +kernel, by decide +kernel, by decide +kernel, by decide +kernel, ?_⟩
  decide +kernel

theorem witness_row_refused : rowByte .decCrOk = some 0x0D#8 ∧ rowSelected whole.dec .decCrOk = false := by decide +kernel

theorem witness_decStep_next : ∃ t, exec (.decStep 0x41#8) whole = .next t := ⟨_, rfl⟩

theorem witness_frame_error : ∃ t, exec (.decStep 0x41#8) (inFrame .cr) = .next t ∧
    t.returns = (inFrame .cr).returns ++ [⟨.poll, .event (some (.diag (.terminatorMismatch .cr 0x41#8)))⟩] := ⟨_, rfl, rfl⟩

/-- The initial decoder of the feeding statements, and payloads at both ends of the range. -/
theorem witness_feed : whole.dec.initial ∧ packetEmpty.payload.length ≤ 223 ∧ longest.length ≤ 223 := by decide +kernel

theorem witness_flipped : packetA.payload.length ≤ 223 ∧ packetA.payload[3]? = some 0x27#8 ∧ 7 < 8 := by decide

theorem witness_garbage : ∀ g ∈ [0x00#8, 0xFF#8, 0x41#8], g ≠ 0x24#8 := by decide

theorem witness_missing_lf : packetA.ptype ≠ 0x24#8 ∧ ∀ x ∈ (wireFrame packetA.ptype packetA.payload).drop 3, x ≠ 0x24#8 := by
  decide +kernel

theorem witness_speed_length : [0x88#8, 0x13#8].length ≠ 4 ∧ ([] : List Byte).length ≠ 4 := by decide

theorem witness_unknown : (⟨0x73#8, []⟩ : Packet).ptype ≠ 0x53#8 ∧ (⟨0x73#8, []⟩ : Packet).ptype ≠ 0x4D#8 := by decide

theorem witness_badOp : 0x11 ≤ (0x11#5).toNat ∧ 0x11 ≤ (0x1F#5).toNat := by decide

theorem witness_rxByte : whole.alive = true ∧ fullRing.holds (List.replicate 255 0x41#8) ∧
    (List.replicate 255 (0x41#8 : Byte)).length = 255 ∧ (ringOf 3#8 (List.replicate 254 0#8)).holds (List.replicate 254 0#8) ∧
    (List.replicate 254 (0#8 : Byte)).length < 255 :=
  ⟨rfl, fullRing_holds, by decide +kernel, ringOf_holds _ _ (by decide +kernel), by decide +kernel⟩

/-- A decoder inside a frame, and in `in` the rest of that frame and the start of the next (R37). -/
def midFrame : State := { inFrame .data with inR := ringOf 0#8 [0x27#8, 0xAC#8, 0x0D#8, 0x0A#8, 0x24#8] }

theorem midFrame_sound : midFrame.sound :=
  ⟨by decide +kernel, ring_reset_sound, decAt_sound .data, nofun, nofun⟩

theorem witness_poll : midFrame.sound ∧ midFrame.alive = true ∧ midFrame.poll = none ∧ midFrame.cfg.grain = .call ∧
    midFrame.inR.holds [0x27#8, 0xAC#8, 0x0D#8, 0x0A#8, 0x24#8] ∧ (inFrame .data).sound ∧ (inFrame .data).inR.holds [] :=
  ⟨midFrame_sound, rfl, rfl, rfl, rfl, inFrame_sound .data, rfl⟩

theorem witness_poll1 : (withIn (frameA ++ [0x24#8])).dec.initial ∧ (withIn (frameA ++ [0x24#8])).alive = true ∧
    (withIn (frameA ++ [0x24#8])).inR.holds (wireFrame packetA.ptype packetA.payload ++ [0x24#8]) := by
  unfold Ring.holds; decide +kernel

/-- No frame, and three. -/
theorem witness_pollAll_list : whole.inR.holds (([] : List Packet).map fun p => wireFrame p.ptype p.payload).flatten ∧
    (withIn (frameA ++ [0x24#8, 0x24#8, 0x4D#8, 0#8, 0#8, 0x0D#8, 0x0A#8] ++ frameA)).inR.holds
      ([packetA, packetEmpty, packetA].map fun p => wireFrame p.ptype p.payload).flatten ∧
    ∀ p ∈ [packetA, packetEmpty, packetA], p.payload.length ≤ 223 := by
  unfold Ring.holds; decide +kernel

theorem witness_pollAll : (withIn (frameA ++ frameA)).dec.initial ∧
    (withIn (frameA ++ frameA)).inR.holds
      (wireFrame packetA.ptype packetA.payload ++ wireFrame packetA.ptype packetA.payload) := by
  unfold Ring.holds; decide +kernel

/-- A whole POLL1 and an ENQUEUE that ends held. -/
theorem witness_whole : Instr.poll1.wf = true ∧ home .poll1 = .poll ∧
    (∃ t, exec .poll1 ({ whole with ports := { Ports.empty with poll := [0x08#8] } }.setPort .poll []) = .next t) ∧
    whole.cfg.threads = .free ∧ Ports.get { Ports.empty with poll := [0x08#8] } .poll = encode .poll1 :=
  ⟨rfl, rfl, ⟨_, rfl⟩, rfl, rfl⟩

theorem witness_whole_cmd : (Instr.sendMessage 0 []).wf = true ∧ home (.sendMessage 0 []) = .cmd ∧
    (∃ t, exec (.sendMessage 0 []) ({ whole with outR := cursors 1#8 0#8 }.setPort .cmd []) = .next t) :=
  ⟨rfl, rfl, ⟨_, rfl⟩⟩

theorem witness_txByte : whole.outR.holds [] ∧ (withOut [7#8]).outR.holds (7#8 :: []) ∧
    fullRing.holds (0x41#8 :: List.replicate 254 0x41#8) := ⟨rfl, rfl, fullRing_holds⟩

theorem witness_alive_bits : whole.alive = true ∧ State.alive { whole with alive := false } = false := by decide

theorem witness_second_call : (State.poll { whole with poll := some ⟨.one, .pop, []⟩ }).isSome = true ∧
    (heldAt 3).enq.busy = true ∧ (heldAt 3).alive = true := ⟨rfl, rfl, rfl⟩

theorem witness_valueless : (State.ring { whole with inR := cursors 255#8 0#8 } .inp).wr ≠
      (State.ring { whole with inR := cursors 255#8 0#8 } .inp).rd ∧
    Memory.get (State.ring { whole with inR := cursors 255#8 0#8 } .inp).buf 255 = none ∧
    223 ≤ (Dec.cnt ⟨.data, 0#8, 255#8, 0#8, 223#8, []⟩).toNat ∧
    0 < (Dec.plen ⟨.lf, 0#8, 1#8, 0#8, 1#8, []⟩).toNat ∧ Memory.get (Dec.pay ⟨.lf, 0#8, 1#8, 0#8, 1#8, []⟩) 0 = none := by decide +kernel

theorem witness_frame_row : packetA.payload.length ≤ 223 ∧ whole.dec.initial ∧ whole.poll = none ∧
    whole.cfg.grain = .call := by decide +kernel

theorem witness_frame_feed : (inFrame .checksum).sound ∧ (inFrame .checksum).poll = none ∧ (inFrame .checksum).cfg.grain = .call :=
  ⟨inFrame_sound .checksum, rfl, rfl⟩

/-- Two blocks at reset meet the premises of the end-to-end statements. -/
theorem witness_two_blocks : whole.alive = true ∧ whole.enq.busy = false ∧ whole.cfg.grain = .call ∧
    whole.outR.holds [] ∧ whole.poll = none ∧ whole.inR.holds [] ∧ whole.dec.initial := by
  unfold Ring.holds; decide +kernel

/-- A sound state in the middle of a frame, with a DEC.STEP on its port and the polling agent's turn next. -/
def stepping : State := { inFrame .data with ports := { Ports.empty with poll := [0x04#8, 0x27#8] }, sched := [.agent .poll] }

theorem witness_step : stepping.sound ∧ (∃ t, step stepping = .next t) ∧ (∀ ts, stepping.sched ≠ .reset :: ts) :=
  ⟨inFrame_sound .data, ⟨_, rfl⟩, fun _ h => by simp [stepping] at h⟩

theorem witness_step_primitive : (∃ t, step { stepping with cfg := ⟨.spin, .free, .primitive⟩ } = .next t) ∧
    (State.cfg { stepping with cfg := ⟨.spin, .free, .primitive⟩ }).grain = .primitive := ⟨⟨_, rfl⟩, rfl⟩

theorem witness_step_dead : (∃ t, step { stepping with alive := false } = .next t) ∧
    State.alive { stepping with alive := false } = false := ⟨⟨_, rfl⟩, rfl⟩

/-- On the device a step that changes something, and a FAULT turn that would issue IO.FAIL. -/
theorem witness_step_device : (∃ t, step { stepping with cfg := ⟨.spin, .device, .primitive⟩ } = .next t) ∧
    (State.cfg { stepping with cfg := ⟨.spin, .device, .primitive⟩ }).threads = .device ∧
    decode (Ports.get { Ports.empty with fault := [0x0F#8] } .fault) = .ok (.ioFail, []) := ⟨⟨_, rfl⟩, rfl, rfl⟩

/-- An operation of every agent completes. -/
theorem witness_agents : (∃ t, exec (.rxByte 0#8) whole = .next t) ∧ home (.rxByte 0#8) = .rx ∧
    (∃ t, exec .poll1 whole = .next t) ∧ home .poll1 = .poll ∧
    (∃ t, exec (.encodeFrame 0#8 0#8 []) whole = .next t) ∧ home (.encodeFrame 0#8 0#8 []) = .cmd ∧
    (∃ t, exec .txByte whole = .next t) ∧ home .txByte = .tx ∧
    (∃ t, exec .ioFail whole = .next t) ∧ home .ioFail = .fault ∧
    (∃ t, exec .alive whole = .next t) ∧ home .alive = .status :=
  ⟨⟨_, rfl⟩, rfl, ⟨_, rfl⟩, rfl, ⟨_, rfl⟩, rfl, ⟨_, rfl⟩, rfl, ⟨_, rfl⟩, rfl, ⟨_, rfl⟩, rfl⟩

theorem witness_reset_turn : State.sched { inFrame .lf with sched := [.reset] } = .reset :: [] := rfl

theorem witness_step_decodes : stepping.sched = .agent .poll :: [] ∧ threadBusy .poll stepping = false ∧ stepping.poll = none ∧
    decode (stepping.ports.get .poll) = .ok (.decStep 0x27#8, []) ∧ mayIssue .poll (.decStep 0x27#8) = true ∧
    variantAdmits stepping.cfg.threads (.decStep 0x27#8) = true ∧ (Instr.decStep 0x27#8).wf = true := ⟨rfl, rfl, rfl, rfl, rfl, rfl, rfl⟩

theorem witness_device : State.sched { heldAt 3 with sched := [.agent .poll], cfg := ⟨.spin, .device, .call⟩ } = .agent .poll :: [] ∧
    (State.cfg { heldAt 3 with sched := [.agent .poll], cfg := ⟨.spin, .device, .call⟩ }).threads = .device ∧
    (heldAt 3).enq.busy = true := ⟨rfl, rfl, rfl⟩

theorem witness_wf : (Instr.frameSpeed 4#8 (frameA.drop 4)).wf = true ∧ (Instr.frameMessage 224#8 []).wf = true ∧
    (Instr.sendMessage 0 []).wf = true ∧ (Instr.badOp 0x11#5).wf = true ∧ (Instr.decLengthOver 224#8).wf = true := by decide +kernel

end Sys2Proof.Tests
end

section
/-! SUPPORT. The vocabulary of the statements: frames of an operation, and the bytes a ring holds. -/

namespace Sys2Proof.Machine

/-! ## What an operation leaves alone -/

theorem onlyChanges_refl (parts : List Part) (s : State) : OnlyChanges parts s s := by
  intro p _; cases p <;> rfl

theorem onlyChanges_trans {parts : List Part} {s t u : State} (h : OnlyChanges parts s t) (h' : OnlyChanges parts t u) :
    OnlyChanges parts s u := by
  intro p hp
  have h1 := h p hp
  have h2 := h' p hp
  cases p <;> exact Eq.trans h2 h1

theorem onlyChanges_mono {parts parts' : List Part} {s t : State} (hsub : parts ⊆ parts') (h : OnlyChanges parts s t) :
    OnlyChanges parts' s t := fun p hp => h p fun hmem => hp (hsub hmem)

theorem onlyChanges_setEnq (s : State) (e : Enq) : OnlyChanges [.enq] s (s.setEnq e) := by
  intro p hp; cases p <;> simp [Part.same] at hp ⊢

theorem onlyChanges_answer (s : State) (a : Agent) (v : Result) : OnlyChanges [.returns] s (s.answer a v) := by
  intro p hp; cases p <;> simp [Part.same] at hp ⊢

theorem onlyChanges_setRing (s : State) (r : RingSel) (ρ : Ring) : OnlyChanges [ringPart r] s (s.setRing r ρ) := by
  intro p hp; cases r <;> cases p <;> simp [Part.same, ringPart] at hp ⊢

theorem onlyChanges_ringPush (r : RingSel) (b : Byte) (s : State) : OnlyChanges [ringPart r] s (ringPush r b s).2 := by
  rcases ringPush_cases r b s with ⟨_, e⟩ | ⟨_, e⟩ <;> rw [e]
  · exact onlyChanges_refl _ s
  · exact onlyChanges_setRing s r _

/-! ## The bytes a ring holds -/

/-- `Count(r)` is the number of bytes held (R23). -/
theorem holds_length {r : Ring} {bs : List Byte} (h : r.holds bs) : bs.length = r.count.toNat := by
  have := congrArg List.length h
  rwa [Ring.unread, readSlots_length, List.length_map, eq_comm] at this

theorem isFull_eq_false_of_holds {r : Ring} {bs : List Byte} (h : r.holds bs) (hlt : bs.length < 255) : r.isFull = false := by
  rw [Bool.eq_false_iff, Ne, isFull_iff_count]
  intro hc
  rw [holds_length h, hc] at hlt
  exact absurd hlt (by decide)

/-- The write cursor is `Count(r)` slots after the read cursor (R25). -/
theorem rd_add_count (r : Ring) : r.rd + r.count = r.wr := by
  unfold Ring.count; bv_omega

/-- A push into a ring that is not full appends its byte to the unread ones and leaves the read cursor (R120). -/
theorem ringPush_holds (r : RingSel) (b : Byte) (s : State) (bs : List Byte) (h : (s.ring r).holds bs)
    (hlt : bs.length < 255) :
    ((ringPush r b s).2.ring r).holds (bs ++ [b]) ∧ ((ringPush r b s).2.ring r).rd = (s.ring r).rd := by
  have hf := isFull_eq_false_of_holds h hlt
  have hlen := holds_length h
  rcases ringPush_cases r b s with ⟨hf', _⟩ | ⟨_, e⟩
  · rw [hf] at hf'; cases hf'
  · rw [e, setRing_ring]
    generalize s.ring r = ρ at h hlen
    refine ⟨?_, rfl⟩
    have hcount : ((ρ.wr + 1#8) - ρ.rd).toNat = ρ.count.toNat + 1 := by
      unfold Ring.count at hlen ⊢; bv_omega
    unfold Ring.holds Ring.unread at h ⊢
    rw [show (Ring.count ⟨_, _, _⟩).toNat = ρ.count.toNat + 1 from hcount, readSlots_snoc, List.map_append, ← h]
    congr 1
    · exact readSlots_set _ _ _ _ _ fun k hk => slot_ne_wr ρ k hk
    · simp [rd_add_count]

end Sys2Proof.Machine
end

section
/-! SUPPORT. ENCODE, and the steps of an ENQUEUE: its beginning, the room test, the pushes (R140, R194, R195). -/

namespace Sys2Proof.Machine

/-! ## ENCODE -/

theorem foldl_xor_eq_checksum (bs : List Byte) : ∀ b, bs.foldl (· ^^^ ·) b = b ^^^ checksum bs := by
  induction bs with
  | nil => intro b; simp [checksum]
  | cons c bs ih => intro b; rw [List.foldl_cons, ih, checksum, BitVec.xor_assoc]

theorem wireFrame_length (ptype : Byte) (payload : List Byte) : (wireFrame ptype payload).length = payload.length + 7 := by
  simp [wireFrame]

/-- ENCODE of a payload that fits is the frame written out (R90, R140). -/
theorem encodedFrame_eq_wireFrame (ptype len : Byte) (payload : List Byte) (hp : payload.length = len.toNat)
    (hl : len.toNat ≤ 223) : encodedFrame ptype len payload = some (wireFrame ptype payload) := by
  have hlen : BitVec.ofNat 8 payload.length = len := by rw [hp]; simp
  rw [encodedFrame, if_neg (by simpa using hl), ← hp, List.take_length]
  simp [frameBytes, wireFrame, hlen, foldl_xor_eq_checksum]

theorem encodedFrame_tooLong (ptype len : Byte) (payload : List Byte) (hl : 224 ≤ len.toNat) :
    encodedFrame ptype len payload = none := if_pos (show 223 < len.toNat from hl)

/-! ## ENQUEUE begins -/

theorem enqueuePacket_dead (ptype len : Byte) (payload : List Byte) (s : State) (ha : s.alive = false) :
    enqueuePacket ptype len payload s = .next (s.answer .cmd .dead) := by
  simp [enqueuePacket, whenAlive, ha]

/-- An ENQUEUE that finds the transport alive and no other one in progress begins with its frame (R194, R195). -/
theorem enqueuePacket_encoded (ptype len : Byte) (payload frame : List Byte) (s : State) (ha : s.alive = true)
    (hb : s.enq.busy = false) (hf : encodedFrame ptype len payload = some frame) :
    enqueuePacket ptype len payload s = .next (enqStart frame s) := by
  simp [enqueuePacket, whenAlive, ha, hb, hf]

theorem enqueuePacket_tooLong (ptype len : Byte) (payload : List Byte) (s : State) (ha : s.alive = true)
    (hb : s.enq.busy = false) (hf : encodedFrame ptype len payload = none) :
    enqueuePacket ptype len payload s = .next (s.answer .cmd .tooLong) := by
  simp [enqueuePacket, whenAlive, ha, hb, hf]

/-- Each of the three sending operations begins with the frame of the packet it sends (R143, R144, R194). -/
theorem exec_of_sentPacket (i : Instr) (p : Packet) (s : State) (hi : sentPacket i = some p) (ha : s.alive = true)
    (hb : s.enq.busy = false) : exec i s = .next (enqStart (wireFrame p.ptype p.payload) s) := by
  cases i with
  | enqueue ptype len payload =>
    simp only [sentPacket, Option.ite_none_right_eq_some, Option.some.injEq] at hi
    obtain ⟨⟨hp, hl⟩, rfl⟩ := hi
    exact enqueuePacket_encoded _ _ _ _ s ha hb (encodedFrame_eq_wireFrame ptype len payload hp hl)
  | sendSpeed left right =>
    simp only [sentPacket, Option.some.injEq] at hi
    subst hi
    exact enqueuePacket_encoded _ _ _ _ s ha hb (encodedFrame_eq_wireFrame _ 4#8 (speedPayload left right) rfl (by decide))
  | sendMessage n text =>
    simp only [sentPacket, Option.ite_none_right_eq_some, Option.some.injEq] at hi
    obtain ⟨rfl, rfl⟩ := hi
    have htake : text.take (messageLength text.length) = text.take 200 := by
      rw [List.take_eq_take_iff]; simp only [messageLength, msgMax]; omega
    have hlen : (BitVec.ofNat 8 (messageLength text.length)).toNat = min text.length 200 :=
      Nat.mod_eq_of_lt (show min text.length 200 < 256 by omega)
    show enqueuePacket _ _ _ s = _
    rw [htake]
    exact enqueuePacket_encoded _ _ _ _ s ha hb
      (encodedFrame_eq_wireFrame _ _ _ (by rw [hlen, List.length_take, Nat.min_comm]) (by omega))
  | _ => cases hi

/-! ## The steps after it -/

theorem enqSteps_of_not_busy (k : Nat) (s : State) (h : s.enq.busy = false) : enqSteps k s = s := by
  cases k with
  | zero => rfl
  | succ k => simp [enqSteps, h]

theorem enqSteps_succ (k : Nat) (s : State) (h : s.enq.busy = true) : enqSteps (k + 1) s = enqSteps k (enqStep s) := by
  simp [enqSteps, h]

/-- A turn of the enqueuing agent takes at least one step, in either setting (log 6). -/
theorem enqFuel_pos (s : State) : ∃ k, enqFuel s = k + 1 := by
  unfold enqFuel
  cases s.cfg.grain with
  | call => exact ⟨_, rfl⟩
  | primitive => exact ⟨0, rfl⟩

/-- A frame without room is answered `WouldBlock` however many steps the turn may take (R195). -/
theorem enqRun_wouldBlock (frame : List Byte) (s : State) (hp : s.enq.pending = some frame) (ha : s.enq.active = false)
    (hroom : s.outR.free < frame.length) :
    enqRun s = (s.setEnq { s.enq with pending := none }).answer .cmd .wouldBlock := by
  obtain ⟨k, hk⟩ := enqFuel_pos s
  rw [enqRun, hk, enqSteps_succ k s (by simp [Enq.busy, hp]), enqStep_room s frame hp, enqRoom, if_pos hroom]
  exact enqSteps_of_not_busy _ _ (by simp [Enq.busy, ha])

/-- One push into a ring with room: the call goes on, or ends with its last byte (R194). -/
theorem enqPush_of_room (s : State) (b : Byte) (hb : s.enq.frame[s.enq.idx]? = some b) (hf : s.outR.isFull = false) :
    enqPush s =
      if s.enq.idx + 1 = s.enq.frame.length then
        ((ringPush .out b s).2.setEnq { s.enq with active := false, idx := s.enq.idx + 1 }).answer .cmd .ok
      else (ringPush .out b s).2.setEnq { s.enq with idx := s.enq.idx + 1 } := by
  simp [enqPush, hb, hf]

/-- The push of a byte `b` behind which the frame goes on: what has been sent is longer by `b`. -/
theorem enqStep_pushes_next (s : State) (b : Byte) (sent rest : List Byte) (hrest : rest ≠ [])
    (he : s.enq = ⟨true, sent ++ b :: rest, sent.length, none⟩) (hf : s.outR.isFull = false) :
    enqStep s = (ringPush .out b s).2.setEnq ⟨true, sent ++ b :: rest, (sent ++ [b]).length, none⟩ := by
  have hlen : 0 < rest.length := List.length_pos_of_ne_nil hrest
  rw [enqStep_push s (by rw [he]), enqPush_of_room s b (by simp [he]) hf,
    if_neg (by simp only [he, List.length_append, List.length_cons]; omega), he, List.length_append]
  rfl

/-- The push of the frame's last byte ends the call with `Ok`. -/
theorem enqStep_pushes_last (s : State) (b : Byte) (sent : List Byte)
    (he : s.enq = ⟨true, sent ++ [b], sent.length, none⟩) (hf : s.outR.isFull = false) :
    enqStep s = ((ringPush .out b s).2.setEnq ⟨false, sent ++ [b], sent.length + 1, none⟩).answer .cmd .ok := by
  rw [enqStep_push s (by rw [he]), enqPush_of_room s b (by simp [he]) hf, if_pos (by simp [he]), he]

/-- As long as `out` has room and the frame goes on behind them (`rest`), the bytes `bs` of the frame go in one by one, in order. -/
theorem enqSteps_push_many (bs : List Byte) :
    ∀ (sent rest : List Byte) (s : State) (old : List Byte), rest ≠ [] →
      s.enq = ⟨true, sent ++ bs ++ rest, sent.length, none⟩ → s.outR.holds old → old.length + bs.length ≤ 255 →
      ∃ t, (∀ k, enqSteps (k + bs.length) s = enqSteps k t) ∧
        t.enq = ⟨true, sent ++ bs ++ rest, (sent ++ bs).length, none⟩ ∧ t.outR.holds (old ++ bs) ∧
        t.outR.rd = s.outR.rd ∧ OnlyChanges [.outRing, .enq] s t := by
  induction bs with
  | nil =>
    intro sent rest s old _ he hold _
    exact ⟨s, fun _ => rfl, by simpa using he, by simpa using hold, rfl, onlyChanges_refl _ s⟩
  | cons b bs ih =>
    intro sent rest s old hrest he hold hroom
    rw [List.length_cons] at hroom
    have hstep := enqStep_pushes_next s b sent (bs ++ rest) (by simp [hrest]) (by simpa using he)
      (isFull_eq_false_of_holds hold (by omega))
    obtain ⟨hholds, hrd⟩ := ringPush_holds .out b s old hold (by omega)
    obtain ⟨t, hsteps, henq, hbytes, hrd', honly⟩ :=
      ih (sent ++ [b]) rest (enqStep s) (old ++ [b]) hrest (by rw [hstep]; simp) (by rw [hstep]; exact hholds)
        (by simp only [List.length_append, List.length_cons, List.length_nil]; omega)
    refine ⟨t, fun k => ?_, by simpa using henq, by simpa using hbytes, by rw [hrd', hstep]; exact hrd,
      onlyChanges_trans ?_ honly⟩
    · rw [← hsteps k, ← enqSteps_succ _ s (by simp [he])]; rfl
    · rw [hstep]
      exact onlyChanges_trans (onlyChanges_mono (by simp [ringPart]) (onlyChanges_ringPush .out b s))
        (onlyChanges_mono (by simp) (onlyChanges_setEnq _ _))

/-- With room for the whole frame, pushing ends with the frame in `out` and the answer `Ok` (R194, R195). -/
theorem enqSteps_push_all (frame : List Byte) (k : Nat) (s : State) (old : List Byte) (hne : frame ≠ [])
    (he : s.enq = ⟨true, frame, 0, none⟩) (hold : s.outR.holds old) (hroom : old.length + frame.length ≤ 255) :
    ∃ t, enqSteps (k + frame.length) s = t ∧ t.outR.holds (old ++ frame) ∧ t.outR.rd = s.outR.rd ∧
      t.enq.busy = false ∧ t.returns = s.returns ++ [⟨.cmd, .ok⟩] ∧ OnlyChanges [.outRing, .enq, .returns] s t := by
  obtain rfl | ⟨init, b, rfl⟩ := List.eq_nil_or_concat frame
  · exact absurd rfl hne
  rw [List.concat_eq_append] at he hroom ⊢
  rw [List.length_append] at hroom ⊢
  obtain ⟨t, hsteps, henq, hbytes, hrd, honly⟩ :=
    enqSteps_push_many init [] [b] s old (by simp) (by simpa using he) hold (by omega)
  rw [List.nil_append] at henq
  have hlt : (old ++ init).length < 255 := by
    rw [List.length_append]; simp only [List.length_cons, List.length_nil] at hroom; omega
  obtain ⟨hholds, hrd'⟩ := ringPush_holds .out b t (old ++ init) hbytes hlt
  have hpush := onlyChanges_ringPush .out b t
  have hret : (ringPush .out b t).2.returns = s.returns := (hpush .returns (by simp [ringPart])).trans (honly .returns (by simp))
  have hlast : enqSteps (k + (init.length + [b].length)) s =
      ((ringPush .out b t).2.setEnq ⟨false, init ++ [b], init.length + 1, none⟩).answer .cmd .ok := by
    rw [show k + (init.length + [b].length) = k + 1 + init.length by simp only [List.length_cons, List.length_nil]; omega,
      hsteps, enqSteps_succ k t (by simp [henq]), enqStep_pushes_last t b init henq (isFull_eq_false_of_holds hbytes hlt)]
    exact enqSteps_of_not_busy _ _ rfl
  refine ⟨_, hlast, by simpa using hholds, hrd'.trans hrd, rfl, by simp [hret], ?_⟩
  exact onlyChanges_trans (onlyChanges_mono (by simp) honly)
    (onlyChanges_trans (onlyChanges_mono (by simp [ringPart]) hpush)
      (onlyChanges_trans (onlyChanges_mono (by simp) (onlyChanges_setEnq _ _))
        (onlyChanges_mono (by simp) (onlyChanges_answer _ _ _))))

/-! ## The whole call -/

theorem wireFrame_ne_nil (ptype : Byte) (payload : List Byte) : wireFrame ptype payload ≠ [] := by simp [wireFrame]

theorem enqStart_primitive (frame : List Byte) (s : State) (hg : s.cfg.grain = .primitive) :
    enqStart frame s = enqEncoded frame s := by simp [enqStart, hg]

theorem enqStart_call (frame : List Byte) (s : State) (hg : s.cfg.grain = .call) :
    enqStart frame s = enqRun (enqEncoded frame s) := by simp [enqStart, hg]

theorem enqEncoded_spin (frame : List Byte) (s : State) (hp : s.cfg.policy = .spin) :
    enqEncoded frame s = s.setEnq ⟨true, frame, 0, none⟩ := by simp [enqEncoded, hp]

theorem enqEncoded_reject (frame : List Byte) (s : State) (hp : s.cfg.policy = .reject) :
    enqEncoded frame s = s.setEnq { s.enq with pending := some frame } := by simp [enqEncoded, hp]

theorem onlyChanges_enqEncoded (frame : List Byte) (s : State) : OnlyChanges [.enq] s (enqEncoded frame s) := by
  cases hp : s.cfg.policy with
  | spin => rw [enqEncoded_spin frame s hp]; exact onlyChanges_setEnq s _
  | reject => rw [enqEncoded_reject frame s hp]; exact onlyChanges_setEnq s _

/-- With room for the frame the two policies do the same: begin the pushes, and take one step more than there are bytes. -/
theorem enqStart_call_of_room (frame : List Byte) (s : State) (hg : s.cfg.grain = .call)
    (hroom : frame.length ≤ s.outR.free) :
    enqStart frame s = enqSteps (1 + frame.length) (s.setEnq ⟨true, frame, 0, none⟩) := by
  rw [enqStart_call frame s hg, Nat.add_comm]
  cases hp : s.cfg.policy with
  | spin =>
    rw [enqEncoded_spin frame s hp]
    simp [enqRun, enqFuel, hg, Enq.stepsLeft]
  | reject =>
    rw [enqEncoded_reject frame s hp]
    simp only [enqRun, enqFuel, setEnq_cfg, hg, setEnq_enq, Enq.stepsLeft]
    rw [enqSteps_succ _ _ (by simp [Enq.busy]), enqStep_room _ frame rfl, enqRoom, if_neg (by simpa using hroom)]
    rfl

/-- Without room under Reject the call run whole is answered `WouldBlock`, and `enq` is as it was (R195). -/
theorem enqStart_call_wouldBlock (frame : List Byte) (s : State) (hb : s.enq.busy = false) (hg : s.cfg.grain = .call)
    (hp : s.cfg.policy = .reject) (hroom : s.outR.free < frame.length) :
    enqStart frame s = s.answer .cmd .wouldBlock := by
  obtain ⟨ha, hpend⟩ := (busy_eq_false s.enq).mp hb
  have henq : ({ s.enq with pending := none } : Enq) = s.enq := by rw [← hpend]
  rw [enqStart_call frame s hg, enqEncoded_reject frame s hp]
  refine (enqRun_wouldBlock frame (s.setEnq { s.enq with pending := some frame }) rfl ha hroom).trans ?_
  show (s.setEnq { s.enq with pending := none }).answer .cmd .wouldBlock = s.answer .cmd .wouldBlock
  rw [henq]
  rfl

/-! ## The enqueuing agent's turn -/

theorem agentTurn_cmd_busy (s : State) (ht : threadBusy .cmd s = false) (hb : s.enq.busy = true) :
    agentTurn .cmd s = .next (enqRun s) := by simp [agentTurn, ht, hb]

end Sys2Proof.Machine
end

section
/-! SUPPORT. Reading a request back: each operand's reader undoes its writer, and so the decoder undoes the encoder
(R90, R103; log 1, 2, 3). -/

namespace Sys2Proof

theorem getBytes_append (bs rest : List Byte) (n : Nat) (h : bs.length = n) :
    getBytes n (bs ++ rest) = .ok (bs, rest) := by
  subst h
  simp [getBytes]

theorem getHalf_putHalf (v : Half) (rest : List Byte) : getHalf (putHalf v ++ rest) = .ok (v, rest) := by
  have hv : v.extractLsb' 8 8 ++ v.extractLsb' 0 8 = v := by
    apply BitVec.eq_of_getLsbD_eq
    intro k hk
    rw [BitVec.getLsbD_append]
    by_cases h : k < 8
    · simp [h]
    · have h8 : 8 + (k - 8) = k := by omega
      have hk8 : k - 8 < 8 := by omega
      simp [h, h8, hk8]
  show Except.ok (v.extractLsb' 8 8 ++ v.extractLsb' 0 8, rest) = _
  rw [hv]

/-- The run of 255s, one byte at a time (log 2). -/
theorem getNat_replicate (q r : Nat) (hr : r < 255) (rest : List Byte) :
    getNat (List.replicate q 255#8 ++ (BitVec.ofNat 8 r :: rest)) = .ok (255 * q + r, rest) := by
  induction q with
  | zero =>
    have hb : BitVec.ofNat 8 r ≠ 255#8 := by intro h; bv_omega
    have hn : (BitVec.ofNat 8 r).toNat = r := Nat.mod_eq_of_lt (by omega)
    simp [getNat, hb, hn]
  | succ q ih =>
    rw [List.replicate_succ, List.cons_append, getNat, if_pos rfl, ih]
    simp only [Except.ok.injEq, Prod.mk.injEq, and_true]
    omega

theorem getNat_putNat (n : Nat) (rest : List Byte) : getNat (putNat n ++ rest) = .ok (n, rest) := by
  rw [putNat, List.append_assoc, List.singleton_append, getNat_replicate _ _ (Nat.mod_lt _ (by decide)),
    Nat.div_add_mod]

/-- The unassigned codes (R104) all fall into the decoder's last case. -/
theorem decode_badOp (code : BitVec 5) (rest : List Byte) (h : 0x11 ≤ code.toNat) :
    decode (code.setWidth 8 :: rest) = .ok (.badOp code, rest) := by
  obtain ⟨n, hn⟩ : ∃ n, code.toNat = n := ⟨_, rfl⟩
  obtain rfl : code = BitVec.ofNat 5 n := by rw [← hn]; simp
  have hlt : n < 32 := by rw [← hn]; exact BitVec.isLt _
  rw [hn] at h
  interval_cases n <;> rfl

/-- The header word chooses the frame row by its type byte (R106). -/
theorem decode_frame (ptype len : Byte) (body rest : List Byte) (h : body.length = restLength len) :
    decode ([syncByte, syncByte, ptype, len] ++ body ++ rest) =
      .ok (if ptype = typeSpeed then .frameSpeed len body
        else if ptype = typeMessage then .frameMessage len body else .frameUnknown ptype len body, rest) := by
  show decodeFrame (syncByte :: ptype :: len :: (body ++ rest)) = _
  simp only [decodeFrame, getByte, getBytes_append body rest _ h, bind, Except.bind, pure, Except.pure, ne_eq,
    not_true_eq_false, if_false]
  split <;> [rfl; split <;> rfl]

/-- The first bytes 0x80 to 0x8F are the transition rows in R106's order. -/
theorem decode_row (k : Nat) (hk : k < 16) (t : List Byte) : decode (BitVec.ofNat 8 (0x80 + k) :: t) = decodeRow k t := by
  have hn : (BitVec.ofNat 8 (0x80 + k)).toNat = 0x80 + k := Nat.mod_eq_of_lt (by omega)
  have hs : BitVec.ofNat 8 (0x80 + k) ≠ syncByte := by intro h; rw [h] at hn; simp at hn; omega
  rw [decode, if_neg hs, if_neg (by omega), if_pos (by omega), hn, Nat.add_sub_cancel_left]

/-- A payload with its length byte before it is read back whole. -/
theorem getPayload_append (mk : List Byte → Instr) (len : Byte) (payload rest : List Byte)
    (h : payloadFits len payload = true) :
    (getBytes len.toNat (payload ++ rest) >>= fun x => Except.ok (mk x.1, x.2)) = Except.ok (mk payload, rest) := by
  rw [getBytes_append payload rest _ (by simpa [payloadFits] using h)]
  rfl

/-- Every well-formed operation and row is read back from its request, whatever bytes follow. -/
theorem decode_encode_append (i : Instr) (rest : List Byte) (h : i.wf = true) :
    decode (encode i ++ rest) = .ok (i, rest) := by
  cases i with
  | rbPush r b => cases r <;> rfl
  | rbPop r => cases r <;> rfl
  | rbAvail r => cases r <;> rfl
  | encodeFrame ptype len payload => exact getPayload_append (.encodeFrame ptype len) len payload rest h
  | enqueue ptype len payload => exact getPayload_append (.enqueue ptype len) len payload rest h
  | dispatch p =>
    have hlen : p.payload.length ≤ 223 := of_decide_eq_true h
    have hn : (BitVec.ofNat 8 p.payload.length).toNat = p.payload.length := Nat.mod_eq_of_lt (by omega)
    show (if payloadMax < (BitVec.ofNat 8 p.payload.length).toNat then _ else _) = _
    rw [if_neg (by rw [hn]; exact Nat.not_lt.mpr hlen)]
    exact getPayload_append (fun payload => .dispatch ⟨p.ptype, payload⟩) _ p.payload rest (by simp [payloadFits, hn])
  | sendSpeed left right =>
    show (getHalf (putHalf left ++ (putHalf right ++ rest)) >>= fun x => getHalf x.2 >>= fun y =>
      Except.ok (Instr.sendSpeed x.1 y.1, y.2)) = _
    rw [getHalf_putHalf]
    show (getHalf (putHalf right ++ rest) >>= fun y => Except.ok (Instr.sendSpeed left y.1, y.2)) = _
    rw [getHalf_putHalf]
    rfl
  | sendMessage n text =>
    show (getNat (putNat n ++ text ++ rest) >>= fun x => getBytes x.1 x.2 >>= fun y =>
      Except.ok (Instr.sendMessage x.1 y.1, y.2)) = _
    rw [List.append_assoc, getNat_putNat]
    show (getBytes n (text ++ rest) >>= fun y => Except.ok (Instr.sendMessage n y.1, y.2)) = _
    rw [getBytes_append text rest n (by simpa [Instr.wf] using h)]
    rfl
  | badOp code => exact decode_badOp code rest (of_decide_eq_true h)
  | frameSpeed len body => exact decode_frame typeSpeed len body rest (by simpa [Instr.wf] using h)
  | frameMessage len body => exact decode_frame typeMessage len body rest (by simpa [Instr.wf] using h)
  | frameUnknown ptype len body =>
    simp only [Instr.wf, Bool.and_eq_true, bne_iff_ne, ne_eq, beq_iff_eq] at h
    obtain ⟨⟨hs, hm⟩, hlen⟩ := h
    refine (decode_frame ptype len body rest hlen).trans ?_
    rw [if_neg hs, if_neg hm]
  | decSync1Hit => exact decode_row 0 (by decide) _
  | decSync1Miss b => exact (decode_row 1 (by decide) _).trans (if_pos h)
  | decSync2Hit => exact decode_row 2 (by decide) _
  | decSync2Miss b => exact (decode_row 3 (by decide) _).trans (if_pos h)
  | decType b => exact decode_row 4 (by decide) _
  | decLengthZero => exact decode_row 5 (by decide) _
  | decLengthOk b => exact (decode_row 6 (by decide) _).trans (if_pos h)
  | decLengthOver b => exact (decode_row 7 (by decide) _).trans (if_pos h)
  | decDataMore b => exact decode_row 8 (by decide) _
  | decDataLast b => exact decode_row 9 (by decide) _
  | decChecksumOk b => exact decode_row 10 (by decide) _
  | decChecksumBad b => exact decode_row 11 (by decide) _
  | decCrOk => exact decode_row 12 (by decide) _
  | decCrBad b => exact (decode_row 13 (by decide) _).trans (if_pos h)
  | decLfOk => exact decode_row 14 (by decide) _
  | decLfBad b => exact (decode_row 15 (by decide) _).trans (if_pos h)
  | _ => rfl

end Sys2Proof
end

section
/-! SUPPORT. The settings and the schedule are read by nothing but the choice of a turn's size and ENQUEUE's policy: every
operation does the same to the block under others (log 5, 6, 7). -/

namespace Sys2Proof.Machine

/-- The same block under other settings and with another schedule. -/
def State.under (s : State) (c : Config) (ts : List Turn) : State := { s with cfg := c, sched := ts }

/-- An outcome, its state under other settings and with another schedule. -/
def answerUnder (c : Config) (ts : List Turn) : Answer → Answer
  | .next s => .next (s.under c ts)
  | .fault f => .fault f
  | .refused r => .refused r

/-- The result of a fallible shared operation, its state under other settings and with another schedule. -/
def resultUnder {α : Type} (c : Config) (ts : List Turn) : Except Fault (α × State) → Except Fault (α × State)
  | .ok (v, s) => .ok (v, s.under c ts)
  | .error f => .error f

section
variable (s : State) (c : Config) (ts : List Turn)

@[simp] theorem under_ring (r : RingSel) : (s.under c ts).ring r = s.ring r := by cases r <;> rfl
@[simp] theorem under_outR : (s.under c ts).outR = s.outR := rfl
@[simp] theorem under_dec : (s.under c ts).dec = s.dec := rfl
@[simp] theorem under_alive : (s.under c ts).alive = s.alive := rfl
@[simp] theorem under_enq : (s.under c ts).enq = s.enq := rfl
@[simp] theorem under_poll : (s.under c ts).poll = s.poll := rfl
@[simp] theorem under_cfg : (s.under c ts).cfg = c := rfl

theorem setRing_under (r : RingSel) (ρ : Ring) : (s.under c ts).setRing r ρ = (s.setRing r ρ).under c ts := by
  cases r <;> rfl

/-! ## The shared operations -/

theorem ringPush_under (r : RingSel) (b : Byte) :
    ringPush r b (s.under c ts) = ((ringPush r b s).1, (ringPush r b s).2.under c ts) := by
  unfold ringPush
  rw [under_ring]
  dsimp only
  split
  · rfl
  · rw [setRing_under]

theorem ringPop_under (r : RingSel) : ringPop r (s.under c ts) = resultUnder c ts (ringPop r s) := by
  unfold ringPop
  rw [under_ring]
  dsimp only
  split
  · rfl
  · split
    · rw [setRing_under]; rfl
    · rfl

theorem raise_under (d : Diag) : raise d (s.under c ts) = (raise d s).under c ts := by cases d <;> rfl

theorem dispatchPacket_under (p : Packet) : dispatchPacket p (s.under c ts) = (dispatchPacket p s).under c ts := by
  unfold dispatchPacket
  cases classify p with
  | speed left right => rfl
  | speedMalformed len => exact raise_under s c ts _
  | message text => rfl
  | unknown ptype => exact raise_under s c ts _

/-- A continuation that does not read the settings makes an outcome that does not. -/
theorem finishWith_under {α : Type} (r : Except Fault (α × State)) (k : α → State → Answer)
    (hk : ∀ v u, k v (u.under c ts) = answerUnder c ts (k v u)) :
    finishWith (resultUnder c ts r) k = answerUnder c ts (finishWith r k) := by
  rcases r with f | ⟨v, u⟩
  · rfl
  · exact hk v u

/-! ## The decoder -/

theorem advance_under (st : FramePos) : advance st (s.under c ts) = resultUnder c ts (advance st s) := rfl

theorem takeLength_under (b : Byte) (st : FramePos) :
    takeLength b st (s.under c ts) = resultUnder c ts (takeLength b st s) := rfl

theorem abandon_under (d : Diag) : abandon d (s.under c ts) = resultUnder c ts (abandon d s) := by
  unfold abandon
  rw [raise_under]
  rfl

theorem takeData_under (b : Byte) (st : FramePos) :
    takeData b st (s.under c ts) = resultUnder c ts (takeData b st s) := by
  unfold takeData
  rw [under_dec]
  split <;> rfl

theorem completePacket_under : completePacket (s.under c ts) = resultUnder c ts (completePacket s) := by
  unfold completePacket
  rw [under_dec]
  split <;> rfl

theorem ite_resultUnder {p : Prop} [Decidable p] {a a' b b' : Stepped} (ha : a' = resultUnder c ts a)
    (hb : b' = resultUnder c ts b) : (if p then a' else b') = resultUnder c ts (if p then a else b) := by
  split
  · exact ha
  · exact hb

theorem stepDecoder_under (b : Byte) : stepDecoder b (s.under c ts) = resultUnder c ts (stepDecoder b s) := by
  unfold stepDecoder
  rw [under_dec]
  cases s.dec.st with
  | sync1 => exact ite_resultUnder c ts (advance_under s c ts _) (advance_under s c ts _)
  | sync2 => exact ite_resultUnder c ts (advance_under s c ts _) (abandon_under s c ts _)
  | type => rfl
  | length =>
    exact ite_resultUnder c ts (abandon_under s c ts _)
      (ite_resultUnder c ts (takeLength_under s c ts _ _) (takeLength_under s c ts _ _))
  | data => exact ite_resultUnder c ts (takeData_under s c ts _ _) (takeData_under s c ts _ _)
  | checksum => exact ite_resultUnder c ts (advance_under s c ts _) (abandon_under s c ts _)
  | cr => exact ite_resultUnder c ts (advance_under s c ts _) (abandon_under s c ts _)
  | lf => exact ite_resultUnder c ts (completePacket_under s c ts) (abandon_under s c ts _)

theorem answerEvent_under (r : Stepped) : answerEvent (resultUnder c ts r) = answerUnder c ts (answerEvent r) :=
  finishWith_under c ts r _ fun _ _ => rfl

/-- A transition row whose arm does not read the settings does not. -/
theorem whenSelected_under (i : Instr) (arm arm' : Stepped) (h : arm' = resultUnder c ts arm) :
    whenSelected i (s.under c ts) arm' = answerUnder c ts (whenSelected i s arm) := by
  unfold whenSelected
  rw [under_dec, h]
  split
  · exact answerEvent_under c ts arm
  · rfl

/-! ## The operations of one primitive step -/

/-- An operation of the polling or the enqueuing agent that is a call of several primitive steps (R12). -/
def isCall : Instr → Bool
  | .poll1 => true
  | .pollAll => true
  | .enqueue _ _ _ => true
  | .sendSpeed _ _ => true
  | .sendMessage _ _ => true
  | .frameSpeed _ _ => true
  | .frameMessage _ _ => true
  | .frameUnknown _ _ _ => true
  | _ => false

/-- Every other operation of the two agents does the same under all settings. -/
theorem exec_under (i : Instr) (hcall : isCall i = false) (ha : home i = .poll ∨ home i = .cmd) :
    exec i (s.under c ts) = answerUnder c ts (exec i s) := by
  cases i with
  | poll1 | pollAll | enqueue | sendSpeed | sendMessage | frameSpeed | frameMessage | frameUnknown => cases hcall
  | rbAvail | rxByte | txByte | txFlush | ioFail | alive | badOp => simp [home] at ha
  | rbPush r b =>
    show Host.Outcome.next _ = _
    rw [ringPush_under]; rfl
  | rbPop r =>
    show finishWith _ _ = _
    rw [ringPop_under]
    refine finishWith_under c ts _ _ fun v u => ?_
    cases v <;> rfl
  | encodeFrame ptype len payload =>
    show execEncode ptype len payload _ = answerUnder c ts (execEncode ptype len payload s)
    unfold execEncode
    split <;> rfl
  | decStep b =>
    show answerEvent _ = _
    rw [stepDecoder_under]
    exact answerEvent_under c ts _
  | decReset => rfl
  | dispatch p =>
    show Host.Outcome.next _ = _
    rw [dispatchPacket_under]; rfl
  | decSync1Hit => exact whenSelected_under s c ts _ _ _ (advance_under s c ts _)
  | decSync1Miss b => exact whenSelected_under s c ts _ _ _ (advance_under s c ts _)
  | decSync2Hit => exact whenSelected_under s c ts _ _ _ (advance_under s c ts _)
  | decSync2Miss b => exact whenSelected_under s c ts _ _ _ (abandon_under s c ts _)
  | decType b => exact whenSelected_under s c ts _ (takeType b s) _ rfl
  | decLengthZero => exact whenSelected_under s c ts _ _ _ (takeLength_under s c ts _ _)
  | decLengthOver b => exact whenSelected_under s c ts _ _ _ (abandon_under s c ts _)
  | decLengthOk b => exact whenSelected_under s c ts _ _ _ (takeLength_under s c ts _ _)
  | decDataMore b => exact whenSelected_under s c ts _ _ _ (takeData_under s c ts _ _)
  | decDataLast b => exact whenSelected_under s c ts _ _ _ (takeData_under s c ts _ _)
  | decChecksumOk b => exact whenSelected_under s c ts _ _ _ (advance_under s c ts _)
  | decChecksumBad b => exact whenSelected_under s c ts _ _ _ (abandon_under s c ts _)
  | decCrOk => exact whenSelected_under s c ts _ _ _ (advance_under s c ts _)
  | decCrBad b => exact whenSelected_under s c ts _ _ _ (abandon_under s c ts _)
  | decLfOk => exact whenSelected_under s c ts _ _ _ (completePacket_under s c ts)
  | decLfBad b => exact whenSelected_under s c ts _ _ _ (abandon_under s c ts _)

/-! ## The primitive steps of a POLL call -/

theorem pollPop_under (p : PollCall) : pollPop p (s.under c ts) = answerUnder c ts (pollPop p s) := by
  unfold pollPop
  cases p.kind with
  | feed rest => cases rest <;> rfl
  | one | all =>
    dsimp only
    rw [ringPop_under]
    refine finishWith_under c ts _ _ fun v u => ?_
    cases v <;> rfl

theorem pollDec_under (p : PollCall) (b : Byte) : pollDec p b (s.under c ts) = answerUnder c ts (pollDec p b s) := by
  unfold pollDec
  rw [stepDecoder_under]
  refine finishWith_under c ts _ _ fun e u => ?_
  rcases e with _ | (_ | _) <;> rfl

theorem pollDisp_under (p : PollCall) (q : Packet) :
    pollDisp p q (s.under c ts) = answerUnder c ts (pollDisp p q s) := by
  unfold pollDisp
  rw [dispatchPacket_under]
  cases p.kind <;> rfl

theorem pollStep_under (p : PollCall) : pollStep p (s.under c ts) = answerUnder c ts (pollStep p s) := by
  unfold pollStep
  cases p.phase with
  | pop => exact pollPop_under s c ts p
  | dec b => exact pollDec_under s c ts p b
  | disp q => exact pollDisp_under s c ts p q

/-! ## The primitive steps of an ENQUEUE -/

theorem enqRoom_under (frame : List Byte) : enqRoom frame (s.under c ts) = (enqRoom frame s).under c ts := by
  unfold enqRoom
  rw [under_outR]
  split <;> rfl

theorem enqPush_under : enqPush (s.under c ts) = (enqPush s).under c ts := by
  unfold enqPush
  rw [under_outR, under_enq]
  cases s.enq.frame[s.enq.idx]? with
  | none => rfl
  | some b =>
    dsimp only
    rw [ringPush_under]
    split
    · rfl
    · split <;> rfl

theorem enqStep_under : enqStep (s.under c ts) = (enqStep s).under c ts := by
  unfold enqStep
  rw [under_enq]
  split
  · exact enqRoom_under s c ts _
  · exact enqPush_under s c ts

/-- ENCODE leaves the same ENQUEUE in progress under any settings of the same policy. -/
theorem enqEncoded_under (frame : List Byte) (hp : c.policy = s.cfg.policy) :
    enqEncoded frame (s.under c ts) = (enqEncoded frame s).under c ts := by
  unfold enqEncoded
  rw [under_cfg, hp]
  split <;> rfl

end

theorem pollSteps_under (k : Nat) (c : Config) (ts : List Turn) :
    ∀ s : State, pollSteps k (s.under c ts) = answerUnder c ts (pollSteps k s) := by
  induction k with
  | zero => intro s; rfl
  | succ k ih =>
    intro s
    unfold pollSteps
    rw [under_poll]
    cases s.poll with
    | none => rfl
    | some p =>
      dsimp only
      rw [pollStep_under]
      cases pollStep p s with
      | next u => exact ih u
      | fault f => rfl
      | refused r => rfl

theorem enqSteps_under (k : Nat) (c : Config) (ts : List Turn) :
    ∀ s : State, enqSteps k (s.under c ts) = (enqSteps k s).under c ts := by
  induction k with
  | zero => intro s; rfl
  | succ k ih =>
    intro s
    unfold enqSteps
    rw [under_enq, enqStep_under, ih]
    split <;> rfl

end Sys2Proof.Machine
end

section
/-! SUPPORT. What the primitive steps of a call leave alone, and what a turn of the agent does with each setting. -/

namespace Sys2Proof.Machine

/-! ## What a step of a call leaves alone -/

/-- A step of an ENQUEUE changes `out`, `enq` and the results only (R73). -/
theorem enqStep_onlyChanges (s : State) : OnlyChanges [.outRing, .enq, .returns] s (enqStep s) := by
  have hset : ∀ (u : State) (e : Enq), OnlyChanges [.outRing, .enq, .returns] u (u.setEnq e) := fun u e =>
    onlyChanges_mono (by simp) (onlyChanges_setEnq u e)
  have hans : ∀ (u : State) (v : Result), OnlyChanges [.outRing, .enq, .returns] u (u.answer .cmd v) := fun u v =>
    onlyChanges_mono (by simp) (onlyChanges_answer u .cmd v)
  have hpush : ∀ b, OnlyChanges [.outRing, .enq, .returns] s (ringPush .out b s).2 := fun b =>
    onlyChanges_mono (by simp [ringPart]) (onlyChanges_ringPush .out b s)
  cases hp : s.enq.pending with
  | some frame =>
    rw [enqStep_room s frame hp]
    rcases enqRoom_cases frame s with ⟨_, e⟩ | ⟨_, e⟩ <;> rw [e]
    · exact onlyChanges_trans (hset _ _) (hans _ _)
    · exact hset _ _
  | none =>
    rw [enqStep_push s hp]
    rcases enqPush_cases s with ⟨_, _, e⟩ | ⟨b, _, _, _, e⟩ | ⟨b, _, _, _, e⟩ | ⟨_, e⟩ <;> rw [e]
    · exact onlyChanges_refl _ s
    · exact onlyChanges_trans (hpush b) (hset _ _)
    · exact onlyChanges_trans (hpush b) (onlyChanges_trans (hset _ _) (hans _ _))
    · exact onlyChanges_trans (hset _ _) (hans _ _)

theorem enqSteps_onlyChanges (k : Nat) : ∀ s, OnlyChanges [.outRing, .enq, .returns] s (enqSteps k s) := by
  induction k with
  | zero => intro s; exact onlyChanges_refl _ s
  | succ k ih =>
    intro s
    unfold enqSteps
    split
    · exact onlyChanges_trans (enqStep_onlyChanges s) (ih _)
    · exact onlyChanges_refl _ s

/-- A pop leaves the ENQUEUE in flight and the ports (R121). -/
theorem ringPop_keeps_enq_ports (r : RingSel) (s t : State) (v : Option Byte) (h : ringPop r s = .ok (v, t)) :
    t.enq = s.enq ∧ t.ports = s.ports := by
  rcases ringPop_cases r s with ⟨_, e⟩ | ⟨_, _, _, e⟩ | ⟨_, _, e⟩ <;> rw [e] at h <;> cases h <;> simp

/-- A fallible operation and its continuation both leave the ENQUEUE in flight and the ports. -/
theorem finishWith_keeps_enq_ports {α : Type} {r : Except Fault (α × State)} {k : α → State → Answer} {s t : State}
    (hr : ∀ v u, r = .ok (v, u) → u.enq = s.enq ∧ u.ports = s.ports)
    (hk : ∀ v u, k v u = .next t → t.enq = u.enq ∧ t.ports = u.ports) (h : finishWith r k = .next t) :
    t.enq = s.enq ∧ t.ports = s.ports := by
  rcases r with f | ⟨v, u⟩
  · cases h
  · obtain ⟨he, hp⟩ := hr v u rfl
    obtain ⟨he', hp'⟩ := hk v u h
    exact ⟨he'.trans he, hp'.trans hp⟩

/-- A step of a POLL call leaves the ENQUEUE in flight and the ports (R73). -/
theorem pollStep_keeps_enq_ports (c : PollCall) (s t : State) (h : pollStep c s = .next t) :
    t.enq = s.enq ∧ t.ports = s.ports := by
  unfold pollStep at h
  cases hc : c.phase with
  | pop =>
    rw [hc] at h
    simp only [pollPop] at h
    cases hk : c.kind with
    | feed rest => rw [hk] at h; cases rest <;> cases h <;> simp
    | one | all =>
      rw [hk] at h
      refine finishWith_keeps_enq_ports (fun v u => ringPop_keeps_enq_ports .inp s u v) (fun v u hu => ?_) h
      cases v <;> cases hu <;> simp
  | dec b =>
    rw [hc] at h
    refine finishWith_keeps_enq_ports (fun e u hu => ?_) (fun e u hu => ?_) h
    · obtain ⟨-, -, -, he, -, -, -, -, -, hp, -⟩ := stepDecoder_frame b s u e hu
      exact ⟨he, hp⟩
    · rcases e with _ | (_ | _) <;> cases hu <;> simp
  | disp p =>
    rw [hc] at h
    obtain ⟨-, -, -, -, he, -, -, -, -, hp, -⟩ := dispatchPacket_frame p s
    simp only [pollDisp] at h
    cases hk : c.kind <;> rw [hk] at h <;> cases h <;> exact ⟨he, hp⟩

/-! ## One step after the other -/

theorem pollSteps_of_no_call (k : Nat) (s : State) (h : s.poll = none) : pollSteps k s = .next s := by
  cases k with
  | zero => rfl
  | succ k => simp [pollSteps, h]

/-- The first of several steps of a call, and the others from where it ends. -/
theorem pollSteps_succ (k : Nat) (s t : State) (h : pollSteps (k + 1) s = .next t) :
    ∃ u, pollSteps 1 s = .next u ∧ pollSteps k u = .next t ∧ u.enq = s.enq ∧ u.ports = s.ports := by
  cases hp : s.poll with
  | none =>
    rw [pollSteps_of_no_call _ s hp] at h
    exact ⟨s, pollSteps_of_no_call 1 s hp, (pollSteps_of_no_call k s hp).trans h, rfl, rfl⟩
  | some c =>
    simp only [pollSteps, hp] at h ⊢
    cases hs : pollStep c s with
    | next u =>
      rw [hs] at h
      exact ⟨u, rfl, h, pollStep_keeps_enq_ports c s u hs⟩
    | fault f => rw [hs] at h; cases h
    | refused r => rw [hs] at h; cases h

theorem enqSteps_one_then (k : Nat) (s : State) : enqSteps k (enqSteps 1 s) = enqSteps (k + 1) s := by
  cases hb : s.enq.busy with
  | true => rw [enqSteps_succ 0 s hb, enqSteps_succ k s hb]; rfl
  | false => rw [enqSteps_of_not_busy 1 s hb, enqSteps_of_not_busy k s hb, enqSteps_of_not_busy (k + 1) s hb]

/-! ## Turns -/

theorem threadBusy_poll (s : State) (h : s.enq.busy = false) : threadBusy .poll s = false := by
  unfold threadBusy; split <;> simp_all

theorem threadBusy_cmd (s : State) (h : s.poll = none) : threadBusy .cmd s = false := by
  unfold threadBusy; split <;> simp_all

theorem beginRequest_of_empty (a : Agent) (s : State) (h : s.ports.get a = []) : beginRequest a s = .next s := by
  simp [beginRequest, h]

/-- A turn of the polling agent with nothing more on its port: one step of its call, if it has one. -/
theorem agentTurn_poll (s : State) (hg : s.cfg.grain = .primitive) (hb : s.enq.busy = false)
    (hport : s.ports.get .poll = []) : agentTurn .poll s = pollSteps 1 s := by
  simp only [agentTurn, threadBusy_poll s hb, Bool.false_eq_true, if_false]
  cases hp : s.poll with
  | none => rw [pollSteps_of_no_call 1 s hp]; exact beginRequest_of_empty .poll s hport
  | some c => simp [pollRun, pollFuel, hg]

/-- A turn of the enqueuing agent with nothing more on its port: one step of its call, if it has one. -/
theorem agentTurn_cmd (s : State) (hg : s.cfg.grain = .primitive) (hp : s.poll = none)
    (hport : s.ports.get .cmd = []) : agentTurn .cmd s = .next (enqSteps 1 s) := by
  cases hb : s.enq.busy with
  | true =>
    rw [agentTurn_cmd_busy s (threadBusy_cmd s hp) hb]
    simp [enqRun, enqFuel, hg]
  | false =>
    rw [enqSteps_of_not_busy 1 s hb]
    simp [agentTurn, threadBusy_cmd s hp, hb, beginRequest_of_empty .cmd s hport]

/-- The step that begins a request: exec of what the decoder reads, the request off the port and the turn off the schedule. -/
theorem step_begins_request (s : State) (a : Agent) (ts : List Turn) (i : Instr) (rest : List Byte)
    (hs : s.sched = .agent a :: ts) (ht : threadBusy a s = false) (hpoll : a = .poll → s.poll = none)
    (hcmd : a = .cmd → s.enq.busy = false) (hd : decode (s.ports.get a) = .ok (i, rest)) (hi : mayIssue a i = true)
    (hv : variantAdmits s.cfg.threads i = true) : step s = exec i ((s.setSched ts).setPort a rest) := by
  have hbegin : beginRequest a (s.setSched ts) = exec i ((s.setSched ts).setPort a rest) := by
    unfold beginRequest
    rw [setSched_ports, setSched_cfg]
    cases hport : s.ports.get a with
    | nil => rw [hport] at hd; cases hd
    | cons b bs =>
      rw [hport] at hd
      dsimp only
      rw [hd]
      simp [hi, hv]
  have ht' : threadBusy a (s.setSched ts) = false := ht
  unfold step takeTurn
  rw [hs]
  dsimp only
  rw [← hbegin]
  unfold agentTurn
  rw [ht']
  cases a with
  | poll => simp [hpoll rfl]
  | cmd => simp [hcmd rfl]
  | rx | tx | fault | status => rfl

/-- A turn taken off the schedule, and the steps that follow it. -/
theorem steps_succ_of_turn {a : Agent} {s u : State} {c : Config} {ts : List Turn} (k : Nat)
    (h : agentTurn a (s.under c ts) = .next u) : steps (k + 1) (s.under c (.agent a :: ts)) = steps k u := by
  have hstep : step (s.under c (.agent a :: ts)) = .next u := h
  rw [steps, hstep]

/-- Turns of the polling agent alone, one primitive step each, are that many steps of its call. -/
theorem poll_turns (c : Config) (hg : c.grain = .primitive) (k : Nat) :
    ∀ s t : State, s.enq.busy = false → s.ports.get .poll = [] → pollSteps k s = .next t →
      steps k (s.under c (List.replicate k (.agent .poll))) = .next (t.under c []) := by
  induction k with
  | zero => intro s t _ _ h; cases h; rfl
  | succ k ih =>
    intro s t hb hport h
    obtain ⟨u, hfirst, hrest, he, hp⟩ := pollSteps_succ k s t h
    have hturn : ∀ ts, agentTurn .poll (s.under c ts) = .next (u.under c ts) := fun ts => by
      rw [agentTurn_poll (s.under c ts) hg hb hport, pollSteps_under, hfirst]
      rfl
    rw [List.replicate_succ, steps_succ_of_turn k (hturn _)]
    exact ih u t (by rw [he]; exact hb) (by rw [hp]; exact hport) hrest

/-- Turns of the enqueuing agent alone, one primitive step each, are that many steps of its call. -/
theorem enq_turns (c : Config) (hg : c.grain = .primitive) (k : Nat) :
    ∀ s : State, s.poll = none → s.ports.get .cmd = [] →
      steps k (s.under c (List.replicate k (.agent .cmd))) = .next ((enqSteps k s).under c []) := by
  induction k with
  | zero => intro s _ _; rfl
  | succ k ih =>
    intro s hpoll hport
    have hkeep := enqSteps_onlyChanges 1 s
    have hpoll' : (enqSteps 1 s).poll = s.poll := hkeep .poll (by simp)
    have hports : (enqSteps 1 s).ports = s.ports := hkeep .ports (by simp)
    have hturn : ∀ ts, agentTurn .cmd (s.under c ts) = .next ((enqSteps 1 s).under c ts) := fun ts => by
      rw [agentTurn_cmd (s.under c ts) hg hpoll hport, enqSteps_under]
    rw [List.replicate_succ, steps_succ_of_turn k (hturn _), ih _ (hpoll'.trans hpoll) (by rw [hports]; exact hport),
      enqSteps_one_then]

end Sys2Proof.Machine
end

section
/-! SUPPORT. A call run whole is its primitive steps (O37). -/

namespace Sys2Proof.Machine

/-- What completes when run whole is completed, under the settings `c`, by the turn that begins it and some further turns of
the same agent. -/
def InTurns (a : Agent) (c : Config) (f : State → Answer) (s : State) : Prop :=
  ∀ t, f s = .next t → ∃ k u, f (s.under c (List.replicate k (.agent a))) = .next u ∧ steps k u = .next (t.under c [])

/-- What does the same under all settings needs no further turn. -/
theorem inTurns_of_under {a : Agent} {c : Config} {f : State → Answer} {s : State}
    (h : f (s.under c []) = answerUnder c [] (f s)) : InTurns a c f s := by
  intro t ht
  exact ⟨0, t.under c [], by rw [List.replicate_zero, h, ht]; rfl, rfl⟩

/-- The test of `alive` belongs to the first turn (log 8). -/
theorem inTurns_whenAlive {a : Agent} {c : Config} {f : State → Answer} {s : State} (h : InTurns a c f s) :
    InTurns a c (fun s => whenAlive a s f) s := by
  cases ha : s.alive with
  | true =>
    intro t ht
    obtain ⟨k, u, hfirst, hrest⟩ := h t ((if_pos ha).symm.trans ht)
    exact ⟨k, u, (if_pos (show (s.under c _).alive = true from ha)).trans hfirst, hrest⟩
  | false =>
    apply inTurns_of_under
    simp only [whenAlive, under_alive, ha]
    rfl

/-- A POLL call begins when none is in progress (R73). -/
theorem pollStart_eq (k : PollKind) (s : State) (h : s.poll = none) :
    pollStart k s = pollRun (s.setPoll (some ⟨k, .pop, []⟩)) := by simp [pollStart, h]

theorem pollRun_primitive (s : State) (hg : s.cfg.grain = .primitive) : pollRun s = pollSteps 1 s := by
  simp [pollRun, pollFuel, hg]

/-- Run whole, a POLL call takes at least one step. -/
theorem pollRun_call (s : State) (p : PollCall) (hg : s.cfg.grain = .call) :
    ∃ k, pollRun (s.setPoll (some p)) = pollSteps (k + 1) (s.setPoll (some p)) :=
  ⟨3 * bytesLeft p.kind (s.setPoll (some p)) + 2, by simp [pollRun, pollFuel, hg]⟩

section
variable {s : State} {c : Config} (hg : s.cfg.grain = .call) (hc : c.grain = .primitive) (hpoll : s.poll = none)
  (henq : s.enq.busy = false)
include hg hc hpoll henq

theorem pollStart_inTurns (hport : s.ports.get .poll = []) (k : PollKind) : InTurns .poll c (pollStart k) s := by
  intro t ht
  obtain ⟨n, hn⟩ := pollRun_call s ⟨k, .pop, []⟩ hg
  rw [pollStart_eq k s hpoll, hn] at ht
  obtain ⟨u, hfirst, hrest, he, hp⟩ := pollSteps_succ _ _ t ht
  refine ⟨n, u.under c _, ?_, poll_turns c hc n u t (by rw [he]; exact henq) (by rw [hp]; exact hport) hrest⟩
  rw [pollStart_eq k (s.under c _) hpoll]
  show pollRun ((s.setPoll (some ⟨k, .pop, []⟩)).under c _) = _
  rw [pollRun_primitive (State.under _ c _) hc, pollSteps_under, hfirst]
  rfl

theorem enqueuePacket_inTurns (hport : s.ports.get .cmd = []) (hp : c.policy = s.cfg.policy) (ptype len : Byte)
    (payload : List Byte) : InTurns .cmd c (enqueuePacket ptype len payload) s := by
  cases ha : s.alive with
  | false =>
    apply inTurns_of_under
    rw [enqueuePacket_dead _ _ _ s ha, enqueuePacket_dead _ _ _ (s.under c []) ha]
    rfl
  | true =>
    cases hf : encodedFrame ptype len payload with
    | none =>
      apply inTurns_of_under
      rw [enqueuePacket_tooLong _ _ _ s ha henq hf, enqueuePacket_tooLong _ _ _ (s.under c []) ha henq hf]
      rfl
    | some frame =>
      intro t ht
      rw [enqueuePacket_encoded _ _ _ _ s ha henq hf, enqStart_call frame s hg] at ht
      cases ht
      have hkeep := onlyChanges_enqEncoded frame s
      have hpoll' : (enqEncoded frame s).poll = s.poll := hkeep .poll (by simp)
      have hports : (enqEncoded frame s).ports = s.ports := hkeep .ports (by simp)
      refine ⟨enqFuel (enqEncoded frame s), (enqEncoded frame s).under c _, ?_,
        enq_turns c hc _ _ (hpoll'.trans hpoll) (by rw [hports]; exact hport)⟩
      rw [enqueuePacket_encoded _ _ _ _ (s.under c _) ha henq hf, enqStart_primitive frame (s.under c _) hc,
        enqEncoded_under s c _ frame hp]

theorem exec_inTurns (i : Instr) (ha : home i = .poll ∨ home i = .cmd) (hport : s.ports.get (home i) = [])
    (hp : c.policy = s.cfg.policy) : InTurns (home i) c (exec i) s := by
  cases hcall : isCall i with
  | false => exact inTurns_of_under (exec_under s c [] i hcall ha)
  | true =>
    cases i with
    | poll1 => exact inTurns_whenAlive (pollStart_inTurns hg hc hpoll henq hport .one)
    | pollAll => exact inTurns_whenAlive (pollStart_inTurns hg hc hpoll henq hport .all)
    | frameSpeed | frameMessage | frameUnknown => exact pollStart_inTurns hg hc hpoll henq hport (.feed _)
    | enqueue ptype len payload => exact enqueuePacket_inTurns hg hc hpoll henq hport hp ptype len payload
    | sendSpeed left right =>
      exact enqueuePacket_inTurns hg hc hpoll henq hport hp typeSpeed 4#8 (speedPayload left right)
    | sendMessage n text =>
      exact enqueuePacket_inTurns hg hc hpoll henq hport hp typeMessage (BitVec.ofNat 8 (messageLength n))
        (text.take (messageLength n))
    | _ => cases hcall

end

end Sys2Proof.Machine
end

section
/-! SUPPORT. The statements of the scope: frames turned away (O8), frames that fit (O9), whole calls and their primitive
steps (O37). -/

open Sys2Proof Sys2Proof.Machine

namespace Sys2Proof.Settled

/-- Settles O8: ENCODE answers `TooLong`; an ENQUEUE without room stops at its room test, which leaves `enq` as it was. -/
theorem turnedAwayFrameChangesNothing : Obligations.TurnedAwayFrameChangesNothing := by
  unfold Obligations.TurnedAwayFrameChangesNothing
  refine ⟨fun ptype len payload s hl => ⟨?_, fun ha hb => ?_⟩, fun i p s hi ha hb hg hp hroom => ?_,
    fun frame s hp ha ht hroom => ?_⟩
  · show execEncode ptype len payload s = _
    rw [execEncode, encodedFrame_tooLong ptype len payload hl]
    rfl
  · exact enqueuePacket_tooLong ptype len payload s ha hb (encodedFrame_tooLong ptype len payload hl)
  · rw [exec_of_sentPacket i p s hi ha hb,
      enqStart_call_wouldBlock _ s hb hg hp (by rw [wireFrame_length]; exact hroom)]
    rfl
  · rw [agentTurn_cmd_busy s ht (by simp [Enq.busy, hp]), enqRun_wouldBlock frame s hp ha hroom]
    rfl

/-- Settles O9: run whole, the call begins its pushes under either policy and each goes into a ring with room; in a turn of
one primitive step it ends with its ENCODE. -/
theorem enqueueWithRoomAppendsTheFrame : Obligations.EnqueueWithRoomAppendsTheFrame := by
  unfold Obligations.EnqueueWithRoomAppendsTheFrame
  refine ⟨fun i p s old hi ha hb hg hold hroom => ?_, fun i p s hi ha hb hg => ?_⟩
  · have hlen := wireFrame_length p.ptype p.payload
    have hfree : (wireFrame p.ptype p.payload).length ≤ s.outR.free := by
      rw [free_eq, ← holds_length hold]; omega
    obtain ⟨t, ht, hbytes, hrd, hdone, hret, honly⟩ := enqSteps_push_all (wireFrame p.ptype p.payload) 1
      (s.setEnq ⟨true, wireFrame p.ptype p.payload, 0, none⟩) old (wireFrame_ne_nil _ _) rfl hold (by omega)
    refine ⟨t, ?_, hbytes, hrd, hdone, hret, onlyChanges_trans ?_ honly⟩
    · rw [exec_of_sentPacket i p s hi ha hb, enqStart_call_of_room _ s hg hfree, ht]
    · exact onlyChanges_mono (by simp) (onlyChanges_setEnq _ _)
  · rw [exec_of_sentPacket i p s hi ha hb, enqStart_primitive _ s hg]
    exact ⟨fun hp => by rw [enqEncoded_spin _ s hp]; rfl, fun hp => by rw [enqEncoded_reject _ s hp]; rfl⟩

/-- Settles O37: the first turn reads the request off the port and begins the call, and each further turn is one more step
of it, since nothing but the size of a turn and ENQUEUE's policy reads the settings. -/
theorem wholeCallIsItsPrimitiveSteps : Obligations.WholeCallIsItsPrimitiveSteps := by
  unfold Obligations.WholeCallIsItsPrimitiveSteps
  intro i s t hwf ha hg hpoll henq hport ht
  obtain ⟨k, u, hfirst, hrest⟩ := exec_inTurns (s := s.setPort (home i) []) (c := { s.cfg with grain := .primitive })
    hg rfl hpoll henq i ha (by simp) rfl t ht
  refine ⟨k + 1, ?_⟩
  have hdecode : decode (s.ports.get (home i)) = .ok (i, []) := by
    have := decode_encode_append i [] hwf
    rwa [List.append_nil, ← hport] at this
  have hfree : threadBusy (home i) (s.under { s.cfg with grain := .primitive } (List.replicate (k + 1) (.agent (home i)))) =
      false := by
    rcases ha with h | h <;> rw [h]
    · exact threadBusy_poll _ henq
    · exact threadBusy_cmd _ hpoll
  have hadmit : variantAdmits s.cfg.threads i = true := by
    rw [← Bool.not_eq_false, variantAdmits_eq_false]
    rintro ⟨-, rfl⟩
    simp [home] at ha
  have hstep : step (s.under { s.cfg with grain := .primitive } (List.replicate (k + 1) (.agent (home i)))) = .next u :=
    (step_begins_request _ (home i) (List.replicate k (.agent (home i))) i [] rfl hfree (fun _ => hpoll) (fun _ => henq)
      hdecode (by simp [mayIssue]) hadmit).trans hfirst
  show steps (k + 1) (s.under { s.cfg with grain := .primitive } (List.replicate (k + 1) (.agent (home i)))) = _
  rw [steps, hstep]
  exact hrest

end Sys2Proof.Settled
end

section
/-! SUPPORT. What one step of the machine can do, said once: a turn is a sequence of moves of the block, and one move where a
turn is one primitive step (R12, R69; log 6). -/

namespace Sys2Proof.Machine

/-! ## The moves of the block -/

/-- The two states differ in the model's own bookkeeping only: the polling call in progress, the results, the requests waiting
and the schedule (log 5, 12). -/
abbrev SameBlock (s t : State) : Prop := OnlyChanges [.poll, .returns, .ports, .sched] s t

/-- What one primitive step, or TX.FLUSH, which is one step (R198), does to the block. -/
inductive Move : State → State → Prop where
  | stay (s : State) : Move s s
  | push (r : RingSel) (b : Byte) (s : State) : Move s (ringPush r b s).2
  | pop {r : RingSel} {s t : State} {v : Option Byte} (h : ringPop r s = .ok (v, t)) : Move s t
  | txByte {s t : State} {b : Byte} (h : ringPop .out s = .ok (some b, t)) : Move s (t.emitWire [b])
  | txFlush {s t : State} {bs : List Byte} (h : ringTake .out s.outR.count.toNat s = .ok (bs, t)) : Move s (t.emitWire bs)
  | decStep {s t : State} {b : Byte} {e : Option Event} (h : stepDecoder b s = .ok (e, t)) : Move s t
  | decReset (s : State) : Move s s.parserReset
  | dispatch (p : Packet) (s : State) : Move s (dispatchPacket p s)
  | encode {frame : List Byte} {s : State} (hfit : frameFits frame) (hidle : s.enq.busy = false) :
      Move s (enqEncoded frame s)
  | enqStep (s : State) : Move s (enqStep s)
  | ioFail {s : State} (halive : s.alive = true) (hhost : s.cfg.threads ≠ .device) : Move s (raise .transportIoError s)

/-- A move of the block, whatever happens to the bookkeeping before and after it. -/
def Moved (s t : State) : Prop := ∃ s' t', SameBlock s s' ∧ Move s' t' ∧ SameBlock t' t

/-- What a turn does: some moves, and one where a turn is one primitive step (log 6). -/
def Turned (s t : State) : Prop := Relation.ReflTransGen Moved s t ∧ (s.cfg.grain = .primitive → Moved s t)

theorem sameBlock_answer (s : State) (a : Agent) (v : Result) : SameBlock s (s.answer a v) :=
  onlyChanges_mono (by simp) (onlyChanges_answer s a v)

theorem sameBlock_setPoll (s : State) (c : Option PollCall) : SameBlock s (s.setPoll c) := by
  intro p hp; cases p <;> simp [Part.same] at hp ⊢

theorem sameBlock_setPort (s : State) (a : Agent) (l : List Byte) : SameBlock s (s.setPort a l) := by
  intro p hp; cases p <;> simp [Part.same] at hp ⊢

theorem sameBlock_setSched (s : State) (ts : List Turn) : SameBlock s (s.setSched ts) := by
  intro p hp; cases p <;> simp [Part.same] at hp ⊢

/-- A call that ends: it is no longer in progress, and its result is handed back. -/
theorem sameBlock_setPoll_answer (s : State) (c : Option PollCall) (a : Agent) (v : Result) :
    SameBlock s ((s.setPoll c).answer a v) :=
  onlyChanges_trans (sameBlock_setPoll s c) (sameBlock_answer _ a v)

theorem Move.moved {s u t : State} (h : Move s u) (h' : SameBlock u t) : Moved s t :=
  ⟨s, u, onlyChanges_refl _ s, h, h'⟩

theorem SameBlock.moved {s t : State} (h : SameBlock s t) : Moved s t := (Move.stay s).moved h

theorem Moved.turned {s t : State} (h : Moved s t) : Turned s t := ⟨.single h, fun _ => h⟩

theorem Move.turned {s u t : State} (h : Move s u) (h' : SameBlock u t) : Turned s t := (h.moved h').turned

theorem SameBlock.turned {s t : State} (h : SameBlock s t) : Turned s t := h.moved.turned

theorem Turned.after_sameBlock {s s' t : State} (h : SameBlock s s') (ht : Turned s' t) : Turned s t := by
  have hcfg : s'.cfg = s.cfg := h .cfg (by simp)
  refine ⟨.head h.moved ht.1, fun hg => ?_⟩
  obtain ⟨u, v, hsu, hmove, hvt⟩ := ht.2 (by rw [hcfg]; exact hg)
  exact ⟨u, v, onlyChanges_trans h hsu, hmove, hvt⟩

/-- A reflexive and transitive relation that every move and every change of the bookkeeping respects holds across a turn. -/
theorem Turned.lift {R : State → State → Prop} {s t : State} (h : Turned s t)
    (htrans : ∀ {s t u}, R s t → R t u → R s u) (hsame : ∀ {s t}, SameBlock s t → R s t)
    (hmove : ∀ {s t}, Move s t → R s t) : R s t := by
  obtain ⟨hmoves, -⟩ := h
  induction hmoves with
  | refl => exact hsame (onlyChanges_refl _ _)
  | tail _ hlast ih =>
    obtain ⟨u, v, hsu, huv, hvt⟩ := hlast
    exact htrans ih (htrans (hsame hsu) (htrans (hmove huv) (hsame hvt)))

/-! ## The shared operations, inverted -/

theorem finishWith_next {α : Type} {r : Except Fault (α × State)} {k : α → State → Answer} {t : State}
    (h : finishWith r k = .next t) : ∃ v u, r = .ok (v, u) ∧ k v u = .next t := by
  rcases r with f | ⟨v, u⟩
  · cases h
  · exact ⟨v, u, rfl, h⟩

theorem whenAlive_turned {a : Agent} {k : State → Answer} {s t : State} (h : whenAlive a s k = .next t)
    (hk : s.alive = true → k s = .next t → Turned s t) : Turned s t := by
  unfold whenAlive at h
  split at h
  · next halive => exact hk halive h
  · cases h; exact (sameBlock_answer s a .dead).turned

/-! ## The transition rows -/

/-- A row whose arm is the decoder's own where the row is selected is DEC.STEP of its byte there (R178; log 3). -/
theorem whenSelected_eq {i : Instr} {b : Byte} {s : State} {arm : Stepped}
    (h : rowSelected s.dec i = true → stepDecoder b s = arm) :
    whenSelected i s arm = if rowSelected s.dec i then exec (.decStep b) s else .refused .rowNotSelected := by
  unfold whenSelected
  split
  · next hsel => rw [← h hsel]; rfl
  · rfl

/-- The sixteen rows: each is the arm of DEC.STEP that its state and its byte select (R106, R178; log 3). -/
theorem exec_row (i : Instr) (b : Byte) (s : State) (hb : rowByte i = some b) :
    exec i s = if rowSelected s.dec i then exec (.decStep b) s else .refused .rowNotSelected := by
  cases i with
  | decSync1Hit | decSync1Miss | decSync2Hit | decSync2Miss =>
    cases hb
    exact whenSelected_eq fun h => by simp_all [rowSelected, stepDecoder, stepSync1, stepSync2]
  | decType =>
    cases hb
    exact whenSelected_eq fun h => by simp_all [rowSelected, stepDecoder, stepType]
  | decLengthZero =>
    cases hb
    exact whenSelected_eq fun h => by simp_all [rowSelected, stepDecoder, stepLength]
  | decLengthOver =>
    cases hb
    refine whenSelected_eq fun h => ?_
    obtain ⟨hst, hover⟩ : s.dec.st = .length ∧ 224 ≤ b.toNat := by simpa [rowSelected] using h
    simp only [stepDecoder, hst]
    exact if_pos hover
  | decLengthOk =>
    cases hb
    refine whenSelected_eq fun h => ?_
    obtain ⟨hst, hpos, hmax⟩ : s.dec.st = .length ∧ 1 ≤ b.toNat ∧ b.toNat ≤ payloadMax := by
      simpa [rowSelected] using h
    have hzero : b ≠ 0#8 := by rintro rfl; exact absurd hpos (by decide)
    simp only [stepDecoder, hst]
    exact (if_neg (Nat.not_lt.mpr hmax)).trans (if_neg hzero)
  | decDataMore =>
    cases hb
    refine whenSelected_eq fun h => ?_
    obtain ⟨hst, hmore⟩ : s.dec.st = .data ∧ s.dec.cnt.toNat + 1 < s.dec.plen.toNat := by
      simpa [rowSelected] using h
    simp only [stepDecoder, hst]
    exact if_neg hmore.ne
  | decDataLast =>
    cases hb
    exact whenSelected_eq fun h => by simp_all [rowSelected, stepDecoder, stepData]
  | decChecksumOk | decChecksumBad =>
    cases hb
    exact whenSelected_eq fun h => by simp_all [rowSelected, stepDecoder, stepChecksum]
  | decCrOk | decCrBad | decLfOk | decLfBad =>
    cases hb
    exact whenSelected_eq fun h => by simp_all [rowSelected, stepDecoder, stepCr, stepLf]
  | _ => cases hb

/-! ## The calls of several primitive steps -/

/-- One primitive step of a POLL call is one move: a pop, a DEC.STEP or a DISPATCH (R12, R192, R193). -/
theorem pollStep_moved (c : PollCall) (s t : State) (h : pollStep c s = .next t) : Moved s t := by
  unfold pollStep at h
  split at h
  · unfold pollPop at h
    split at h
    · split at h <;> cases h
      · exact (sameBlock_setPoll s _).moved
      · exact (sameBlock_setPoll_answer s _ _ _).moved
    all_goals
      obtain ⟨v, u, hpop, hk⟩ := finishWith_next h
      cases v <;> cases hk
      · exact (Move.pop hpop).moved (sameBlock_setPoll_answer u _ _ _)
      · exact (Move.pop hpop).moved (sameBlock_setPoll u _)
  · obtain ⟨e, u, hdec, hk⟩ := finishWith_next h
    rcases e with _ | (_ | _) <;> cases hk <;> exact (Move.decStep hdec).moved (sameBlock_setPoll u _)
  · next p _ =>
    unfold pollDisp at h
    split at h <;> cases h
    · exact (Move.dispatch p s).moved (sameBlock_setPoll_answer _ _ _ _)
    all_goals exact (Move.dispatch p s).moved (sameBlock_setPoll _ _)

theorem pollSteps_one_moved (s t : State) (h : pollSteps 1 s = .next t) : Moved s t := by
  cases hp : s.poll with
  | none =>
    rw [pollSteps_of_no_call 1 s hp] at h
    cases h
    exact SameBlock.moved (onlyChanges_refl _ s)
  | some c =>
    simp only [pollSteps, hp] at h
    split at h
    · next u hu => cases h; exact pollStep_moved c s t hu
    all_goals cases h

theorem pollSteps_moves (k : Nat) : ∀ s t, pollSteps k s = .next t → Relation.ReflTransGen Moved s t := by
  induction k with
  | zero => intro s t h; cases h; exact .refl
  | succ k ih =>
    intro s t h
    obtain ⟨u, hfirst, hrest, -⟩ := pollSteps_succ k s t h
    exact .head (pollSteps_one_moved s u hfirst) (ih u t hrest)

theorem pollRun_turned (s t : State) (h : pollRun s = .next t) : Turned s t :=
  ⟨pollSteps_moves _ s t h, fun hg => pollSteps_one_moved s t (by rwa [pollRun_primitive s hg] at h)⟩

theorem pollStart_turned (k : PollKind) (s t : State) (h : pollStart k s = .next t) : Turned s t := by
  unfold pollStart at h
  split at h
  · cases h
  · exact (pollRun_turned _ t h).after_sameBlock (sameBlock_setPoll s _)

theorem enqSteps_one_moved (s : State) : Moved s (enqSteps 1 s) := by
  cases hb : s.enq.busy with
  | true => rw [enqSteps_succ 0 s hb]; exact (Move.enqStep s).moved (onlyChanges_refl _ _)
  | false => rw [enqSteps_of_not_busy 1 s hb]; exact SameBlock.moved (onlyChanges_refl _ s)

theorem enqSteps_moves (k : Nat) : ∀ s, Relation.ReflTransGen Moved s (enqSteps k s) := by
  induction k with
  | zero => intro s; exact .refl
  | succ k ih =>
    intro s
    rw [← enqSteps_one_then]
    exact .head (enqSteps_one_moved s) (ih _)

theorem enqRun_turned (s : State) : Turned s (enqRun s) := by
  refine ⟨enqSteps_moves _ s, fun hg => ?_⟩
  rw [enqRun, enqFuel, hg]
  exact enqSteps_one_moved s

theorem enqStart_turned (frame : List Byte) (s : State) (hfit : frameFits frame) (hidle : s.enq.busy = false) :
    Turned s (enqStart frame s) := by
  have hencode : Moved s (enqEncoded frame s) := (Move.encode hfit hidle).moved (onlyChanges_refl _ _)
  cases hg : s.cfg.grain with
  | primitive => rw [enqStart_primitive frame s hg]; exact hencode.turned
  | call =>
    rw [enqStart_call frame s hg]
    exact ⟨.head hencode (enqRun_turned _).1, fun hg' => by rw [hg] at hg'; cases hg'⟩

theorem enqueuePacket_turned (ptype len : Byte) (payload : List Byte) (s t : State)
    (h : enqueuePacket ptype len payload s = .next t) : Turned s t := by
  refine whenAlive_turned h fun _ h => ?_
  split at h
  · cases h
  · next hidle =>
    split at h <;> cases h
    · exact (sameBlock_answer s _ _).turned
    · next frame hframe =>
      exact enqStart_turned frame s (encodedFrame_length _ _ _ _ hframe) (by simpa using hidle)

/-! ## Every operation, and every turn -/

theorem execDecStep_turned (b : Byte) (s t : State) (h : exec (.decStep b) s = .next t) : Turned s t := by
  obtain ⟨e, u, hdec, hk⟩ := finishWith_next h
  cases hk
  exact (Move.decStep hdec).turned (sameBlock_answer u _ _)

theorem execEncode_turned (ptype len : Byte) (payload : List Byte) (s t : State)
    (h : execEncode ptype len payload s = .next t) : Turned s t := by
  unfold execEncode at h
  split at h <;> cases h <;> exact (sameBlock_answer s _ _).turned

theorem execRxByte_turned (b : Byte) (s t : State) (h : execRxByte b s = .next t) : Turned s t := by
  unfold execRxByte at h
  refine whenAlive_turned h fun _ h => ?_
  cases h
  exact (Move.push .inp b s).turned (sameBlock_answer _ _ _)

theorem execTxByte_turned (s t : State) (h : execTxByte s = .next t) : Turned s t := by
  unfold execTxByte at h
  refine whenAlive_turned h fun _ h => ?_
  obtain ⟨v, u, hpop, hk⟩ := finishWith_next h
  cases v <;> cases hk
  · exact (Move.pop hpop).turned (sameBlock_answer u _ _)
  · exact (Move.txByte hpop).turned (sameBlock_answer _ _ _)

theorem execTxFlush_turned (s t : State) (h : execTxFlush s = .next t) : Turned s t := by
  unfold execTxFlush at h
  refine whenAlive_turned h fun _ h => ?_
  obtain ⟨bs, u, htake, hk⟩ := finishWith_next h
  cases hk
  exact (Move.txFlush htake).turned (sameBlock_answer _ _ _)

theorem execIoFail_turned (s t : State) (h : execIoFail s = .next t) (hhost : s.cfg.threads ≠ .device) :
    Turned s t := by
  unfold execIoFail at h
  split at h <;> cases h
  · next halive => exact (Move.ioFail halive hhost).turned (onlyChanges_refl _ _)
  · exact SameBlock.turned (onlyChanges_refl _ s)

/-- Whatever operation its variant admits, an agent's turn makes moves of the block and no other change to it. -/
theorem exec_turned (i : Instr) (s t : State) (h : exec i s = .next t) (hadmit : variantAdmits s.cfg.threads i = true) :
    Turned s t := by
  cases hrow : rowByte i with
  | some b =>
    rw [exec_row i b s hrow] at h
    split at h
    · exact execDecStep_turned b s t h
    · cases h
  | none =>
    cases i with
    | rbPush r b => cases h; exact (Move.push r b s).turned (sameBlock_answer _ _ _)
    | rbPop r =>
      obtain ⟨v, u, hpop, hk⟩ := finishWith_next h
      cases v <;> cases hk <;> exact (Move.pop hpop).turned (sameBlock_answer u _ _)
    | rbAvail | alive | badOp => cases h; exact (sameBlock_answer s _ _).turned
    | encodeFrame ptype len payload => exact execEncode_turned ptype len payload s t h
    | decStep b => exact execDecStep_turned b s t h
    | decReset => cases h; exact (Move.decReset s).turned (onlyChanges_refl _ _)
    | dispatch p => cases h; exact (Move.dispatch p s).turned (onlyChanges_refl _ _)
    | rxByte b => exact execRxByte_turned b s t h
    | poll1 | pollAll => exact whenAlive_turned h fun _ => pollStart_turned _ s t
    | enqueue ptype len payload => exact enqueuePacket_turned ptype len payload s t h
    | sendSpeed left right => exact enqueuePacket_turned typeSpeed 4#8 (speedPayload left right) s t h
    | sendMessage n text =>
      exact enqueuePacket_turned typeMessage (BitVec.ofNat 8 (messageLength n)) (text.take (messageLength n)) s t h
    | txByte => exact execTxByte_turned s t h
    | txFlush => exact execTxFlush_turned s t h
    | ioFail => exact execIoFail_turned s t h fun hd => by simp [variantAdmits, hd] at hadmit
    | frameSpeed | frameMessage | frameUnknown => exact pollStart_turned _ s t h
    | _ => cases hrow

theorem beginRequest_turned (a : Agent) (s t : State) (h : beginRequest a s = .next t) : Turned s t := by
  unfold beginRequest at h
  split at h
  · cases h; exact SameBlock.turned (onlyChanges_refl _ s)
  · split at h
    · cases h
    · next i rest _ =>
      split at h
      · cases h
      · split at h
        · cases h
        · next hadmit =>
          exact (exec_turned i _ t h (by simpa using hadmit)).after_sameBlock (sameBlock_setPort s a rest)

theorem agentTurn_turned (a : Agent) (s t : State) (h : agentTurn a s = .next t) : Turned s t := by
  unfold agentTurn at h
  split at h
  · cases h; exact SameBlock.turned (onlyChanges_refl _ s)
  · split at h
    · split at h
      · exact pollRun_turned s t h
      · exact beginRequest_turned _ s t h
    · split at h
      · cases h; exact enqRun_turned s
      · exact beginRequest_turned _ s t h
    · exact beginRequest_turned _ s t h

/-- Everything a step can do: the reset event, or an agent's turn, which makes moves of the block (R69, R270). -/
theorem step_next (s t : State) (h : step s = .next t) :
    (∃ ts, s.sched = .reset :: ts ∧ t = resetEvent (s.setSched ts)) ∨ Turned s t := by
  change takeTurn s = .next t at h
  unfold takeTurn at h
  split at h
  · cases h; exact .inr (SameBlock.turned (onlyChanges_refl _ s))
  · next ts hs => cases h; exact .inl ⟨ts, hs, rfl⟩
  · next a ts _ => exact .inr ((agentTurn_turned a _ t h).after_sameBlock (sameBlock_setSched s ts))

/-- A step that is not the reset event is an agent's turn, or nothing. -/
theorem step_turned (s t : State) (h : step s = .next t) (hreset : ∀ ts, s.sched ≠ .reset :: ts) : Turned s t := by
  rcases step_next s t h with ⟨ts, hs, -⟩ | hturn
  · exact absurd hs (hreset ts)
  · exact hturn

end Sys2Proof.Machine
end

section
/-! SUPPORT. What every move of the block keeps: soundness, the histories, `alive`, and the order of each ring's cursors. -/

namespace Sys2Proof.Machine

/-! ## What pops leave alone (R121, R198) -/

theorem onlyChanges_ringPop {r : RingSel} {s t : State} {v : Option Byte} (h : ringPop r s = .ok (v, t)) :
    OnlyChanges [ringPart r] s t := by
  rcases ringPop_cases r s with ⟨_, e⟩ | ⟨_, _, _, e⟩ | ⟨_, _, e⟩ <;> rw [e] at h <;> cases h
  · exact onlyChanges_refl _ s
  · exact onlyChanges_setRing s r _

theorem onlyChanges_ringTake {r : RingSel} (n : Nat) :
    ∀ {s t : State} {bs : List Byte}, ringTake r n s = .ok (bs, t) → OnlyChanges [ringPart r] s t := by
  induction n with
  | zero => intro s t bs h; cases h; exact onlyChanges_refl _ s
  | succ n ih =>
    intro s t bs h
    unfold ringTake at h
    split at h
    · next hpop =>
      split at h
      · next hrest => cases h; exact onlyChanges_trans (onlyChanges_ringPop hpop) (ih hrest)
      · cases h
    · next hpop => cases h; exact onlyChanges_ringPop hpop
    · cases h

/-! ## Soundness (R20, R25, R35, R41) -/

theorem SameBlock.sound {s t : State} (h : SameBlock s t) (hs : s.sound) : t.sound :=
  sound_of_parts s t hs (h .inRing (by simp)) (h .outRing (by simp)) (h .dec (by simp)) (h .enq (by simp))

theorem Move.sound {s t : State} (h : Move s t) (hs : s.sound) : t.sound := by
  cases h with
  | stay => exact hs
  | push r b => exact ringPush_sound r b s hs
  | pop h => exact ringPop_sound _ s t _ hs h
  | txByte h => exact (ringPop_sound .out s _ _ hs h : State.sound _)
  | txFlush h =>
    obtain ⟨bs, u, hu, hsound⟩ := ringTake_sound .out s.outR.count.toNat s hs
    rw [hu] at h
    cases h
    exact hsound
  | decStep h => exact stepDecoder_state_sound _ s t _ hs h
  | decReset => exact ⟨hs.1, hs.2.1, parserReset_sound s.dec hs.2.2.1.1, hs.2.2.2⟩
  | dispatch p => exact dispatchPacket_sound p s hs
  | encode hfit hidle => exact enqEncoded_sound _ s hs hfit hidle
  | enqStep => exact enqStep_sound s hs
  | ioFail => exact hs

theorem memory_nil_within (size : Nat) : Memory.within [] size := ⟨List.Pairwise.nil, nofun⟩

/-- A ring after reset is sound, for it has no unread slot (R26). -/
theorem ring_reset_sound : Ring.reset.sound := ⟨memory_nil_within _, nofun⟩

/-- The decoder after reset is as ParserReset leaves it (R36). -/
theorem dec_reset_sound : Dec.reset.sound := parserReset_sound Dec.reset (memory_nil_within _)

theorem enq_reset_sound : Enq.reset.sound := ⟨nofun, nofun⟩

theorem reset_sound : State.reset.sound := ⟨ring_reset_sound, ring_reset_sound, dec_reset_sound, enq_reset_sound⟩

theorem resetEvent_sound (s : State) : (resetEvent s).sound := reset_sound

/-! ## The histories (R43) -/

theorem historiesGrow_trans {s t u : State} (h : s.historiesGrow t) (h' : t.historiesGrow u) : s.historiesGrow u := by
  obtain ⟨hwire, hpkt, hmotor, htelem, hdiag⟩ := h
  obtain ⟨hwire', hpkt', hmotor', htelem', hdiag'⟩ := h'
  exact ⟨hwire.trans hwire', hpkt.trans hpkt', hmotor.trans hmotor', htelem.trans htelem', hdiag.trans hdiag'⟩

/-- What writes no history does not shorten one. -/
theorem historiesGrow_of_onlyChanges {parts : List Part} {s t : State} (h : OnlyChanges parts s t)
    (hparts : ∀ p ∈ [Part.wireOut, .pktOut, .motorOut, .telemOut, .diagOut], p ∉ parts) : s.historiesGrow t := by
  have hwire : t.wireOut = s.wireOut := h .wireOut (hparts _ (by simp))
  have hpkt : t.pktOut = s.pktOut := h .pktOut (hparts _ (by simp))
  have hmotor : t.motorOut = s.motorOut := h .motorOut (hparts _ (by simp))
  have htelem : t.telemOut = s.telemOut := h .telemOut (hparts _ (by simp))
  have hdiag : t.diagOut = s.diagOut := h .diagOut (hparts _ (by simp))
  simp [State.historiesGrow, hwire, hpkt, hmotor, htelem, hdiag]

theorem emitWire_historiesGrow (s : State) (bs : List Byte) : s.historiesGrow (s.emitWire bs) := by
  simp [State.historiesGrow]

theorem SameBlock.historiesGrow {s t : State} (h : SameBlock s t) : s.historiesGrow t :=
  historiesGrow_of_onlyChanges h (by decide)

theorem stepDecoder_historiesGrow {b : Byte} {s t : State} {e : Option Event} (h : stepDecoder b s = .ok (e, t)) :
    s.historiesGrow t := by
  rcases stepDecoder_cases b s t e h with ⟨d, -, -, rfl⟩ | ⟨g, -, -, rfl⟩ | ⟨payload, -, -, -, -, rfl⟩ <;>
    simp [State.historiesGrow]

theorem dispatchPacket_historiesGrow (p : Packet) (s : State) : s.historiesGrow (dispatchPacket p s) := by
  unfold dispatchPacket
  cases classify p <;> simp [raise, State.historiesGrow]

theorem Move.historiesGrow {s t : State} (h : Move s t) : s.historiesGrow t := by
  cases h with
  | stay => exact historiesGrow_of_onlyChanges (onlyChanges_refl [] s) (by decide)
  | push r b => exact historiesGrow_of_onlyChanges (onlyChanges_ringPush r b s) (by cases r <;> decide)
  | @pop r _ _ _ h => exact historiesGrow_of_onlyChanges (onlyChanges_ringPop h) (by cases r <;> decide)
  | txByte h =>
    exact historiesGrow_trans (historiesGrow_of_onlyChanges (onlyChanges_ringPop h) (by decide))
      (emitWire_historiesGrow _ _)
  | txFlush h =>
    exact historiesGrow_trans (historiesGrow_of_onlyChanges (onlyChanges_ringTake _ h) (by decide))
      (emitWire_historiesGrow _ _)
  | decStep h => exact stepDecoder_historiesGrow h
  | decReset => simp [State.historiesGrow]
  | dispatch p => exact dispatchPacket_historiesGrow p s
  | encode => exact historiesGrow_of_onlyChanges (onlyChanges_enqEncoded _ s) (by decide)
  | enqStep => exact historiesGrow_of_onlyChanges (enqStep_onlyChanges s) (by decide)
  | ioFail => simp [raise, State.historiesGrow]

/-! ## `alive` (R38, R201, R203) -/

/-- The settings are as before; `alive` is not set, and on the device not changed (R38, R203; log 7). -/
def KeepsDead (s t : State) : Prop :=
  t.cfg = s.cfg ∧ (s.alive = false → t.alive = false) ∧ (s.cfg.threads = .device → t.alive = s.alive)

theorem keepsDead_of_alive_eq {s t : State} (hcfg : t.cfg = s.cfg) (h : t.alive = s.alive) : KeepsDead s t :=
  ⟨hcfg, fun hdead => h.trans hdead, fun _ => h⟩

theorem keepsDead_of_onlyChanges {parts : List Part} {s t : State} (h : OnlyChanges parts s t)
    (hcfg : Part.cfg ∉ parts) (halive : Part.alive ∉ parts) : KeepsDead s t :=
  keepsDead_of_alive_eq (h .cfg hcfg) (h .alive halive)

theorem SameBlock.keepsDead {s t : State} (h : SameBlock s t) : KeepsDead s t :=
  keepsDead_of_onlyChanges h (by decide) (by decide)

theorem keepsDead_trans {s t u : State} (h : KeepsDead s t) (h' : KeepsDead t u) : KeepsDead s u := by
  obtain ⟨hcfg, hdead, hdevice⟩ := h
  obtain ⟨hcfg', hdead', hdevice'⟩ := h'
  exact ⟨hcfg'.trans hcfg, fun hs => hdead' (hdead hs), fun hs => (hdevice' (hcfg ▸ hs)).trans (hdevice hs)⟩

/-- Only IO.FAIL changes `alive`, and it clears it (R38, R199). -/
theorem Move.keepsDead {s t : State} (h : Move s t) : KeepsDead s t := by
  cases h with
  | stay => exact keepsDead_of_alive_eq rfl rfl
  | push r b => exact keepsDead_of_onlyChanges (onlyChanges_ringPush r b s) (by cases r <;> decide) (by cases r <;> decide)
  | @pop r _ _ _ h =>
    exact keepsDead_of_onlyChanges (onlyChanges_ringPop h) (by cases r <;> decide) (by cases r <;> decide)
  | txByte h => exact (keepsDead_of_onlyChanges (onlyChanges_ringPop h) (by decide) (by decide) : KeepsDead s _)
  | txFlush h => exact (keepsDead_of_onlyChanges (onlyChanges_ringTake _ h) (by decide) (by decide) : KeepsDead s _)
  | decStep h =>
    obtain ⟨-, -, halive, -, -, -, -, -, -, -, -, hcfg⟩ := stepDecoder_frame _ s t _ h
    exact keepsDead_of_alive_eq hcfg halive
  | decReset => exact keepsDead_of_alive_eq rfl rfl
  | dispatch p =>
    obtain ⟨-, -, -, halive, -, -, -, -, -, -, -, hcfg⟩ := dispatchPacket_frame p s
    exact keepsDead_of_alive_eq hcfg halive
  | encode => exact keepsDead_of_onlyChanges (onlyChanges_enqEncoded _ s) (by decide) (by decide)
  | enqStep => exact keepsDead_of_onlyChanges (enqStep_onlyChanges s) (by decide) (by decide)
  | ioFail halive hhost => exact ⟨rfl, fun _ => rfl, fun hd => absurd hd hhost⟩

/-! ## The cursors (R24, R79) -/

/-- What one move may do to the ring `r`: nothing, one push into a free slot, or pops of unread bytes, at most one of them
from `in` (R73, R198). -/
def RingMoved (r : RingSel) (ρ ρ' : Ring) : Prop :=
  ρ' = ρ ∨ (ρ.isFull = false ∧ ∃ b, ρ' = { ρ with buf := Memory.set ρ.buf ρ.wr.toNat b, wr := ρ.wr + 1#8 }) ∨
  ∃ k, k ≤ ρ.count.toNat ∧ (r = .inp → k ≤ 1) ∧ ρ' = { ρ with rd := ρ.rd + BitVec.ofNat 8 k }

theorem ring_eq_of_onlyChanges {parts : List Part} {s t : State} (h : OnlyChanges parts s t) (r : RingSel)
    (hr : ringPart r ∉ parts) : t.ring r = s.ring r := by
  cases r
  · exact h .inRing hr
  · exact h .outRing hr

theorem ringMoved_of_onlyChanges {parts : List Part} {s t : State} (h : OnlyChanges parts s t) (r : RingSel)
    (hr : ringPart r ∉ parts) : RingMoved r (s.ring r) (t.ring r) := .inl (ring_eq_of_onlyChanges h r hr)

theorem ringPart_not_mem {r r' : RingSel} (h : r' ≠ r) : ringPart r' ∉ [ringPart r] := by
  cases r <;> cases r' <;> simp_all [ringPart]

theorem ringPush_ringMoved (r r' : RingSel) (b : Byte) (s : State) :
    RingMoved r' (s.ring r') ((ringPush r b s).2.ring r') := by
  by_cases hr : r' = r
  · subst hr
    rcases ringPush_cases r' b s with ⟨_, e⟩ | ⟨hroom, e⟩ <;> rw [e]
    · exact .inl rfl
    · exact .inr (.inl ⟨hroom, b, setRing_ring s r' _⟩)
  · exact ringMoved_of_onlyChanges (onlyChanges_ringPush r b s) r' (ringPart_not_mem hr)

/-- Pops in a row move the read cursor by as many slots as there are pops that found a byte. -/
theorem ringTake_ring {r : RingSel} (n : Nat) :
    ∀ {s t : State} {bs : List Byte}, ringTake r n s = .ok (bs, t) →
      ∃ k ≤ n, t.ring r = { s.ring r with rd := (s.ring r).rd + BitVec.ofNat 8 k } := by
  induction n with
  | zero => intro s t bs h; cases h; exact ⟨0, le_rfl, by simp⟩
  | succ n ih =>
    intro s t bs h
    unfold ringTake at h
    rcases ringPop_cases r s with ⟨_, e⟩ | ⟨_, _, _, e⟩ | ⟨_, _, e⟩ <;> simp only [e] at h
    · cases h; exact ⟨0, Nat.zero_le _, by simp⟩
    · split at h
      · next hrest =>
        cases h
        obtain ⟨k, hk, ht⟩ := ih hrest
        refine ⟨k + 1, Nat.succ_le_succ hk, ?_⟩
        rw [ht, setRing_ring]
        simp only [Ring.mk.injEq, true_and, and_true]
        bv_omega
      · cases h
    · cases h

theorem ringPop_ringMoved {r : RingSel} {s t : State} {v : Option Byte} (h : ringPop r s = .ok (v, t)) (r' : RingSel) :
    RingMoved r' (s.ring r') (t.ring r') := by
  by_cases hr : r' = r
  · subst hr
    rcases ringPop_cases r' s with ⟨_, e⟩ | ⟨hne, _, _, e⟩ | ⟨_, _, e⟩ <;> rw [e] at h <;> cases h
    · exact .inl rfl
    · refine .inr (.inr ⟨1, ?_, fun _ => le_rfl, setRing_ring s r' _⟩)
      rw [Nat.one_le_iff_ne_zero, Ne, ← isEmpty_iff_count, hne]
      decide
  · exact ringMoved_of_onlyChanges (onlyChanges_ringPop h) r' (ringPart_not_mem hr)

theorem ringTake_ringMoved {s t : State} {bs : List Byte} (h : ringTake .out s.outR.count.toNat s = .ok (bs, t))
    (r : RingSel) : RingMoved r (s.ring r) (t.ring r) := by
  cases r with
  | inp => exact ringMoved_of_onlyChanges (onlyChanges_ringTake _ h) .inp (by decide)
  | out =>
    obtain ⟨k, hk, ht⟩ := ringTake_ring _ h
    exact .inr (.inr ⟨k, hk, nofun, ht⟩)

theorem enqStep_ringMoved (s : State) (r : RingSel) : RingMoved r (s.ring r) ((enqStep s).ring r) := by
  cases hp : s.enq.pending with
  | some frame =>
    rw [enqStep_room s frame hp]
    rcases enqRoom_cases frame s with ⟨_, e⟩ | ⟨_, e⟩ <;> rw [e] <;> exact .inl (by simp)
  | none =>
    rw [enqStep_push s hp]
    rcases enqPush_cases s with ⟨_, _, e⟩ | ⟨b, _, _, _, e⟩ | ⟨b, _, _, _, e⟩ | ⟨_, e⟩ <;> rw [e]
    · exact .inl rfl
    · simpa using ringPush_ringMoved .out r b s
    · simpa using ringPush_ringMoved .out r b s
    · exact .inl (by simp)

theorem Move.ringMoved {s t : State} (h : Move s t) (r : RingSel) : RingMoved r (s.ring r) (t.ring r) := by
  cases h with
  | stay => exact .inl rfl
  | push r' b => exact ringPush_ringMoved r' r b s
  | pop h => exact ringPop_ringMoved h r
  | txByte h => simpa using ringPop_ringMoved h r
  | txFlush h => simpa using ringTake_ringMoved h r
  | decStep h =>
    obtain ⟨hin, hout, -⟩ := stepDecoder_frame _ s t _ h
    cases r
    · exact .inl hin
    · exact .inl hout
  | decReset => exact .inl (by simp)
  | dispatch p =>
    obtain ⟨hin, hout, -⟩ := dispatchPacket_frame p s
    cases r
    · exact .inl hin
    · exact .inl hout
  | encode => exact ringMoved_of_onlyChanges (onlyChanges_enqEncoded _ s) r (by cases r <;> decide)
  | enqStep => exact enqStep_ringMoved s r
  | ioFail => exact .inl (by simp [raise])

theorem SameBlock.ring_eq {s t : State} (h : SameBlock s t) (r : RingSel) : t.ring r = s.ring r :=
  ring_eq_of_onlyChanges h r (by cases r <;> decide)

theorem Moved.ringMoved {s t : State} (h : Moved s t) (r : RingSel) : RingMoved r (s.ring r) (t.ring r) := by
  obtain ⟨u, v, hsu, hmove, hvt⟩ := h
  rw [← hsu.ring_eq r, hvt.ring_eq r]
  exact hmove.ringMoved r

/-- No cursor passes the other, and the write cursor goes at most one slot further (R24, R79). -/
theorem RingMoved.cursors {r : RingSel} {ρ ρ' : Ring} (h : RingMoved r ρ ρ') :
    (ρ'.rd - ρ.rd).toNat ≤ ρ.count.toNat ∧ (ρ'.wr - ρ.wr).toNat ≤ ρ.free ∧ (ρ'.wr = ρ.wr ∨ ρ'.wr = ρ.wr + 1#8) := by
  rcases h with rfl | ⟨hroom, b, rfl⟩ | ⟨k, hk, -, rfl⟩
  · simp
  · have hcount : ρ.count ≠ 255#8 := fun hc => by
      rw [(isFull_iff_count ρ).mpr hc] at hroom
      cases hroom
    refine ⟨by simp, ?_, .inr rfl⟩
    rw [free_eq]
    simp only
    bv_omega
  · refine ⟨?_, by simp, .inl rfl⟩
    simp only
    bv_omega

theorem RingMoved.inp_rd {ρ ρ' : Ring} (h : RingMoved .inp ρ ρ') : ρ'.rd = ρ.rd ∨ ρ'.rd = ρ.rd + 1#8 := by
  rcases h with rfl | ⟨-, b, rfl⟩ | ⟨k, -, hone, rfl⟩
  · exact .inl rfl
  · exact .inl rfl
  · obtain rfl | rfl : k = 0 ∨ k = 1 := by have := hone rfl; omega
    · exact .inl (by simp)
    · exact .inr rfl

end Sys2Proof.Machine
end

section
/-! SUPPORT. The statements of the state: reset, and what every step keeps (O48, O49, O52, O53, O54). -/

open Sys2Proof Sys2Proof.Machine

namespace Sys2Proof.Settled

/-- Settles O48: nothing is unread, in progress, presented or scheduled after reset. -/
theorem resetStateIsSound : Obligations.ResetStateIsSound := by
  unfold Obligations.ResetStateIsSound
  exact ⟨reset_sound, rfl, rfl, ⟨rfl, rfl, rfl, rfl, rfl⟩, rfl, rfl, rfl, rfl, rfl, rfl, rfl, rfl, rfl, rfl,
    fun a => by cases a <;> rfl, rfl⟩

/-- Settles O49: the reset event leaves a sound state, and every move of an agent's turn keeps one. -/
theorem everyStepKeepsStateSound : Obligations.EveryStepKeepsStateSound := by
  unfold Obligations.EveryStepKeepsStateSound
  intro s t hs hstep
  rcases step_next s t hstep with ⟨ts, -, rfl⟩ | hturn
  · exact resetEvent_sound _
  · exact hturn.lift (R := fun s t => s.sound → t.sound) (fun h h' hs => h' (h hs)) SameBlock.sound Move.sound hs

/-- Settles O52: every move of an agent's turn appends to the histories or leaves them. -/
theorem outputHistoriesOnlyGrow : Obligations.OutputHistoriesOnlyGrow := by
  unfold Obligations.OutputHistoriesOnlyGrow
  intro s t hstep hreset
  exact (step_turned s t hstep hreset).lift historiesGrow_trans SameBlock.historiesGrow Move.historiesGrow

/-- Settles O53: a turn of one primitive step is one move, which pushes one byte, pops what is unread, or leaves the rings. -/
theorem cursorsOnlyAdvance : Obligations.CursorsOnlyAdvance := by
  unfold Obligations.CursorsOnlyAdvance
  intro s t hstep hgrain hreset
  have hmoved := (step_turned s t hstep hreset).2 hgrain
  exact ⟨fun r => (hmoved.ringMoved r).cursors, (hmoved.ringMoved .inp).inp_rd⟩

/-- Settles O54: of the moves of a turn only IO.FAIL changes `alive`: it clears it, and is no move of the device. -/
theorem deadStaysDead : Obligations.DeadStaysDead := by
  unfold Obligations.DeadStaysDead
  intro s t hstep hreset
  have hkeeps : KeepsDead s t :=
    (step_turned s t hstep hreset).lift keepsDead_trans SameBlock.keepsDead Move.keepsDead
  obtain ⟨-, hdead, hdevice⟩ := hkeeps
  exact ⟨hdead, hdevice⟩

end Sys2Proof.Settled
end

section
/-! SUPPORT. What a push and a pop do to the bytes a ring holds, over any sequence of them (R64, R120, R121, R124). -/

namespace Sys2Proof.Machine

/-- A push into a ring that holds its bytes: `Full` and nothing else, or `Ok` and its byte behind the unread ones (R120). -/
theorem ringPush_of_holds (r : RingSel) (b : Byte) (s : State) (bs : List Byte) (h : (s.ring r).holds bs) :
    ringPush r b s = (.full, s) ∨ ((ringPush r b s).1 = .ok ∧ ((ringPush r b s).2.ring r).holds (bs ++ [b])) := by
  rcases ringPush_cases r b s with ⟨_, e⟩ | ⟨hroom, e⟩
  · exact .inl e
  · have hcount : (s.ring r).count ≠ 255#8 := fun hc => by
      rw [(isFull_iff_count _).mpr hc] at hroom
      cases hroom
    have hlt : bs.length < 255 := by
      rw [holds_length h]
      bv_omega
    exact .inr ⟨by rw [e], (ringPush_holds r b s bs h hlt).1⟩

/-- A pop of a ring that holds nothing is answered `None` (R121). -/
theorem ringPop_of_holds_nil (r : RingSel) (s : State) (h : (s.ring r).holds []) : ringPop r s = .ok (none, s) :=
  if_pos ((isEmpty_iff_count _).mpr (holds_length h).symm)

/-- The ring after a pop has one unread byte less (R121). -/
theorem count_pop (ρ : Ring) (n : Nat) (h : ρ.count.toNat = n + 1) :
    (Ring.count { ρ with rd := ρ.rd + 1#8 }).toNat = n := by
  unfold Ring.count at h ⊢
  bv_omega

/-- A pop of a ring takes the oldest byte it holds, and leaves the others (R121). -/
theorem ringPop_of_holds_cons (r : RingSel) (s : State) (b : Byte) (bs : List Byte) (h : (s.ring r).holds (b :: bs)) :
    ∃ t, ringPop r s = .ok (some b, t) ∧ (t.ring r).holds bs := by
  have hcount : (s.ring r).count.toNat = bs.length + 1 := (holds_length h).symm
  have hslots : readSlots (s.ring r).buf (s.ring r).rd (bs.length + 1) = (b :: bs).map some := by
    rw [← hcount]
    exact h
  rw [readSlots, List.map_cons, List.cons.injEq] at hslots
  obtain ⟨hfront, hrest⟩ := hslots
  rcases ringPop_cases r s with ⟨hempty, _⟩ | ⟨_, v, hv, e⟩ | ⟨_, hnone, _⟩
  · rw [isEmpty_iff_count, hcount] at hempty
    cases hempty
  · obtain rfl : v = b := Option.some.inj (hv.symm.trans hfront)
    refine ⟨_, e, ?_⟩
    rw [setRing_ring, Ring.holds, Ring.unread, count_pop _ _ hcount]
    exact hrest
  · cases hnone.symm.trans hfront

/-- Nothing is lost, repeated or reordered: a run of pushes and pops goes through, and the bytes held at its start followed by
those accepted are those returned followed by those held at its end (R64, R124). -/
theorem ringRun_fifo (r : RingSel) (ops : List (Option Byte)) :
    ∀ (s : State) (old : List Byte), (s.ring r).holds old →
      ∃ pushed popped t left, ringRun r ops s = .ok (pushed, popped, t) ∧ (t.ring r).holds left ∧
        old ++ pushed = popped ++ left := by
  induction ops with
  | nil => intro s old h; exact ⟨[], [], s, old, rfl, h, by simp⟩
  | cons op ops ih =>
    intro s old h
    cases op with
    | some b =>
      rcases ringPush_of_holds r b s old h with e | ⟨hok, hpush⟩
      · obtain ⟨pushed, popped, t, left, hrun, hleft, heq⟩ := ih s old h
        exact ⟨pushed, popped, t, left, by simp [ringRun, e, hrun], hleft, heq⟩
      · obtain ⟨pushed, popped, t, left, hrun, hleft, heq⟩ := ih _ _ hpush
        exact ⟨b :: pushed, popped, t, left, by simp [ringRun, hok, hrun], hleft, by simpa using heq⟩
    | none =>
      cases old with
      | nil =>
        obtain ⟨pushed, popped, t, left, hrun, hleft, heq⟩ := ih s [] h
        exact ⟨pushed, popped, t, left, by simp [ringRun, ringPop_of_holds_nil r s h, hrun], hleft, heq⟩
      | cons b old =>
        obtain ⟨u, hpop, hold⟩ := ringPop_of_holds_cons r s b old h
        obtain ⟨pushed, popped, t, left, hrun, hleft, heq⟩ := ih u old hold
        exact ⟨pushed, b :: popped, t, left, by simp [ringRun, hpop, hrun], hleft, by simp [heq]⟩

end Sys2Proof.Machine
end

section
/-! SUPPORT. The statement of the ring's order (O4). -/

open Sys2Proof Sys2Proof.Machine

namespace Sys2Proof.Settled

/-- Settles O4, by induction on the sequence: a push adds its byte behind the bytes held, a pop takes the first of them. -/
theorem ringIsFirstInFirstOut : Obligations.RingIsFirstInFirstOut := by
  unfold Obligations.RingIsFirstInFirstOut
  exact ringRun_fifo

end Sys2Proof.Settled
end

section
/-! SUPPORT. What cannot fault from a sound state (R65, R271), and what faults for want of a value (log 9). -/

namespace Sys2Proof.Machine

/-! ## Answers that are no fault -/

/-- The answer is a next state or a refusal. -/
def NoFault (a : Answer) : Prop := ∀ f, a ≠ .fault f

theorem noFault_next (s : State) : NoFault (.next s) := nofun

theorem noFault_refused (r : Refusal) : NoFault (.refused r) := nofun

theorem noFault_finishWith {α : Type} {r : Except Fault (α × State)} {k : α → State → Answer}
    (hr : ∃ v s, r = .ok (v, s)) (hk : ∀ v s, NoFault (k v s)) : NoFault (finishWith r k) := by
  obtain ⟨v, s, rfl⟩ := hr
  exact hk v s

theorem noFault_whenAlive {a : Agent} {k : State → Answer} {s : State} (hk : NoFault (k s)) :
    NoFault (whenAlive a s k) := by
  unfold whenAlive
  split
  · exact hk
  · exact noFault_next _

/-- An ENQUEUE reads no slot and no payload byte, whatever the state (R194, R195). -/
theorem enqueuePacket_noFault (ptype len : Byte) (payload : List Byte) (s : State) :
    NoFault (enqueuePacket ptype len payload s) := by
  refine noFault_whenAlive ?_
  split
  · exact noFault_refused _
  · split <;> exact noFault_next _

theorem execEncode_noFault (ptype len : Byte) (payload : List Byte) (s : State) :
    NoFault (execEncode ptype len payload s) := by
  unfold execEncode
  split <;> exact noFault_next _

theorem execRxByte_noFault (b : Byte) (s : State) : NoFault (execRxByte b s) := noFault_whenAlive (noFault_next _)

theorem execIoFail_noFault (s : State) : NoFault (execIoFail s) := by
  unfold execIoFail
  split <;> exact noFault_next _

/-! ## From a sound state -/

section
variable {s : State} (hs : s.sound)
include hs

theorem pollRun_noFault : NoFault (pollRun s) := by
  obtain ⟨t, ht, -⟩ := pollSteps_sound (pollFuel s) s hs
  rw [pollRun, ht]
  exact noFault_next t

theorem pollStart_noFault (k : PollKind) : NoFault (pollStart k s) := by
  unfold pollStart
  split
  · exact noFault_refused _
  · exact pollRun_noFault ((sameBlock_setPoll s _).sound hs)

theorem execDecStep_noFault (b : Byte) : NoFault (exec (.decStep b) s) :=
  noFault_finishWith (stepDecoder_ok b s hs.2.2.1) fun _ _ => noFault_next _

theorem execRbPop_noFault (r : RingSel) : NoFault (execRbPop r s) :=
  noFault_finishWith (ringPop_ok r s (sound_ring s r hs)) fun v _ => by cases v <;> exact noFault_next _

theorem execTxByte_noFault : NoFault (execTxByte s) :=
  noFault_whenAlive (noFault_finishWith (ringPop_ok .out s hs.2.1) fun v _ => by cases v <;> exact noFault_next _)

theorem execTxFlush_noFault : NoFault (execTxFlush s) := by
  obtain ⟨bs, t, htake, -⟩ := ringTake_sound .out s.outR.count.toNat s hs
  exact noFault_whenAlive (noFault_finishWith ⟨bs, t, htake⟩ fun _ _ => noFault_next _)

/-- Every operation pops, steps the decoder or polls, which a sound state allows, or reads no store at all (R65). -/
theorem exec_noFault (i : Instr) : NoFault (exec i s) := by
  cases hrow : rowByte i with
  | some b =>
    rw [exec_row i b s hrow]
    split
    · exact execDecStep_noFault hs b
    · exact noFault_refused _
  | none =>
    cases i with
    | rbPush | rbAvail | decReset | dispatch | alive | badOp => exact noFault_next _
    | rbPop r => exact execRbPop_noFault hs r
    | encodeFrame ptype len payload => exact execEncode_noFault ptype len payload s
    | decStep b => exact execDecStep_noFault hs b
    | rxByte b => exact execRxByte_noFault b s
    | poll1 | pollAll => exact noFault_whenAlive (pollStart_noFault hs _)
    | enqueue ptype len payload => exact enqueuePacket_noFault ptype len payload s
    | sendSpeed left right => exact enqueuePacket_noFault typeSpeed 4#8 (speedPayload left right) s
    | sendMessage n text =>
      exact enqueuePacket_noFault typeMessage (BitVec.ofNat 8 (messageLength n)) (text.take (messageLength n)) s
    | txByte => exact execTxByte_noFault hs
    | txFlush => exact execTxFlush_noFault hs
    | ioFail => exact execIoFail_noFault s
    | frameSpeed | frameMessage | frameUnknown => exact pollStart_noFault hs _
    | _ => cases hrow

theorem beginRequest_noFault (a : Agent) : NoFault (beginRequest a s) := by
  unfold beginRequest
  split
  · exact noFault_next _
  · split
    · exact noFault_refused _
    · next i rest _ =>
      split
      · exact noFault_refused _
      · split
        · exact noFault_refused _
        · exact exec_noFault ((sameBlock_setPort s a rest).sound hs) i

theorem agentTurn_noFault (a : Agent) : NoFault (agentTurn a s) := by
  unfold agentTurn
  split
  · exact noFault_next _
  · split
    · split
      · exact pollRun_noFault hs
      · exact beginRequest_noFault hs _
    · split
      · exact noFault_next _
      · exact beginRequest_noFault hs _
    · exact beginRequest_noFault hs _

theorem step_noFault : NoFault (step s) := by
  show NoFault (takeTurn s)
  unfold takeTurn
  split
  · exact noFault_next _
  · exact noFault_next _
  · next a ts _ => exact agentTurn_noFault ((sameBlock_setSched s ts).sound hs) a

end

/-! ## Reads without a value, and a write past the payload store (log 9) -/

/-- A read over an index that holds no value gives nothing. -/
theorem read_eq_none (m : Memory) (n : Nat) :
    ∀ i k, k < n → Memory.get m (i + k) = none → Memory.read m i n = none := by
  induction n with
  | zero => intro i k hk _; exact absurd hk (Nat.not_lt_zero k)
  | succ n ih =>
    intro i k hk hnone
    cases k with
    | zero => simp [Memory.read, show Memory.get m i = none from hnone]
    | succ k =>
      have hrest : Memory.read m (i + 1) n = none :=
        ih (i + 1) k (Nat.lt_of_succ_lt_succ hk) (by rw [Nat.add_right_comm]; exact hnone)
      simp [Memory.read, hrest]

/-- A pop of a slot that holds no value (R271). -/
theorem ringPop_without_value (r : RingSel) (s : State) (hne : (s.ring r).wr ≠ (s.ring r).rd)
    (hnone : Memory.get (s.ring r).buf (s.ring r).rd.toNat = none) : ringPop r s = .error .slotWithoutValue := by
  rcases ringPop_cases r s with ⟨hempty, _⟩ | ⟨_, v, hv, _⟩ | ⟨_, _, e⟩
  · exact absurd ((isEmpty_iff _).mp hempty) hne
  · cases hnone.symm.trans hv
  · exact e

/-- A data byte past index 222 (R33, R65). -/
theorem stepDecoder_past_payload (b : Byte) (s : State) (hst : s.dec.st = .data) (hcnt : 223 ≤ s.dec.cnt.toNat) :
    stepDecoder b s = .error .payloadIndex := by
  have htake : ∀ st, takeData b st s = .error .payloadIndex := fun _ => if_neg (Nat.not_lt.mpr hcnt)
  simp only [stepDecoder, hst, stepData, htake, ite_self]

/-- A packet whose payload has a byte that holds no value (R33, R168). -/
theorem stepDecoder_payload_without_value (k : Nat) (s : State) (hst : s.dec.st = .lf) (hk : k < s.dec.plen.toNat)
    (hnone : Memory.get s.dec.pay k = none) : stepDecoder lfByte s = .error .payloadWithoutValue := by
  have hread : Memory.read s.dec.pay 0 s.dec.plen.toNat = none :=
    read_eq_none _ _ 0 k hk (by rw [Nat.zero_add]; exact hnone)
  simp [stepDecoder, hst, stepLf, completePacket, hread]

end Sys2Proof.Machine
end

section
/-! SUPPORT. The statements of the faults (O50, O51). -/

open Sys2Proof Sys2Proof.Machine

namespace Sys2Proof.Settled

/-- Settles O50: what a sound state lets pop, decode and poll does not fault, and nothing else reads a store. -/
theorem soundStateNeverFaults : Obligations.SoundStateNeverFaults := by
  unfold Obligations.SoundStateNeverFaults
  intro s f hs
  exact step_noFault hs f

/-- Settles O51: the operation hands on the fault of its pop or of its decoder step. -/
theorem bytesWithoutValueFault : Obligations.BytesWithoutValueFault := by
  unfold Obligations.BytesWithoutValueFault
  refine ⟨fun r s hne hnone => ?_, fun b s hst hcnt => ?_, fun k s hst hk hnone => ?_⟩
  · show execRbPop r s = _
    rw [execRbPop, ringPop_without_value r s hne hnone, finishWith]
  · show execDecStep b s = _
    rw [execDecStep, stepDecoder_past_payload b s hst hcnt, answerEvent, finishWith]
  · show execDecStep lfByte s = _
    rw [execDecStep, stepDecoder_payload_without_value k s hst hk hnone, answerEvent, finishWith]

end Sys2Proof.Settled
end

section
/-! SUPPORT. What an operation may change: its own agent's side of the block (R73, R259). -/

namespace Sys2Proof.Machine

/-- The side of the block an agent's operations may change, with the record of results where they return one (R37, R73, R226,
R259). -/
def agentSide : Agent → List Part
  | .rx => [.inRing, .returns]
  | .poll => [.inRing, .dec, .poll, .pktOut, .motorOut, .telemOut, .diagOut, .returns]
  | .cmd => [.outRing, .enq, .returns]
  | .tx => [.outRing, .wireOut, .returns]
  | .fault => [.alive, .diagOut]
  | .status => [.returns]

/-! ## The shared operations -/

theorem onlyChanges_setPoll (s : State) (c : Option PollCall) : OnlyChanges [.poll] s (s.setPoll c) := by
  intro p hp; cases p <;> simp [Part.same] at hp ⊢

theorem onlyChanges_emitWire (s : State) (bs : List Byte) : OnlyChanges [.wireOut] s (s.emitWire bs) := by
  intro p hp; cases p <;> simp [Part.same] at hp ⊢

theorem onlyChanges_parserReset (s : State) : OnlyChanges [.dec] s s.parserReset := by
  intro p hp; cases p <;> simp [Part.same] at hp ⊢

/-- A DEC.STEP changes `dec`, `pkt_out` and `diag_out` only (R160). -/
theorem onlyChanges_stepDecoder {b : Byte} {s t : State} {e : Option Event} (h : stepDecoder b s = .ok (e, t)) :
    OnlyChanges [.dec, .pktOut, .diagOut] s t := by
  rcases stepDecoder_cases b s t e h with ⟨d, -, -, rfl⟩ | ⟨g, -, -, rfl⟩ | ⟨payload, -, -, -, -, rfl⟩ <;>
    intro p hp <;> cases p <;> simp [Part.same] at hp ⊢

/-- A DISPATCH changes the three histories it may write (R226). -/
theorem onlyChanges_dispatchPacket (p : Packet) (s : State) :
    OnlyChanges [.motorOut, .telemOut, .diagOut] s (dispatchPacket p s) := by
  intro q hq
  unfold dispatchPacket
  cases classify p <;> cases q <;> simp [Part.same, raise] at hq ⊢

theorem onlyChanges_ioFail (s : State) : OnlyChanges [.alive, .diagOut] s (raise .transportIoError s) := by
  intro p hp; cases p <;> simp [Part.same, raise] at hp ⊢

/-- Two changes one after the other, each of which keeps to a part of the same side. -/
theorem onlyChanges_then {ps qs parts : List Part} {s t u : State} (h : OnlyChanges ps s t) (h' : OnlyChanges qs t u)
    (hps : ps ⊆ parts := by decide) (hqs : qs ⊆ parts := by decide) : OnlyChanges parts s u :=
  onlyChanges_trans (onlyChanges_mono hps h) (onlyChanges_mono hqs h')

theorem onlyChanges_whenAlive {parts : List Part} {a : Agent} {k : State → Answer} {s t : State}
    (h : whenAlive a s k = .next t) (hret : .returns ∈ parts) (hk : k s = .next t → OnlyChanges parts s t) :
    OnlyChanges parts s t := by
  unfold whenAlive at h
  split at h
  · exact hk h
  · cases h; exact onlyChanges_mono (by simpa using hret) (onlyChanges_answer s a .dead)

/-! ## The polling agent -/

/-- A call that ends: it is no longer in progress, and its result is handed back. -/
theorem onlyChanges_setPoll_answer (s : State) (c : Option PollCall) (a : Agent) (v : Result) :
    OnlyChanges [.poll, .returns] s ((s.setPoll c).answer a v) :=
  onlyChanges_then (onlyChanges_setPoll s c) (onlyChanges_answer _ a v)

theorem pollStep_onlyChanges (c : PollCall) (s t : State) (h : pollStep c s = .next t) :
    OnlyChanges (agentSide .poll) s t := by
  unfold pollStep at h
  split at h
  · unfold pollPop at h
    split at h
    · split at h <;> cases h
      · exact onlyChanges_mono (by decide) (onlyChanges_setPoll s _)
      · exact onlyChanges_mono (by decide) (onlyChanges_setPoll_answer s _ _ _)
    all_goals
      obtain ⟨v, u, hpop, hk⟩ := finishWith_next h
      cases v <;> cases hk
      · exact onlyChanges_then (onlyChanges_ringPop hpop) (onlyChanges_setPoll_answer u _ _ _)
      · exact onlyChanges_then (onlyChanges_ringPop hpop) (onlyChanges_setPoll u _)
  · obtain ⟨e, u, hdec, hk⟩ := finishWith_next h
    rcases e with _ | (_ | _) <;> cases hk <;>
      exact onlyChanges_then (onlyChanges_stepDecoder hdec) (onlyChanges_setPoll u _)
  · next p _ =>
    have hdisp := onlyChanges_dispatchPacket p s
    unfold pollDisp at h
    split at h <;> cases h
    · exact onlyChanges_then hdisp (onlyChanges_setPoll_answer _ _ _ _)
    all_goals exact onlyChanges_then hdisp (onlyChanges_setPoll _ _)

theorem pollSteps_onlyChanges (k : Nat) : ∀ s t, pollSteps k s = .next t → OnlyChanges (agentSide .poll) s t := by
  induction k with
  | zero => intro s t h; cases h; exact onlyChanges_refl _ s
  | succ k ih =>
    intro s t h
    unfold pollSteps at h
    split at h
    · cases h; exact onlyChanges_refl _ s
    · next c _ =>
      split at h
      · next u hu => exact onlyChanges_trans (pollStep_onlyChanges c s u hu) (ih u t h)
      all_goals cases h

theorem pollStart_onlyChanges (k : PollKind) (s t : State) (h : pollStart k s = .next t) :
    OnlyChanges (agentSide .poll) s t := by
  unfold pollStart at h
  split at h
  · cases h
  · exact onlyChanges_then (onlyChanges_setPoll s _) (pollSteps_onlyChanges _ _ t h)

theorem execDecStep_onlyChanges (b : Byte) (s t : State) (h : exec (.decStep b) s = .next t) :
    OnlyChanges (agentSide .poll) s t := by
  obtain ⟨e, u, hdec, hk⟩ := finishWith_next h
  cases hk
  exact onlyChanges_then (onlyChanges_stepDecoder hdec) (onlyChanges_answer u _ _)

/-! ## The enqueuing agent -/

theorem enqStart_onlyChanges (frame : List Byte) (s : State) : OnlyChanges (agentSide .cmd) s (enqStart frame s) := by
  have hencode := onlyChanges_enqEncoded frame s
  cases hg : s.cfg.grain with
  | primitive => rw [enqStart_primitive frame s hg]; exact onlyChanges_mono (by decide) hencode
  | call => rw [enqStart_call frame s hg]; exact onlyChanges_then hencode (enqSteps_onlyChanges _ _)

theorem enqueuePacket_onlyChanges (ptype len : Byte) (payload : List Byte) (s t : State)
    (h : enqueuePacket ptype len payload s = .next t) : OnlyChanges (agentSide .cmd) s t := by
  refine onlyChanges_whenAlive h (by decide) fun h => ?_
  split at h
  · cases h
  · split at h <;> cases h
    · exact onlyChanges_mono (by decide) (onlyChanges_answer s _ _)
    · exact enqStart_onlyChanges _ s

theorem execEncode_onlyChanges (ptype len : Byte) (payload : List Byte) (s t : State)
    (h : execEncode ptype len payload s = .next t) : OnlyChanges (agentSide .cmd) s t := by
  unfold execEncode at h
  split at h <;> cases h <;> exact onlyChanges_mono (by decide) (onlyChanges_answer s _ _)

/-! ## The ring operations and the other agents -/

/-- A ring and the results belong to the side of its producer (R73). -/
theorem ringPart_returns_producer (r : RingSel) : [ringPart r, .returns] ⊆ agentSide (producer r) := by
  cases r <;> decide

/-- A ring and the results belong to the side of its consumer (R73). -/
theorem ringPart_returns_consumer (r : RingSel) : [ringPart r, .returns] ⊆ agentSide (consumer r) := by
  cases r <;> decide

theorem onlyChanges_ringPush_answer (r : RingSel) (b : Byte) (s : State) (a : Agent) (v : Result) :
    OnlyChanges [ringPart r, .returns] s ((ringPush r b s).2.answer a v) :=
  onlyChanges_then (onlyChanges_ringPush r b s) (onlyChanges_answer _ a v) (by simp) (by simp)

theorem execRbPop_onlyChanges (r : RingSel) (s t : State) (h : execRbPop r s = .next t) :
    OnlyChanges [ringPart r, .returns] s t := by
  obtain ⟨v, u, hpop, hk⟩ := finishWith_next h
  cases v <;> cases hk <;>
    exact onlyChanges_then (onlyChanges_ringPop hpop) (onlyChanges_answer u _ _) (by simp) (by simp)

theorem execRxByte_onlyChanges (b : Byte) (s t : State) (h : execRxByte b s = .next t) :
    OnlyChanges (agentSide .rx) s t := by
  refine onlyChanges_whenAlive h (by decide) fun h => ?_
  cases h
  exact onlyChanges_ringPush_answer .inp b s _ _

/-- Bytes taken from `out` go onto the wire, and the operation returns them (R197, R198). -/
theorem onlyChanges_send {s u : State} (h : OnlyChanges [ringPart .out] s u) (bs : List Byte) (v : Result) :
    OnlyChanges (agentSide .tx) s ((u.emitWire bs).answer .tx v) :=
  onlyChanges_then h (onlyChanges_then (parts := [.wireOut, .returns]) (onlyChanges_emitWire u bs) (onlyChanges_answer _ _ _))

theorem execTxByte_onlyChanges (s t : State) (h : execTxByte s = .next t) : OnlyChanges (agentSide .tx) s t := by
  refine onlyChanges_whenAlive h (by decide) fun h => ?_
  obtain ⟨v, u, hpop, hk⟩ := finishWith_next h
  cases v <;> cases hk
  · exact onlyChanges_then (onlyChanges_ringPop hpop) (onlyChanges_answer u _ _)
  · exact onlyChanges_send (onlyChanges_ringPop hpop) _ _

theorem execTxFlush_onlyChanges (s t : State) (h : execTxFlush s = .next t) : OnlyChanges (agentSide .tx) s t := by
  refine onlyChanges_whenAlive h (by decide) fun h => ?_
  obtain ⟨bs, u, htake, hk⟩ := finishWith_next h
  cases hk
  exact onlyChanges_send (onlyChanges_ringTake _ htake) _ _

theorem execIoFail_onlyChanges (s t : State) (h : execIoFail s = .next t) : OnlyChanges (agentSide .fault) s t := by
  unfold execIoFail at h
  split at h <;> cases h
  · exact onlyChanges_ioFail s
  · exact onlyChanges_refl _ s

/-! ## Every operation -/

/-- The transition rows are the polling agent's (R73; log 3). -/
theorem home_row {i : Instr} {b : Byte} (h : rowByte i = some b) : home i = .poll := by
  cases i <;> cases h <;> rfl

/-- An operation keeps to the side of the agent it belongs to (R73, R259). -/
theorem exec_onlyChanges (i : Instr) (s t : State) (h : exec i s = .next t) : OnlyChanges (agentSide (home i)) s t := by
  cases hrow : rowByte i with
  | some b =>
    rw [exec_row i b s hrow] at h
    rw [home_row hrow]
    split at h
    · exact execDecStep_onlyChanges b s t h
    · cases h
  | none =>
    cases i with
    | rbPush r b => cases h; exact onlyChanges_mono (ringPart_returns_producer r) (onlyChanges_ringPush_answer r b s _ _)
    | rbPop r => exact onlyChanges_mono (ringPart_returns_consumer r) (execRbPop_onlyChanges r s t h)
    | rbAvail | alive | badOp => cases h; exact onlyChanges_answer s _ _
    | encodeFrame ptype len payload => exact execEncode_onlyChanges ptype len payload s t h
    | decStep b => exact execDecStep_onlyChanges b s t h
    | decReset => cases h; exact onlyChanges_mono (parts' := agentSide .poll) (by decide) (onlyChanges_parserReset s)
    | dispatch p => cases h; exact onlyChanges_mono (parts' := agentSide .poll) (by decide) (onlyChanges_dispatchPacket p s)
    | rxByte b => exact execRxByte_onlyChanges b s t h
    | poll1 | pollAll => exact onlyChanges_whenAlive h (by decide) (pollStart_onlyChanges _ s t)
    | enqueue ptype len payload => exact enqueuePacket_onlyChanges ptype len payload s t h
    | sendSpeed left right => exact enqueuePacket_onlyChanges typeSpeed 4#8 (speedPayload left right) s t h
    | sendMessage n text =>
      exact enqueuePacket_onlyChanges typeMessage (BitVec.ofNat 8 (messageLength n)) (text.take (messageLength n)) s t h
    | txByte => exact execTxByte_onlyChanges s t h
    | txFlush => exact execTxFlush_onlyChanges s t h
    | ioFail => exact execIoFail_onlyChanges s t h
    | frameSpeed | frameMessage | frameUnknown => exact pollStart_onlyChanges _ s t h
    | _ => cases hrow

end Sys2Proof.Machine
end

section
/-! SUPPORT. The statements of an operation's side and of the step that runs it (O55, O57). -/

open Sys2Proof Sys2Proof.Machine

namespace Sys2Proof.Settled

/-- Settles O55: each clause is the side of one agent. -/
theorem operationsKeepToTheirAgent : Obligations.OperationsKeepToTheirAgent := by
  unfold Obligations.OperationsKeepToTheirAgent
  intro i s t h
  have hside : ∀ a, home i = a → OnlyChanges (agentSide a) s t := fun a ha => ha ▸ exec_onlyChanges i s t h
  exact ⟨hside .rx, hside .poll, hside .cmd, hside .tx, hside .fault, hside .status⟩

/-- Settles O57: the turn is not spent on waiting or on a call in progress, so it begins the request; that the operation is
well-formed is not needed. -/
theorem stepRunsTheDecodedOperation : Obligations.StepRunsTheDecodedOperation := by
  unfold Obligations.StepRunsTheDecodedOperation
  intro s a ts i rest hsched hfree hpoll hcmd hdecode hissue hadmit _
  exact step_begins_request s a ts i rest hsched hfree hpoll hcmd hdecode hissue hadmit

end Sys2Proof.Settled
end

section
/-! SUPPORT. The bytes of a frame by position (R90). -/

namespace Sys2Proof.Machine

section
variable (ptype : Byte) (payload : List Byte)

theorem wireFrame_payload {k : Nat} (hk : k < payload.length) : (wireFrame ptype payload)[4 + k]? = payload[k]? := by
  rw [Nat.add_comm]
  simp [wireFrame, List.getElem?_append_left hk]

/-- The checksum, CR and LF stand behind the payload. -/
theorem wireFrame_trailer (k : Nat) : (wireFrame ptype payload)[4 + k + payload.length]? =
    [payload.foldl (· ^^^ ·) 0#8, 0x0D#8, 0x0A#8][k]? := by
  rw [show 4 + k + payload.length = payload.length + k + 4 by omega]
  simp [wireFrame, List.getElem?_append_right]

end

end Sys2Proof.Machine
end

section
/-! SUPPORT. The statements of the encodings (O7, O23, O32, O59, O60). -/

open Sys2Proof Sys2Proof.Machine

namespace Sys2Proof.Settled

/-- Settles O59: each operand's reader undoes its writer. -/
theorem decodeOfEncodedRequestIsTheRequest : Obligations.DecodeOfEncodedRequestIsTheRequest := by
  unfold Obligations.DecodeOfEncodedRequestIsTheRequest
  exact decode_encode_append

/-- Settles O7: the frame ENCODE answers is the frame written out. -/
theorem encodeBuildsTheWireFrame : Obligations.EncodeBuildsTheWireFrame := by
  unfold Obligations.EncodeBuildsTheWireFrame
  intro ptype len payload s hl hp
  have hlen : BitVec.ofNat 8 payload.length = len := by rw [hp]; simp
  refine ⟨wireFrame ptype payload, ?_, by rw [wireFrame_length]; omega, rfl, rfl, rfl, congrArg some hlen, ?_, ?_⟩
  · show execEncode ptype len payload s = _
    rw [execEncode, encodedFrame_eq_wireFrame ptype len payload hp hl]
    rfl
  · rw [← hp]
    exact fun k hk => wireFrame_payload ptype payload hk
  · have htrailer := wireFrame_trailer ptype payload
    rw [hp] at htrailer
    exact ⟨htrailer 0, htrailer 1, htrailer 2⟩

/-- Settles O23: a row is DEC.STEP of its byte where it is selected, and the refusal elsewhere. -/
theorem unselectedRowIsRefused : Obligations.UnselectedRowIsRefused := by
  unfold Obligations.UnselectedRowIsRefused
  intro i b s hrow hunselected
  rw [exec_row i b s hrow, hunselected]
  rfl

/-- Settles O32: the code falls into the last case of the decoder, and BADOP only answers. -/
theorem unassignedCodeReturnsBadOp : Obligations.UnassignedCodeReturnsBadOp := by
  unfold Obligations.UnassignedCodeReturnsBadOp
  exact fun code s h => ⟨decode_badOp code [] h, rfl⟩

/-- Settles O60: each word is the encoding of a well-formed request. -/
theorem writtenOutWordsDecode : Obligations.WrittenOutWordsDecode := by
  unfold Obligations.WrittenOutWordsDecode
  exact ⟨decode_encode_append (.rbPush .out 0x24#8) [] rfl, decode_encode_append .alive [] rfl,
    decode_encode_append (.badOp 0x11#5) [] rfl, decode_encode_append (.sendSpeed 5000#16 10000#16) [] rfl,
    decode_encode_append (.frameSpeed 4#8 [0x88#8, 0x13#8, 0x10#8, 0x27#8, 0xAC#8, 0x0D#8, 0x0A#8]) [] rfl⟩

end Sys2Proof.Settled
end

section
/-! SUPPORT. FEED (R108): sequences of bytes, what they add to `pkt_out`, and that only the decoder's registers
decide its events. -/

namespace Sys2Proof.Machine

/-! ## Only the decoder is read (R160) -/

/-- What a decoder step shows of its state: the decoder. -/
def decResult (r : Stepped) : Except Fault (Option Event × Dec) := r.map fun x => (x.1, x.2.dec)

theorem decResult_ite (p : Prop) [Decidable p] (r r' : Stepped) :
    decResult (if p then r else r') = if p then decResult r else decResult r' := apply_ite decResult p r r'

theorem decResult_takeData (b : Byte) (st : FramePos) {s s' : State} (h : s'.dec = s.dec) :
    decResult (takeData b st s') = decResult (takeData b st s) := by
  simp only [takeData, decResult_ite, h]
  rfl

theorem decResult_completePacket {s s' : State} (h : s'.dec = s.dec) :
    decResult (completePacket s') = decResult (completePacket s) := by
  unfold completePacket
  rw [h]
  cases Memory.read s.dec.pay 0 s.dec.plen.toNat with
  | none => rfl
  | some payload => simp [decResult, Except.map, h]

/-- DEC.STEP does the same to the same decoder, whatever the rest of the state holds. -/
theorem decResult_stepDecoder (b : Byte) {s s' : State} (h : s'.dec = s.dec) :
    decResult (stepDecoder b s') = decResult (stepDecoder b s) := by
  have hadvance : ∀ st, decResult (advance st s') = decResult (advance st s) := fun st => by
    simp [decResult, Except.map, advance, h]
  have habandon : ∀ d, decResult (abandon d s') = decResult (abandon d s) := fun d => by
    cases d <;> simp [decResult, Except.map, abandon, raise, h]
  have hlength : ∀ st, decResult (takeLength b st s') = decResult (takeLength b st s) := fun st => by
    simp [decResult, Except.map, takeLength, h]
  have htype : decResult (takeType b s') = decResult (takeType b s) := by
    simp [decResult, Except.map, takeType, h]
  unfold stepDecoder
  rw [h]
  cases s.dec.st with
  | sync1 => simp only [stepSync1, decResult_ite, hadvance]
  | sync2 => simp only [stepSync2, decResult_ite, hadvance, habandon]
  | type => exact htype
  | length => simp only [stepLength, decResult_ite, habandon, hlength]
  | data => simp only [stepData, decResult_ite, h, decResult_takeData b _ h]
  | checksum => simp only [stepChecksum, decResult_ite, h, hadvance, habandon]
  | cr => simp only [stepCr, decResult_ite, hadvance, habandon]
  | lf => simp only [stepLf, decResult_ite, habandon, decResult_completePacket h]

theorem stepDecoder_of_dec_eq {b : Byte} {s s' t : State} {e : Option Event} (h : s'.dec = s.dec)
    (hr : stepDecoder b s = .ok (e, t)) : ∃ t', stepDecoder b s' = .ok (e, t') ∧ t'.dec = t.dec := by
  have hsame := decResult_stepDecoder b h
  rw [hr] at hsame
  cases hr' : stepDecoder b s' with
  | error f => rw [hr'] at hsame; cases hsame
  | ok x =>
    rw [hr'] at hsame
    obtain ⟨he, hdec⟩ : x.1 = e ∧ x.2.dec = t.dec := by simpa [decResult, Except.map] using hsame
    exact ⟨x.2, by rw [← he], hdec⟩

/-! ## The events of a sequence -/

theorem feed_cons {b : Byte} {bs : List Byte} {s t u : State} {e : Option Event} {es : List Event}
    (hstep : stepDecoder b s = .ok (e, t)) (hrest : feed bs t = .ok (es, u)) :
    feed (b :: bs) s = .ok (e.toList ++ es, u) := by simp [feed, hstep, hrest]

/-- FEED of a byte and a sequence behind it, taken apart. -/
theorem feed_cons_ok {b : Byte} {bs : List Byte} {s u : State} {es : List Event} (h : feed (b :: bs) s = .ok (es, u)) :
    ∃ e t fs, stepDecoder b s = .ok (e, t) ∧ feed bs t = .ok (fs, u) ∧ es = e.toList ++ fs := by
  unfold feed at h
  split at h
  · next e t hstep =>
    split at h <;> cases h
    next fs hrest => exact ⟨e, t, fs, hstep, hrest, rfl⟩
  · cases h

theorem feed_append {xs ys : List Byte} {t u : State} {fs : List Event} (hys : feed ys t = .ok (fs, u)) :
    ∀ {es : List Event} {s : State}, feed xs s = .ok (es, t) → feed (xs ++ ys) s = .ok (es ++ fs, u) := by
  induction xs with
  | nil => intro es s hxs; cases hxs; exact hys
  | cons x xs ih =>
    intro es s hxs
    obtain ⟨e, v, gs, hstep, hrest, rfl⟩ := feed_cons_ok hxs
    rw [List.append_assoc]
    exact feed_cons hstep (ih hrest)

/-- FEED of a sound decoder does not fault (R65). -/
theorem feed_ok (bs : List Byte) : ∀ s : State, s.dec.sound → ∃ es u, feed bs s = .ok (es, u) := by
  induction bs with
  | nil => intro s _; exact ⟨[], s, rfl⟩
  | cons b bs ih =>
    intro s hs
    obtain ⟨e, t, hstep⟩ := stepDecoder_ok b s hs
    obtain ⟨es, u, hrest⟩ := ih t (stepDecoder_sound b s t e hs hstep)
    exact ⟨_, u, feed_cons hstep hrest⟩

theorem feed_of_dec_eq (bs : List Byte) : ∀ {s s' u : State} {es : List Event}, s'.dec = s.dec → feed bs s = .ok (es, u) →
    ∃ u', feed bs s' = .ok (es, u') ∧ u'.dec = u.dec := by
  induction bs with
  | nil => intro s s' u es h hr; cases hr; exact ⟨s', rfl, h⟩
  | cons b bs ih =>
    intro s s' u es h hr
    obtain ⟨e, t, fs, hstep, hrest, rfl⟩ := feed_cons_ok hr
    obtain ⟨t', hstep', hdec⟩ := stepDecoder_of_dec_eq h hstep
    obtain ⟨u', hrest', hdec'⟩ := ih hdec hrest
    exact ⟨u', feed_cons hstep' hrest', hdec'⟩

theorem packetsOf_append (es fs : List Event) : packetsOf (es ++ fs) = packetsOf es ++ packetsOf fs :=
  List.filterMap_append

/-- The packets among its events are what a DEC.STEP adds to `pkt_out` (R168). -/
theorem stepDecoder_pktOut {b : Byte} {s t : State} {e : Option Event} (h : stepDecoder b s = .ok (e, t)) :
    t.pktOut = s.pktOut ++ packetsOf e.toList := by
  rcases stepDecoder_cases b s t e h with ⟨d, -, rfl, rfl⟩ | ⟨g, -, rfl, rfl⟩ | ⟨payload, -, -, -, rfl, rfl⟩ <;>
    simp [packetsOf]

theorem feed_pktOut (bs : List Byte) : ∀ {s u : State} {es : List Event}, feed bs s = .ok (es, u) →
    u.pktOut = s.pktOut ++ packetsOf es := by
  induction bs with
  | nil => intro s u es h; cases h; simp [packetsOf]
  | cons b bs ih =>
    intro s u es h
    obtain ⟨e, t, fs, hstep, hrest, rfl⟩ := feed_cons_ok h
    rw [ih hrest, stepDecoder_pktOut hstep, packetsOf_append, List.append_assoc]

end Sys2Proof.Machine
end

section
/-! SUPPORT. A call that feeds bytes to the decoder: what DISPATCH adds to the histories, and what the call does with each byte
(R108, R193, R220; log 4). -/

namespace Sys2Proof.Machine

/-! ## What the histories show -/

/-- Two assembled bytes, clamped, as the statements write it: `min(pay[i] + 256 * pay[i+1], 10000)` (R63, R221). -/
theorem clampSpeed_assembleHalf (lo hi : Byte) :
    clampSpeed (assembleHalf lo hi) = BitVec.ofNat 16 (min (lo.toNat + 256 * hi.toNat) 10000) := by
  have hv : (assembleHalf lo hi).toNat = lo.toNat + 256 * hi.toNat := by
    rw [assembleHalf, BitVec.toNat_append, ← Nat.shiftLeft_add_eq_or_of_lt lo.isLt, Nat.shiftLeft_eq]
    omega
  rw [← hv]
  generalize assembleHalf lo hi = v
  unfold clampSpeed
  split <;> bv_omega

/-- A Speed packet whose payload has not four bytes is malformed, for the model and for the statements (R222). -/
theorem speed_malformed (payload : List Byte) (h : ∀ a b c d, payload ≠ [a, b, c, d]) :
    classify ⟨0x53#8, payload⟩ = .speedMalformed payload.length ∧
    dispatched ⟨0x53#8, payload⟩ = ([], [], [.speedLengthInvalid payload.length]) := by
  unfold classify dispatched
  rw [if_pos rfl, if_pos rfl]
  constructor <;> split
  · next hp => exact absurd hp (h _ _ _ _)
  · rfl
  · next hp => exact absurd hp (h _ _ _ _)
  · rfl

/-- DISPATCH adds to the histories what `dispatched` says (R220 to R225). -/
theorem showsDispatch_dispatchPacket (p : Packet) (s : State) : ShowsDispatch [p] s (dispatchPacket p s) := by
  obtain ⟨ptype, payload⟩ := p
  unfold ShowsDispatch ShowsEvents dispatchPacket
  by_cases hspeed : ptype = 0x53#8
  · subst hspeed
    by_cases hfour : ∃ a b c d, payload = [a, b, c, d]
    · obtain ⟨a, b, c, d, rfl⟩ := hfour
      simp [eventShown, dispatched, classify, clampSpeed_assembleHalf]
    · obtain ⟨hclass, hshown⟩ := speed_malformed payload fun a b c d h => hfour ⟨a, b, c, d, h⟩
      simp [eventShown, hclass, hshown, raise]
  · by_cases hmessage : ptype = 0x4D#8
    · subst hmessage
      have hclass : classify ⟨0x4D#8, payload⟩ = .message payload := rfl
      simp [eventShown, dispatched, hclass]
    · simp [eventShown, dispatched, classify, raise, hspeed, hmessage]

theorem showsEvents_append {es fs : List Event} {s t u : State} (h : ShowsEvents es s t) (h' : ShowsEvents fs t u) :
    ShowsEvents (es ++ fs) s u := by
  obtain ⟨hm, ht, hd⟩ := h
  obtain ⟨hm', ht', hd'⟩ := h'
  simp [ShowsEvents, hm', ht', hd', hm, ht, hd]

/-- These events, their packets put out and dispatched, are what happened between two states, as the histories show it. -/
def Delivers (es : List Event) (s t : State) : Prop := t.pktOut = s.pktOut ++ packetsOf es ∧ ShowsEvents es s t

theorem delivers_append {es fs : List Event} {s t u : State} (h : Delivers es s t) (h' : Delivers fs t u) :
    Delivers (es ++ fs) s u :=
  ⟨by rw [h'.1, h.1, packetsOf_append, List.append_assoc], showsEvents_append h.2 h'.2⟩

/-- A change of other parts delivers nothing. -/
theorem delivers_nil {parts : List Part} {s t : State} (h : OnlyChanges parts s t) (hp : .pktOut ∉ parts)
    (hm : .motorOut ∉ parts) (ht : .telemOut ∉ parts) (hd : .diagOut ∉ parts) : Delivers [] s t := by
  have hpkt : t.pktOut = s.pktOut := h _ hp
  have hmotor : t.motorOut = s.motorOut := h _ hm
  have htelem : t.telemOut = s.telemOut := h _ ht
  have hdiag : t.diagOut = s.diagOut := h _ hd
  simp [Delivers, ShowsEvents, packetsOf, hpkt, hmotor, htelem, hdiag]

/-! ## One byte -/

/-- DISPATCH of the packet a DEC.STEP completed, if it completed one (R192, R193). -/
def dispatchEvent : Option Event → State → State
  | some (.packet p), s => dispatchPacket p s
  | _, s => s

theorem onlyChanges_dispatchEvent (e : Option Event) (s : State) :
    OnlyChanges [.motorOut, .telemOut, .diagOut] s (dispatchEvent e s) := by
  rcases e with _ | p | g
  · exact onlyChanges_refl _ s
  · exact onlyChanges_dispatchPacket p s
  · exact onlyChanges_refl _ s

/-- A DEC.STEP with the DISPATCH of its packet delivers its event. -/
theorem delivers_stepDecoder {b : Byte} {s t : State} {e : Option Event} (h : stepDecoder b s = .ok (e, t)) :
    Delivers e.toList s (dispatchEvent e t) := by
  rcases stepDecoder_cases b s t e h with ⟨d, -, rfl, rfl⟩ | ⟨g, -, rfl, rfl⟩ | ⟨payload, -, -, -, rfl, rfl⟩
  · simp [Delivers, ShowsEvents, packetsOf, dispatchEvent]
  · simp [Delivers, ShowsEvents, eventShown, packetsOf, dispatchEvent]
  · obtain ⟨-, -, -, -, -, -, -, hpkt, -⟩ :=
      dispatchPacket_frame ⟨s.dec.ptype, payload⟩ (s.emitPacket ⟨s.dec.ptype, payload⟩).parserReset
    exact ⟨hpkt, showsDispatch_dispatchPacket _ _⟩

theorem setPoll_setPoll (s : State) (c c' : Option PollCall) : (s.setPoll c).setPoll c' = s.setPoll c' := rfl

theorem dispatchPacket_setPoll (p : Packet) (s : State) (c : Option PollCall) :
    dispatchPacket p (s.setPoll c) = (dispatchPacket p s).setPoll c := by
  unfold dispatchPacket
  cases classify p <;> rfl

theorem pollSteps_of_next {c : PollCall} {s t : State} (k : Nat) (hp : s.poll = some c) (hs : pollStep c s = .next t) :
    pollSteps (k + 1) s = pollSteps k t := by simp [pollSteps, hp, hs]

/-- A call that collects its packets (POLLALL, or a feed) decodes the byte it took, and dispatches and collects a packet it
completes, in one or two steps (R193). -/
theorem pollSteps_decode {kind : PollKind} {b : Byte} {got : List Packet} {s t : State} {e : Option Event}
    (hkind : kind ≠ .one) (hp : s.poll = some ⟨kind, .dec b, got⟩) (hd : stepDecoder b s = .ok (e, t)) :
    ∃ j, j ≤ 2 ∧ ∀ k, pollSteps (k + j) s =
      pollSteps k ((dispatchEvent e t).setPoll (some ⟨kind, .pop, got ++ packetsOf e.toList⟩)) := by
  rcases e with _ | p | g
  · refine ⟨1, by decide, fun k => pollSteps_of_next k hp ?_⟩
    simp [pollStep, pollDec, hd, finishWith, dispatchEvent, packetsOf]
  · have hdec : pollStep ⟨kind, .dec b, got⟩ s = .next (t.setPoll (some ⟨kind, .disp p, got⟩)) := by
      simp [pollStep, pollDec, hd, finishWith]
    refine ⟨2, by decide, fun k => (pollSteps_of_next (k + 1) hp hdec).trans (pollSteps_of_next k rfl ?_)⟩
    cases kind with
    | one => exact absurd rfl hkind
    | all | feed => simp [pollStep, pollDisp, dispatchPacket_setPoll, packetsOf, dispatchEvent, setPoll_setPoll]
  · refine ⟨1, by decide, fun k => pollSteps_of_next k hp ?_⟩
    simp [pollStep, pollDec, hd, finishWith, dispatchEvent, packetsOf]

/-! ## The whole sequence -/

/-- The parts a feed may change before it ends. -/
abbrev feedSide : List Part := [.dec, .poll, .pktOut, .motorOut, .telemOut, .diagOut]

/-- A feed takes a byte, decodes it and dispatches a packet it completes, in at most three steps (R108, R220). -/
theorem pollSteps_feed_byte {b : Byte} {bs : List Byte} {got : List Packet} {s t : State} {e : Option Event}
    (hp : s.poll = some ⟨.feed (b :: bs), .pop, got⟩) (hstep : stepDecoder b s = .ok (e, t)) :
    ∃ j w, j ≤ 3 ∧ (∀ k, pollSteps (k + j) s = pollSteps k w) ∧
      w.poll = some ⟨.feed bs, .pop, got ++ packetsOf e.toList⟩ ∧ w.dec = t.dec ∧ Delivers e.toList s w ∧
      OnlyChanges feedSide s w := by
  obtain ⟨t', hstep', hdec⟩ := stepDecoder_of_dec_eq (setPoll_dec s (some ⟨.feed bs, .dec b, got⟩)) hstep
  obtain ⟨j, hj, hround⟩ := pollSteps_decode (kind := .feed bs) nofun (setPoll_poll s _) hstep'
  have htake := onlyChanges_setPoll s (some ⟨.feed bs, .dec b, got⟩)
  have hdispatch := onlyChanges_dispatchEvent e t'
  have hdelivers : Delivers e.toList (s.setPoll _) (dispatchEvent e t') := delivers_stepDecoder hstep'
  refine ⟨j + 1, _, by omega, fun k => (pollSteps_of_next _ hp rfl).trans (hround k), rfl,
    (hdispatch .dec (by decide)).trans hdec, hdelivers, ?_⟩
  exact onlyChanges_then htake (onlyChanges_then (parts := feedSide) (onlyChanges_stepDecoder hstep')
    (onlyChanges_then (parts := feedSide) hdispatch (onlyChanges_setPoll _ _)))

/-- A feed with steps enough for its bytes does what FEED of them does to the decoder, delivers the events, and returns the
packets collected (R108). -/
theorem pollSteps_feed (bs : List Byte) : ∀ (k : Nat) (s u : State) (got : List Packet) (es : List Event),
    s.poll = some ⟨.feed bs, .pop, got⟩ → feed bs s = .ok (es, u) → 3 * bs.length + 1 ≤ k →
    ∃ t, pollSteps k s = .next t ∧ t.poll = none ∧ t.dec = u.dec ∧ Delivers es s t ∧
      t.returns = s.returns ++ [⟨.poll, .packets (got ++ packetsOf es)⟩] ∧ OnlyChanges (.returns :: feedSide) s t := by
  induction bs with
  | nil =>
    intro k s u got es hp hfeed hk
    cases hfeed
    obtain ⟨k, rfl⟩ : ∃ j, k = j + 1 := ⟨k - 1, by omega⟩
    have honly := onlyChanges_setPoll_answer s none .poll (.packets got)
    refine ⟨(s.setPoll none).answer .poll (.packets got), ?_, rfl, rfl,
      delivers_nil honly (by decide) (by decide) (by decide) (by decide), by simp [packetsOf],
      onlyChanges_mono (by decide) honly⟩
    exact (pollSteps_of_next k hp rfl).trans (pollSteps_of_no_call k _ rfl)
  | cons b bs ih =>
    intro k s u got es hp hfeed hk
    rw [List.length_cons] at hk
    obtain ⟨e, t, fs, hstep, hrest, rfl⟩ := feed_cons_ok hfeed
    obtain ⟨j, w, hj, hround, hwpoll, hwdec, hdelivers, honly⟩ := pollSteps_feed_byte hp hstep
    have hwreturns : w.returns = s.returns := honly .returns (by decide)
    obtain ⟨u', hrest', hdec'⟩ := feed_of_dec_eq bs hwdec hrest
    obtain ⟨k, rfl⟩ : ∃ n, k = n + j := ⟨k - j, by omega⟩
    obtain ⟨v, hv, hpoll, hvdec, hvdelivers, hvreturns, hvonly⟩ := ih k w u' _ fs hwpoll hrest' (by omega)
    refine ⟨v, (hround k).trans hv, hpoll, hvdec.trans hdec', delivers_append hdelivers hvdelivers, ?_,
      onlyChanges_then honly hvonly⟩
    rw [hvreturns, hwreturns, packetsOf_append, List.append_assoc]

/-- A part that is the same in the end is none of those changed. -/
theorem onlyChanges_without {p : Part} {parts : List Part} {s t : State} (hsame : p.same s t)
    (h : OnlyChanges (p :: parts) s t) : OnlyChanges parts s t := by
  intro q hq
  by_cases hqp : q = p
  · exact hqp ▸ hsame
  · exact h q (by simp [hqp, hq])

/-- A frame row runs FEED of its bytes (R106, R108; log 4). -/
theorem parseBytes_feed {bs : List Byte} {s u : State} {es : List Event} (hp : s.poll = none) (hg : s.cfg.grain = .call)
    (hfeed : feed bs s = .ok (es, u)) :
    ∃ t, parseBytes bs s = .next t ∧ t.dec = u.dec ∧ t.pktOut = u.pktOut ∧ Delivers es s t ∧
      t.returns = s.returns ++ [⟨.poll, .packets (packetsOf es)⟩] ∧
      OnlyChanges [.dec, .pktOut, .motorOut, .telemOut, .diagOut, .returns] s t := by
  have hfuel : pollFuel (s.setPoll (some ⟨.feed bs, .pop, []⟩)) = 3 * bs.length + 3 := by simp [pollFuel, hg, bytesLeft]
  obtain ⟨u', hfeed', hdec⟩ : ∃ u', feed bs (s.setPoll (some ⟨.feed bs, .pop, []⟩)) = .ok (es, u') ∧ u'.dec = u.dec :=
    feed_of_dec_eq bs (setPoll_dec s _) hfeed
  obtain ⟨t, ht, htpoll, htdec, hdelivers, hreturns, honly⟩ :=
    pollSteps_feed bs (3 * bs.length + 3) _ u' [] es (setPoll_poll s _) hfeed' (by omega)
  refine ⟨t, ?_, htdec.trans hdec, hdelivers.1.trans (feed_pktOut bs hfeed).symm, hdelivers, hreturns, ?_⟩
  · rw [parseBytes, pollStart_eq _ s hp, pollRun, hfuel, ht]
  · exact onlyChanges_without (p := .poll) (htpoll.trans hp.symm) (onlyChanges_then (onlyChanges_setPoll s _) honly)

end Sys2Proof.Machine
end

section
/-! SUPPORT. FEED of a whole frame to an initial decoder: exactly the packet (R145, R161 to R168). -/

namespace Sys2Proof.Machine

/-- The decoder is in position `st` of a frame of this type and length, and has collected the payload bytes `got` (R35). -/
def Dec.inside (d : Dec) (st : FramePos) (ptype plen : Byte) (got : List Byte) : Prop :=
  d.st = st ∧ d.ptype = ptype ∧ d.plen = plen ∧ d.csum = checksum got ∧ d.cnt.toNat = got.length ∧
    Memory.read d.pay 0 got.length = some got

theorem onlyChanges_setDec (s : State) (d : Dec) : OnlyChanges [.dec] s (s.setDec d) := by
  intro p hp; cases p <;> simp [Part.same] at hp ⊢

theorem onlyChanges_emitPacket (s : State) (p : Packet) : OnlyChanges [.pktOut] s (s.emitPacket p) := by
  intro q hq; cases q <;> simp [Part.same] at hq ⊢

/-- The four header bytes: the type and the length are captured, and nothing is collected yet (R161 to R164). -/
theorem feed_header (ptype plen : Byte) (s : State) (h : s.dec.initial) (hlen : plen.toNat ≤ 223) :
    ∃ t, feed [0x24#8, 0x24#8, ptype, plen] s = .ok ([], t) ∧ OnlyChanges [.dec] s t ∧
      t.dec.inside (if plen = 0#8 then .checksum else .data) ptype plen [] := by
  obtain ⟨hst, -, -, hcsum, hcnt⟩ := h
  have hfits : ¬payloadMax < plen.toNat := Nat.not_lt.mpr hlen
  refine ⟨s.setDec { s.dec with ptype := ptype, plen := plen, st := if plen = 0#8 then .checksum else .data }, ?_,
    onlyChanges_setDec s _, rfl, rfl, rfl, hcsum, by simp [hcnt], rfl⟩
  have hlength : ∀ u : State, stepLength plen u = takeLength plen (if plen = 0#8 then .checksum else .data) u := fun u => by
    rw [stepLength, if_neg hfits]
    split <;> rfl
  simp [feed, stepDecoder, hst, stepSync1, stepSync2, stepType, hlength, advance, takeType, takeLength, State.setDec]

/-- One payload byte: collected and summed; the last one ends the payload (R165). -/
theorem stepDecoder_payload_byte (b : Byte) (s : State) (ptype plen : Byte) (got : List Byte)
    (h : s.dec.inside .data ptype plen got) (hlt : got.length < plen.toNat) (hlen : plen.toNat ≤ 223) :
    ∃ d, stepDecoder b s = .ok (none, s.setDec d) ∧
      d.inside (if got.length + 1 = plen.toNat then .checksum else .data) ptype plen (got ++ [b]) := by
  obtain ⟨hst, hptype, hplen, hcsum, hcnt, hread⟩ := h
  have hfits : got.length < payloadMax := hlt.trans_le hlen
  refine ⟨{ s.dec with
    pay := Memory.set s.dec.pay s.dec.cnt.toNat b
    csum := s.dec.csum ^^^ b
    cnt := s.dec.cnt + 1#8
    st := if got.length + 1 = plen.toNat then .checksum else .data }, ?_, rfl, hptype, hplen, ?_, ?_, ?_⟩
  · simp only [stepDecoder, hst, stepData, takeData, hcnt, if_pos hfits, hplen]
    split <;> rfl
  · show s.dec.csum ^^^ b = _
    rw [checksum_snoc, hcsum]
  · show (s.dec.cnt + 1#8).toNat = _
    rw [List.length_append, List.length_singleton]
    bv_omega
  · show Memory.read (Memory.set s.dec.pay s.dec.cnt.toNat b) 0 _ = _
    rw [List.length_append, List.length_singleton, hcnt]
    exact read_succ _ _ 0 got b (by rw [read_set_outside _ _ _ _ _ (by omega), hread]) (by simp)

/-- The payload behind those collected, to its last byte. -/
theorem feed_payload (bs : List Byte) : ∀ (s : State) (ptype plen : Byte) (got : List Byte),
    s.dec.inside (if got.length = plen.toNat then .checksum else .data) ptype plen got →
    got.length + bs.length = plen.toNat → plen.toNat ≤ 223 →
    ∃ t, feed bs s = .ok ([], t) ∧ OnlyChanges [.dec] s t ∧ t.dec.inside .checksum ptype plen (got ++ bs) := by
  induction bs with
  | nil =>
    intro s ptype plen got h hall _
    rw [if_pos (by simpa using hall)] at h
    exact ⟨s, rfl, onlyChanges_refl _ s, by simpa using h⟩
  | cons b bs ih =>
    intro s ptype plen got h hall hlen
    rw [List.length_cons] at hall
    rw [if_neg (by omega)] at h
    obtain ⟨d, hstep, hd⟩ := stepDecoder_payload_byte b s ptype plen got h (by omega) hlen
    obtain ⟨t, hrest, honly, ht⟩ := ih (s.setDec d) ptype plen (got ++ [b]) (by simpa using hd) (by simp; omega) hlen
    exact ⟨t, feed_cons hstep hrest, onlyChanges_trans (onlyChanges_setDec s d) honly, by simpa using ht⟩

/-- The trailer of a whole payload: checksum, CR, LF, and the packet (R166 to R168). -/
theorem feed_trailer (s : State) (ptype plen : Byte) (got : List Byte) (h : s.dec.inside .checksum ptype plen got)
    (hlen : got.length = plen.toNat) :
    ∃ t, feed [checksum got, 0x0D#8, 0x0A#8] s = .ok ([.packet ⟨ptype, got⟩], t) ∧ t.dec.initial ∧
      OnlyChanges [.dec, .pktOut] s t := by
  obtain ⟨hst, hptype, hplen, hcsum, -, hread⟩ := h
  rw [hlen, ← hplen] at hread
  refine ⟨(s.emitPacket ⟨ptype, got⟩).parserReset, ?_, ⟨rfl, rfl, rfl, rfl, rfl⟩,
    onlyChanges_then (onlyChanges_emitPacket s _) (onlyChanges_parserReset _)⟩
  simp [feed, stepDecoder, hst, stepChecksum, stepCr, stepLf, advance, completePacket, hcsum, hptype, hread,
    State.setDec, State.emitPacket, State.parserReset, Dec.parserReset]

/-- The frame row of a packet runs its frame through the decoder, whichever row it is (R106). -/
theorem exec_frameRow (p : Packet) (s : State) : exec (frameRow p) s = parseBytes (wireFrame p.ptype p.payload) s := by
  unfold frameRow
  split
  · next htype => rw [htype]; rfl
  · split
    · next htype => rw [htype]; rfl
    · rfl

/-- A whole frame given to an initial decoder is its packet, and the decoder is initial again (R145). -/
theorem feed_wireFrame (p : Packet) (s : State) (h : s.dec.initial) (hlen : p.payload.length ≤ 223) :
    ∃ t, feed (wireFrame p.ptype p.payload) s = .ok ([.packet p], t) ∧ t.dec.initial ∧ OnlyChanges [.dec, .pktOut] s t := by
  have hplen : (BitVec.ofNat 8 p.payload.length).toNat = p.payload.length := Nat.mod_eq_of_lt (by omega)
  have hheader : wireFrame p.ptype p.payload = [0x24#8, 0x24#8, p.ptype, BitVec.ofNat 8 p.payload.length] ++
      (p.payload ++ [checksum p.payload, 0x0D#8, 0x0A#8]) := by
    simp [wireFrame, foldl_xor_eq_checksum]
  obtain ⟨t, ht, hth, htd⟩ := feed_header p.ptype (BitVec.ofNat 8 p.payload.length) s h (by omega)
  have hempty : BitVec.ofNat 8 p.payload.length = 0#8 ↔ ([] : List Byte).length = (BitVec.ofNat 8 p.payload.length).toNat := by
    rw [BitVec.toNat_eq, eq_comm]; rfl
  simp only [hempty] at htd
  obtain ⟨u, hu, huh, hud⟩ := feed_payload p.payload t p.ptype _ [] htd (by rw [hplen]; simp) (by omega)
  obtain ⟨v, hv, hvi, hvh⟩ := feed_trailer u p.ptype _ p.payload hud hplen.symm
  refine ⟨v, ?_, hvi, onlyChanges_then hth (onlyChanges_then (parts := [.dec, .pktOut]) huh hvh)⟩
  rw [hheader]
  exact feed_append (feed_append hv hu) ht

end Sys2Proof.Machine
end

section
/-! SUPPORT. The statements of the frame rows (O44, O45). -/

open Sys2Proof Sys2Proof.Machine

namespace Sys2Proof.Settled

/-- Settles O44: the row runs FEED of its frame, which gives the packet alone. -/
theorem frameRowIsDecodedAndDispatched : Obligations.FrameRowIsDecodedAndDispatched := by
  unfold Obligations.FrameRowIsDecodedAndDispatched
  intro p s hlen hinit hpoll hg
  obtain ⟨u, hfeed, huinit, -⟩ := feed_wireFrame p s hinit hlen
  obtain ⟨t, ht, hdec, -, ⟨hpkts, hshows⟩, hreturns, honly⟩ := parseBytes_feed hpoll hg hfeed
  exact ⟨t, (exec_frameRow p s).trans ht, hdec ▸ huinit, hpkts, hshows, hreturns, honly⟩

/-- Settles O45: all three rows run FEED of the same bytes. -/
theorem frameRowFeedsItsBytes : Obligations.FrameRowFeedsItsBytes := by
  unfold Obligations.FrameRowFeedsItsBytes
  rintro ptype len rest s ⟨-, -, hdecoder, -⟩ hp hg
  obtain ⟨es, u, hfeed⟩ := feed_ok (0x24#8 :: 0x24#8 :: ptype :: len :: rest) s hdecoder
  obtain ⟨t, ht, hdec, hpkt, ⟨hpkts, hshows⟩, hreturns, honly⟩ := parseBytes_feed hp hg hfeed
  refine ⟨es, u, hfeed, fun i hi => ⟨t, ?_, hdec, hpkt, hpkts, hshows, hreturns, honly⟩⟩
  rcases hi with ⟨rfl, rfl⟩ | ⟨rfl, rfl⟩ | rfl <;> exact ht

end Sys2Proof.Settled
end

section
/-! SUPPORT. A push and a pop said as equations, one a branch (R120, R121), and how they meet: on one ring, on two rings, and in
a run of pushes (R123, R127). -/

namespace Sys2Proof.Machine

/-! ## One equation a branch -/

/-- The ring a push that is answered `Ok` leaves (R120). -/
def Ring.afterPush (ρ : Ring) (b : Byte) : Ring := { ρ with buf := Memory.set ρ.buf ρ.wr.toNat b, wr := ρ.wr + 1#8 }

/-- The ring a pop that returns a byte leaves: the slot is not cleared (R121). -/
def Ring.afterPop (ρ : Ring) : Ring := { ρ with rd := ρ.rd + 1#8 }

theorem isFull_eq_false_iff (ρ : Ring) : ρ.isFull = false ↔ ρ.wr + 1#8 ≠ ρ.rd := by
  rw [Ne, ← isFull_iff, Bool.not_eq_true]

theorem isEmpty_eq_false_iff (ρ : Ring) : ρ.isEmpty = false ↔ ρ.wr ≠ ρ.rd := by
  rw [Ne, ← isEmpty_iff, Bool.not_eq_true]

theorem ringPush_of_full (r : RingSel) (b : Byte) (s : State) (h : (s.ring r).wr + 1#8 = (s.ring r).rd) :
    ringPush r b s = (.full, s) :=
  if_pos ((isFull_iff _).mpr h)

theorem ringPush_of_room (r : RingSel) (b : Byte) (s : State) (h : (s.ring r).wr + 1#8 ≠ (s.ring r).rd) :
    ringPush r b s = (.ok, s.setRing r ((s.ring r).afterPush b)) :=
  if_neg (mt (isFull_iff _).mp h)

theorem ringPop_of_empty (r : RingSel) (s : State) (h : (s.ring r).wr = (s.ring r).rd) : ringPop r s = .ok (none, s) :=
  if_pos ((isEmpty_iff _).mpr h)

theorem ringPop_of_value (r : RingSel) (s : State) (v : Byte) (hne : (s.ring r).wr ≠ (s.ring r).rd)
    (hv : Memory.get (s.ring r).buf (s.ring r).rd.toNat = some v) :
    ringPop r s = .ok (some v, s.setRing r (s.ring r).afterPop) := by
  rcases ringPop_cases r s with ⟨hempty, _⟩ | ⟨_, w, hw, e⟩ | ⟨_, hnone, _⟩
  · exact absurd ((isEmpty_iff _).mp hempty) hne
  · obtain rfl : w = v := Option.some.inj (hw.symm.trans hv)
    exact e
  · cases hnone.symm.trans hv

theorem exec_rbPush (r : RingSel) (b : Byte) (s : State) :
    exec (.rbPush r b) s = .next ((ringPush r b s).2.answer (producer r) (ringPush r b s).1) := rfl

theorem exec_rbPop_absent {r : RingSel} {s t : State} (h : ringPop r s = .ok (none, t)) :
    exec (.rbPop r) s = .next (t.answer (consumer r) .absent) := by
  show execRbPop r s = _
  rw [execRbPop, h, finishWith]

theorem exec_rbPop_byte {r : RingSel} {s t : State} {v : Byte} (h : ringPop r s = .ok (some v, t)) :
    exec (.rbPop r) s = .next (t.answer (consumer r) (.byte v)) := by
  show execRbPop r s = _
  rw [execRbPop, h, finishWith]

/-! ## The two rings are apart (R73) -/

theorem otherRing_ne (r : RingSel) : otherRing r ≠ r := by cases r <;> decide

theorem setRing_ring_of_ne (s : State) {r r' : RingSel} (ρ : Ring) (h : r' ≠ r) : (s.setRing r ρ).ring r' = s.ring r' :=
  ring_eq_of_onlyChanges (onlyChanges_setRing s r ρ) r' (ringPart_not_mem h)

theorem setRing_self (s : State) (r : RingSel) : s.setRing r (s.ring r) = s := by cases r <;> rfl

theorem setRing_setRing (s : State) (r : RingSel) (ρ ρ' : Ring) : (s.setRing r ρ).setRing r ρ' = s.setRing r ρ' := by
  cases r <;> rfl

theorem setRing_comm (s : State) {r r' : RingSel} (ρ ρ' : Ring) (h : r' ≠ r) :
    (s.setRing r ρ).setRing r' ρ' = (s.setRing r' ρ').setRing r ρ := by
  cases r <;> cases r'
  · exact absurd rfl h
  · rfl
  · rfl
  · exact absurd rfl h

/-- A push changes its ring, whatever it answers. -/
theorem ringPush_snd_eq_setRing (r : RingSel) (b : Byte) (s : State) : ∃ ρ, (ringPush r b s).2 = s.setRing r ρ := by
  rcases ringPush_cases r b s with ⟨_, e⟩ | ⟨_, e⟩ <;> rw [e]
  · exact ⟨_, (setRing_self s r).symm⟩
  · exact ⟨_, rfl⟩

/-- A pop changes its ring, whatever it returns. -/
theorem ringPop_eq_setRing {r : RingSel} {s t : State} {x : Option Byte} (h : ringPop r s = .ok (x, t)) :
    ∃ ρ, t = s.setRing r ρ := by
  rcases ringPop_cases r s with ⟨_, e⟩ | ⟨_, _, _, e⟩ | ⟨_, _, e⟩ <;> rw [e] at h <;> cases h
  · exact ⟨_, (setRing_self s r).symm⟩
  · exact ⟨_, rfl⟩

/-- What a push does to one ring does not depend on the other. -/
theorem ringPush_setRing_of_ne {r r' : RingSel} (b : Byte) (s : State) (ρ : Ring) (h : r' ≠ r) :
    ringPush r b (s.setRing r' ρ) = ((ringPush r b s).1, (ringPush r b s).2.setRing r' ρ) := by
  have hring := setRing_ring_of_ne s ρ h.symm
  rcases ringPush_cases r b s with ⟨hfull, e⟩ | ⟨hroom, e⟩ <;> rw [e]
  · exact ringPush_of_full r b _ (by rw [hring]; exact (isFull_iff _).mp hfull)
  · rw [ringPush_of_room r b _ (by rw [hring]; exact (isFull_eq_false_iff _).mp hroom), hring, setRing_comm _ _ _ h.symm]
    rfl

/-- What a pop does to one ring does not depend on the other. -/
theorem ringPop_setRing_of_ne {r r' : RingSel} {s t : State} {x : Option Byte} (ρ : Ring) (h : r' ≠ r)
    (hpop : ringPop r s = .ok (x, t)) : ringPop r (s.setRing r' ρ) = .ok (x, t.setRing r' ρ) := by
  have hring := setRing_ring_of_ne s ρ h.symm
  rcases ringPop_cases r s with ⟨hempty, e⟩ | ⟨hne, v, hv, e⟩ | ⟨_, _, e⟩ <;> rw [e] at hpop <;> cases hpop
  · exact ringPop_of_empty r _ (by rw [hring]; exact (isEmpty_iff _).mp hempty)
  · rw [ringPop_of_value r _ v (by rw [hring]; exact (isEmpty_eq_false_iff _).mp hne) (by rw [hring]; exact hv),
      hring, setRing_comm _ _ _ h.symm]
    rfl

/-- A push on one ring and a pop on the other commute, whatever they answer (R127). -/
theorem push_pop_commute_of_ne {r r' : RingSel} (b : Byte) {s s1 : State} {x : Option Byte} (h : r' ≠ r)
    (hpop : ringPop r' s = .ok (x, s1)) :
    ∃ t, ringPop r' (ringPush r b s).2 = .ok (x, t) ∧ ringPush r b s1 = ((ringPush r b s).1, t) := by
  obtain ⟨ρ, hρ⟩ := ringPush_snd_eq_setRing r b s
  obtain ⟨ρ', hρ'⟩ := ringPop_eq_setRing hpop
  refine ⟨s1.setRing r ρ, by rw [hρ]; exact ringPop_setRing_of_ne ρ h.symm hpop, ?_⟩
  rw [hρ', ringPush_setRing_of_ne b s ρ' h, hρ, setRing_comm _ _ _ h]

/-! ## One ring, neither empty nor full (R127) -/

/-- A push does not touch the slot the next pop reads, unless the ring is empty. -/
theorem get_afterPush_rd (ρ : Ring) (b : Byte) (hne : ρ.wr ≠ ρ.rd) :
    Memory.get (ρ.afterPush b).buf ρ.rd.toNat = Memory.get ρ.buf ρ.rd.toNat :=
  get_set_ne _ _ _ _ fun h => hne (BitVec.eq_of_toNat_eq h.symm)

/-- A pop leaves room for a push: the ring is not full (R121). -/
theorem room_afterPop (ρ : Ring) (hne : ρ.wr ≠ ρ.rd) : ρ.afterPop.wr + 1#8 ≠ ρ.afterPop.rd := by
  show ρ.wr + 1#8 ≠ ρ.rd + 1#8
  bv_omega

theorem push_pop_commute_of_same (r : RingSel) (b v : Byte) (s : State) (hne : (s.ring r).wr ≠ (s.ring r).rd)
    (hroom : (s.ring r).wr + 1#8 ≠ (s.ring r).rd)
    (hv : Memory.get (s.ring r).buf (s.ring r).rd.toNat = some v) :
    ∃ s1 t, ringPop r s = .ok (some v, s1) ∧ ringPop r (ringPush r b s).2 = .ok (some v, t) ∧
      ringPush r b s1 = (.ok, t) ∧ (ringPush r b s).1 = .ok := by
  have hpush := ringPush_of_room r b s hroom
  refine ⟨_, _, ringPop_of_value r s v hne hv, ?_, ringPush_of_room r b _ ?_, by rw [hpush]⟩
  · rw [hpush, ringPop_of_value r _ v]
    · simp only [setRing_ring, setRing_setRing]
      rfl
    · rw [setRing_ring]
      exact hroom
    · rw [setRing_ring]
      exact (get_afterPush_rd _ b hne).trans hv
  · rw [setRing_ring]
    exact room_afterPop _ hne

/-! ## A run of pushes (R123) -/

theorem holds_nil_of_empty (ρ : Ring) (h : ρ.wr = ρ.rd) : ρ.holds [] := by
  rw [Ring.holds, Ring.unread, (isEmpty_iff_count ρ).mp ((isEmpty_iff ρ).mpr h)]
  rfl

/-- A ring that holds 255 bytes is full (R22, R23). -/
theorem full_of_holds {ρ : Ring} {bs : List Byte} (h : ρ.holds bs) (hlen : bs.length = 255) : ρ.wr + 1#8 = ρ.rd :=
  (isFull_iff ρ).mp ((isFull_iff_count ρ).mpr (BitVec.eq_of_toNat_eq ((holds_length h).symm.trans hlen)))

/-- As long as the ring has room for all of them, the bytes of a run of pushes go in one by one, each answered `Ok`. -/
theorem runOps_rbPush (r : RingSel) (bs : List Byte) :
    ∀ (s : State) (old : List Byte), (s.ring r).holds old → old.length + bs.length ≤ 255 →
      ∃ t, runOps (bs.map (.rbPush r)) s = .next t ∧
        t.returns = s.returns ++ List.replicate bs.length ⟨producer r, .ok⟩ ∧ (t.ring r).holds (old ++ bs) := by
  induction bs with
  | nil => intro s old h _; exact ⟨s, rfl, by simp, by simpa using h⟩
  | cons b bs ih =>
    intro s old h hroom
    rw [List.length_cons] at hroom
    have hlt : old.length < 255 := by omega
    have hpush := ringPush_of_room r b s ((isFull_eq_false_iff _).mp (isFull_eq_false_of_holds h hlt))
    obtain ⟨t, hrun, hret, hbytes⟩ := ih ((ringPush r b s).2.answer (producer r) .ok) (old ++ [b])
      (by rw [answer_ring]; exact (ringPush_holds r b s old h hlt).1)
      (by rw [List.length_append, List.length_singleton]; omega)
    refine ⟨t, ?_, ?_, by simpa using hbytes⟩
    · rw [List.map_cons, runOps, exec_rbPush, show (ringPush r b s).1 = .ok by rw [hpush]]
      exact hrun
    · rw [hret, hpush, answer_returns, setRing_returns, List.append_assoc, List.length_cons, List.replicate_succ]
      rfl

end Sys2Proof.Machine
end

section
/-! SUPPORT. The statements of the ring operations (O1, O2, O3, O5, O6). -/

open Sys2Proof Sys2Proof.Machine

namespace Sys2Proof.Settled

/-- Settles O1: the two branches of a push; the slot written is the one at the old write cursor. -/
theorem pushStoresOneByteOrAnswersFull : Obligations.PushStoresOneByteOrAnswersFull := by
  unfold Obligations.PushStoresOneByteOrAnswersFull
  refine fun r b s => ⟨fun hfull => ?_, fun hroom => ?_⟩
  · rw [exec_rbPush, ringPush_of_full r b s hfull]
    rfl
  · have honly := onlyChanges_ringPush_answer r b s (producer r) (ringPush r b s).1
    refine ⟨_, exec_rbPush r b s, ?_⟩
    rw [ringPush_of_room r b s hroom] at honly ⊢
    simp only [answer_ring, setRing_ring, answer_returns, setRing_returns, true_and]
    exact ⟨rfl, rfl, get_set_same _ _ _, fun j hj => get_set_ne _ _ _ _ hj, hroom, honly⟩

/-- Settles O2: the two branches of a pop; it moves the read cursor alone. -/
theorem popReturnsOldestByteOrNone : Obligations.PopReturnsOldestByteOrNone := by
  unfold Obligations.PopReturnsOldestByteOrNone
  refine fun r s => ⟨fun hempty => exec_rbPop_absent (ringPop_of_empty r s hempty), fun v hne hv => ?_⟩
  have hexec := exec_rbPop_byte (ringPop_of_value r s v hne hv)
  refine ⟨_, hexec, ?_⟩
  simp only [answer_ring, setRing_ring, answer_returns, setRing_returns, true_and]
  exact ⟨rfl, rfl, rfl, room_afterPop _ hne, execRbPop_onlyChanges r s _ hexec⟩

/-- Settles O3: the count is the 8-bit difference of the cursors. -/
theorem availCountsUnreadBytes : Obligations.AvailCountsUnreadBytes := by
  unfold Obligations.AvailCountsUnreadBytes
  intro r s
  refine ⟨(s.ring r).count, ?_, rfl⟩
  have hwr := (s.ring r).wr.isLt
  have hrd := (s.ring r).rd.isLt
  rw [Ring.count, BitVec.toNat_sub]
  omega

/-- Settles O5: 255 pushes from an empty ring go in one by one, and a ring that holds 255 bytes is full. -/
theorem ringHolds255BytesAndNoMore : Obligations.RingHolds255BytesAndNoMore := by
  unfold Obligations.RingHolds255BytesAndNoMore
  intro r bs b s hempty hlen
  obtain ⟨t, hrun, hret, hbytes⟩ := runOps_rbPush r bs s [] (holds_nil_of_empty _ hempty) (by simp [hlen])
  have hexec := exec_rbPush r b t
  rw [ringPush_of_full r b t (full_of_holds hbytes hlen)] at hexec
  exact ⟨t, _, hrun, hlen ▸ hret, hbytes, hexec, answer_ring _ _ _ _, answer_returns _ _ _⟩

/-- Settles O6: on one ring the push and the pop touch different slots and cursors; on two rings, different rings. -/
theorem pushAndPopCommute : Obligations.PushAndPopCommute := by
  unfold Obligations.PushAndPopCommute
  exact fun r b v s => ⟨push_pop_commute_of_same r b v s, fun _ _ => push_pop_commute_of_ne b (otherRing_ne r)⟩

end Sys2Proof.Settled
end

section
/-! SUPPORT. POLL1 and POLLALL run whole: they do what FEED of the bytes they take does, with every packet dispatched (R192, R193). -/

namespace Sys2Proof.Machine

/-! ## One byte -/

/-- The parts a POLL call may change before it ends. -/
abbrev drainSide : List Part := .inRing :: feedSide

/-- A call that the byte it took does not end decodes it, and dispatches and collects a packet it completes: every byte of POLLALL
or of a feed, and one that completes no packet of POLL1 (R192, R193). -/
theorem pollSteps_decode_goes_on {kind : PollKind} {b : Byte} {got : List Packet} {s t : State} {e : Option Event}
    (hgo : kind = .one → packetsOf e.toList = []) (hp : s.poll = some ⟨kind, .dec b, got⟩)
    (hd : stepDecoder b s = .ok (e, t)) :
    ∃ j, j ≤ 2 ∧ ∀ k, pollSteps (k + j) s =
      pollSteps k ((dispatchEvent e t).setPoll (some ⟨kind, .pop, got ++ packetsOf e.toList⟩)) := by
  by_cases hkind : kind = .one
  · refine ⟨1, by decide, fun k => pollSteps_of_next k hp ?_⟩
    have hquiet := hgo hkind
    rcases e with _ | p | g
    · simp [pollStep, pollDec, hd, finishWith, dispatchEvent, packetsOf]
    · cases hquiet
    · simp [pollStep, pollDec, hd, finishWith, dispatchEvent, packetsOf]
  · exact pollSteps_decode hkind hp hd

section
variable {kind : PollKind} (hkind : ∀ rest, kind ≠ .feed rest)
include hkind

/-- A POLL call takes the oldest byte of `in` (R192, R193). -/
theorem pollStep_takes_byte {b : Byte} {bs : List Byte} {got : List Packet} {s : State} (hold : s.inR.holds (b :: bs)) :
    ∃ s', pollStep ⟨kind, .pop, got⟩ s = .next (s'.setPoll (some ⟨kind, .dec b, got⟩)) ∧ s'.inR.holds bs ∧
      OnlyChanges [.inRing] s s' := by
  obtain ⟨s', hpop, hrest⟩ := ringPop_of_holds_cons .inp s b bs hold
  refine ⟨s', ?_, hrest, onlyChanges_ringPop hpop⟩
  cases kind with
  | feed rest => exact absurd rfl (hkind rest)
  | one | all => simp [pollStep, pollPop, hpop, finishWith]

/-- A POLL call takes a byte that does not end it, decodes it and dispatches a packet it completes, in at most three steps. -/
theorem pollSteps_drain_byte {b : Byte} {bs : List Byte} {got : List Packet} {s t : State} {e : Option Event}
    (hgo : kind = .one → packetsOf e.toList = []) (hp : s.poll = some ⟨kind, .pop, got⟩) (hold : s.inR.holds (b :: bs))
    (hstep : stepDecoder b s = .ok (e, t)) :
    ∃ j w, j ≤ 3 ∧ (∀ k, pollSteps (k + j) s = pollSteps k w) ∧
      w.poll = some ⟨kind, .pop, got ++ packetsOf e.toList⟩ ∧ w.inR.holds bs ∧ w.dec = t.dec ∧ Delivers e.toList s w ∧
      OnlyChanges drainSide s w := by
  obtain ⟨s', htake, hrest, htaken⟩ := pollStep_takes_byte (got := got) hkind hold
  have hdecs : (s'.setPoll (some ⟨kind, .dec b, got⟩)).dec = s.dec := htaken .dec (by decide)
  obtain ⟨t', hstep', hdec⟩ := stepDecoder_of_dec_eq hdecs hstep
  obtain ⟨j, hj, hround⟩ := pollSteps_decode_goes_on hgo (setPoll_poll s' _) hstep'
  have hdecode := onlyChanges_stepDecoder hstep'
  have hdispatch := onlyChanges_dispatchEvent e t'
  have hin : (dispatchEvent e t').inR = s'.inR := (hdispatch .inRing (by decide)).trans (hdecode .inRing (by decide))
  have hdelivers : Delivers e.toList (s'.setPoll _) (dispatchEvent e t') := delivers_stepDecoder hstep'
  refine ⟨j + 1, _, by omega, fun k => (pollSteps_of_next _ hp htake).trans (hround k), rfl, ?_,
    (hdispatch .dec (by decide)).trans hdec, ?_, ?_⟩
  · exact hin ▸ hrest
  · exact delivers_append (delivers_nil htaken (by decide) (by decide) (by decide) (by decide)) hdelivers
  · exact onlyChanges_then htaken (onlyChanges_then (parts := drainSide) (onlyChanges_setPoll s' _)
      (onlyChanges_then (parts := drainSide) hdecode
        (onlyChanges_then (parts := drainSide) hdispatch (onlyChanges_setPoll _ _))))

/-! ## The whole call -/

/-- A POLL call drains the bytes at the front of `in` as long as they do not end it, as FEED of them does (R192, R193). -/
theorem pollSteps_drain {rest : List Byte} (bs : List Byte) :
    ∀ {s u : State} {got : List Packet} {es : List Event}, s.poll = some ⟨kind, .pop, got⟩ → s.inR.holds (bs ++ rest) →
      feed bs s = .ok (es, u) → (kind = .one → packetsOf es = []) →
      ∃ j w, j ≤ 3 * bs.length ∧ (∀ k, pollSteps (k + j) s = pollSteps k w) ∧
        w.poll = some ⟨kind, .pop, got ++ packetsOf es⟩ ∧ w.inR.holds rest ∧ w.dec = u.dec ∧ Delivers es s w ∧
        OnlyChanges drainSide s w := by
  induction bs with
  | nil =>
    intro s u got es hp hold hfeed _
    cases hfeed
    exact ⟨0, s, le_rfl, fun _ => rfl, by simpa [packetsOf] using hp, hold, rfl,
      delivers_nil (onlyChanges_refl [] s) (by decide) (by decide) (by decide) (by decide), onlyChanges_refl _ s⟩
  | cons b bs ih =>
    intro s u got es hp hold hfeed hgo
    obtain ⟨e, t, fs, hstep, hrest, rfl⟩ := feed_cons_ok hfeed
    rw [packetsOf_append, List.append_eq_nil_iff] at hgo
    obtain ⟨j, w, hj, hround, hwpoll, hwold, hwdec, hdelivers, honly⟩ :=
      pollSteps_drain_byte hkind (fun h => (hgo h).1) hp hold hstep
    obtain ⟨u', hrest', hdec'⟩ := feed_of_dec_eq bs hwdec hrest
    obtain ⟨i, v, hi, hrounds, hvpoll, hvold, hvdec, hvdelivers, hvonly⟩ :=
      ih hwpoll hwold hrest' fun h => (hgo h).2
    refine ⟨i + j, v, by rw [List.length_cons]; omega, fun k => ?_, ?_, hvold, hvdec.trans hdec',
      delivers_append hdelivers hvdelivers, onlyChanges_trans honly hvonly⟩
    · rw [← Nat.add_assoc, hround, hrounds]
    · rw [hvpoll, packetsOf_append, List.append_assoc]

/-- With nothing left in `in` a POLL call ends (R192, R193). -/
theorem pollSteps_drained {got : List Packet} {s : State} (k : Nat) (hp : s.poll = some ⟨kind, .pop, got⟩)
    (hold : s.inR.holds []) :
    pollSteps (k + 1) s = .next ((s.setPoll none).answer .poll (PollCall.outcome ⟨kind, .pop, got⟩)) := by
  have hpop := ringPop_of_holds_nil .inp s hold
  refine (pollSteps_of_next (t := (s.setPoll none).answer .poll _) k hp ?_).trans (pollSteps_of_no_call k _ rfl)
  cases kind with
  | feed rest => exact absurd rfl (hkind rest)
  | one | all => simp [pollStep, pollPop, hpop, finishWith]

/-- A POLL call run whole has three steps for each byte of `in`, and three more. -/
theorem whenAlive_pollStart_call {bs : List Byte} {s : State} (ha : s.alive = true) (hp : s.poll = none)
    (hg : s.cfg.grain = .call) (hold : s.inR.holds bs) :
    whenAlive .poll s (pollStart kind) = pollSteps (3 * bs.length + 3) (s.setPoll (some ⟨kind, .pop, []⟩)) := by
  have hfuel : pollFuel (s.setPoll (some ⟨kind, .pop, []⟩)) = 3 * bs.length + 3 := by
    rw [holds_length hold]
    cases kind with
    | feed rest => exact absurd rfl (hkind rest)
    | one | all => simp [pollFuel, hg, bytesLeft]
  rw [whenAlive, if_pos ha, pollStart_eq kind s hp, pollRun, hfuel]

end

/-- POLL1 takes the byte that completes a packet, and returns that packet, dispatched (R192). -/
theorem pollSteps_one_packet {b : Byte} {rest : List Byte} {q : Packet} {s v : State} (k : Nat)
    (hp : s.poll = some ⟨.one, .pop, []⟩) (hold : s.inR.holds (b :: rest))
    (hstep : stepDecoder b s = .ok (some (.packet q), v)) :
    ∃ t, pollSteps (k + 3) s = .next t ∧ t.poll = none ∧ t.inR.holds rest ∧ t.dec = v.dec ∧ Delivers [.packet q] s t ∧
      t.returns = s.returns ++ [⟨.poll, .packet q⟩] := by
  obtain ⟨s', htake, hrest, htaken⟩ := pollStep_takes_byte (kind := .one) (got := []) nofun hold
  have hdecs : (s'.setPoll (some ⟨.one, .dec b, []⟩)).dec = s.dec := htaken .dec (by decide)
  obtain ⟨v', hstep', hdec⟩ := stepDecoder_of_dec_eq hdecs hstep
  have hdecode := onlyChanges_stepDecoder hstep'
  have hdispatch := onlyChanges_dispatchPacket q v'
  have hdelivers : Delivers [.packet q] (s'.setPoll _) (dispatchPacket q v') := delivers_stepDecoder hstep'
  have hin : (dispatchPacket q v').inR = s'.inR := (hdispatch .inRing (by decide)).trans (hdecode .inRing (by decide))
  have hret : (dispatchPacket q v').returns = s.returns := ((hdispatch .returns (by decide)).trans
    (hdecode .returns (by decide))).trans (htaken .returns (by decide))
  have hdecoded : pollStep ⟨.one, .dec b, []⟩ (s'.setPoll (some ⟨.one, .dec b, []⟩)) =
      .next (v'.setPoll (some ⟨.one, .disp q, []⟩)) := by simp [pollStep, pollDec, hstep', finishWith]
  have hdispatched : pollStep ⟨.one, .disp q, []⟩ (v'.setPoll (some ⟨.one, .disp q, []⟩)) =
      .next (((dispatchPacket q v').setPoll none).answer .poll (.packet q)) := by
    simp [pollStep, pollDisp, dispatchPacket_setPoll, setPoll_setPoll]
  refine ⟨((dispatchPacket q v').setPoll none).answer .poll (.packet q), ?_, rfl, hin ▸ hrest,
    (hdispatch .dec (by decide)).trans hdec, ?_, by simp [hret]⟩
  · rw [pollSteps_of_next (k + 2) hp htake, pollSteps_of_next (k + 1) rfl hdecoded, pollSteps_of_next k rfl hdispatched,
      pollSteps_of_no_call k _ rfl]
  · exact delivers_append (delivers_nil htaken (by decide) (by decide) (by decide) (by decide)) hdelivers

section
variable {s u : State} {es : List Event} (ha : s.alive = true) (hp : s.poll = none) (hg : s.cfg.grain = .call)
include ha hp hg

/-- POLLALL does what FEED of all the bytes in `in` does, and returns the packets completed (R193). -/
theorem exec_pollAll_of_feed {bs : List Byte} (hold : s.inR.holds bs) (hfeed : feed bs s = .ok (es, u)) :
    ∃ t, exec .pollAll s = .next t ∧ t.poll = none ∧ t.inR.holds [] ∧ t.dec = u.dec ∧ Delivers es s t ∧
      t.returns = s.returns ++ [⟨.poll, .packets (packetsOf es)⟩] := by
  obtain ⟨u', hfeed', hdec⟩ : ∃ u', feed bs (s.setPoll (some ⟨.all, .pop, []⟩)) = .ok (es, u') ∧ u'.dec = u.dec :=
    feed_of_dec_eq bs (setPoll_dec s _) hfeed
  obtain ⟨j, w, hj, hround, hwpoll, hwold, hwdec, hdelivers, honly⟩ :=
    pollSteps_drain (kind := .all) (rest := []) nofun bs (setPoll_poll s _) (by simpa using hold) hfeed' nofun
  obtain ⟨k, hk⟩ : ∃ k, 3 * bs.length + 3 = k + 1 + j := ⟨3 * bs.length + 2 - j, by omega⟩
  have hret : w.returns = s.returns := honly .returns (by decide)
  refine ⟨(w.setPoll none).answer .poll (.packets (packetsOf es)), ?_, rfl, hwold, hwdec.trans hdec, hdelivers, by simp [hret]⟩
  refine (whenAlive_pollStart_call (kind := .all) nofun ha hp hg hold).trans ?_
  rw [hk, hround, pollSteps_drained (kind := .all) nofun k hwpoll hwold]
  rfl

/-- POLL1 stops at the first byte that completes a packet, which it returns, with the bytes behind it still in `in` (R192). -/
theorem exec_poll1_of_feed {taken rest : List Byte} {b : Byte} {q : Packet} {v : State}
    (hold : s.inR.holds (taken ++ b :: rest)) (hfeed : feed taken s = .ok (es, u)) (hquiet : packetsOf es = [])
    (hlast : stepDecoder b u = .ok (some (.packet q), v)) :
    ∃ t, exec .poll1 s = .next t ∧ t.poll = none ∧ t.inR.holds rest ∧ t.dec = v.dec ∧ Delivers (es ++ [.packet q]) s t ∧
      t.returns = s.returns ++ [⟨.poll, .packet q⟩] := by
  obtain ⟨u', hfeed', hdec⟩ : ∃ u', feed taken (s.setPoll (some ⟨.one, .pop, []⟩)) = .ok (es, u') ∧ u'.dec = u.dec :=
    feed_of_dec_eq taken (setPoll_dec s _) hfeed
  obtain ⟨j, w, hj, hround, hwpoll, hwold, hwdec, hdelivers, honly⟩ :=
    pollSteps_drain (kind := .one) nofun taken (setPoll_poll s _) hold hfeed' fun _ => hquiet
  rw [hquiet] at hwpoll
  obtain ⟨v', hlast', hvdec⟩ := stepDecoder_of_dec_eq (hwdec.trans hdec) hlast
  obtain ⟨k, hk⟩ : ∃ k, 3 * (taken ++ b :: rest).length + 3 = k + 3 + j :=
    ⟨3 * (taken ++ b :: rest).length - j, by rw [List.length_append]; omega⟩
  obtain ⟨t, ht, htpoll, htold, htdec, htdelivers, htret⟩ := pollSteps_one_packet k hwpoll hwold hlast'
  have hret : w.returns = s.returns := honly .returns (by decide)
  refine ⟨t, ?_, htpoll, htold, htdec.trans hvdec, delivers_append hdelivers htdelivers, by rw [htret, hret]⟩
  refine (whenAlive_pollStart_call (kind := .one) nofun ha hp hg hold).trans ?_
  rw [hk, hround, ht]

end

/-! ## One whole frame -/

/-- A FEED that gives one packet alone has a last byte that completes it: what is fed before completes nothing. -/
theorem feed_single_packet {p : Packet} (bs : List Byte) :
    ∀ {s u : State}, feed bs s = .ok ([.packet p], u) →
      ∃ taken b rest w v, bs = taken ++ b :: rest ∧ feed taken s = .ok ([], w) ∧ stepDecoder b w = .ok (some (.packet p), v) := by
  induction bs with
  | nil => intro s u h; cases h
  | cons b bs ih =>
    intro s u h
    obtain ⟨e, t, fs, hstep, hrest, hes⟩ := feed_cons_ok h
    cases e with
    | none =>
      obtain ⟨taken, c, rest, w, v, rfl, htaken, hlast⟩ := ih (hrest.trans (by rw [hes]; rfl))
      exact ⟨b :: taken, c, rest, w, v, rfl, feed_cons hstep htaken, hlast⟩
    | some e =>
      obtain ⟨rfl, -⟩ : Event.packet p = e ∧ [] = fs := by simpa using hes
      exact ⟨[], b, bs, s, t, rfl, rfl, hstep⟩

end Sys2Proof.Machine
end

section
/-! SUPPORT. A packet from one block to another: SEND and TX.FLUSH put its frame on the wire, RX.BYTE and a POLL call take it off
and dispatch it (R146, R191, R192, R193, R198). -/

namespace Sys2Proof.Machine

/-! ## Runs of operations -/

theorem runOps_cons {i : Instr} {s t : State} (is : List Instr) (h : exec i s = .next t) : runOps (i :: is) s = runOps is t := by
  rw [runOps, h]

theorem runOps_append (is js : List Instr) :
    ∀ {s t : State}, runOps is s = .next t → runOps (is ++ js) s = runOps js t := by
  induction is with
  | nil => intro s t h; cases h; rfl
  | cons i is ih =>
    intro s t h
    cases hi : exec i s with
    | next u =>
      rw [runOps_cons is hi] at h
      exact (runOps_cons (is ++ js) hi).trans (ih h)
    | fault f => rw [runOps, hi] at h; cases h
    | refused r => rw [runOps, hi] at h; cases h

/-! ## The sending block -/

/-- As many pops as a ring holds bytes take them all, in order (R198). -/
theorem ringTake_of_holds (r : RingSel) (bs : List Byte) :
    ∀ s : State, (s.ring r).holds bs → ∃ t, ringTake r bs.length s = .ok (bs, t) ∧ (t.ring r).holds [] := by
  induction bs with
  | nil => intro s h; exact ⟨s, rfl, h⟩
  | cons b bs ih =>
    intro s h
    obtain ⟨u, hpop, hu⟩ := ringPop_of_holds_cons r s b bs h
    obtain ⟨t, htake, ht⟩ := ih u hu
    exact ⟨t, by simp [ringTake, hpop, htake], ht⟩

/-- TX.FLUSH moves the bytes of `out` to the wire and returns them (R198). -/
theorem exec_txFlush_of_holds {s : State} {bs : List Byte} (ha : s.alive = true) (hold : s.outR.holds bs) :
    ∃ t, exec .txFlush s = .next t ∧ t.outR.holds [] ∧ t.wireOut = s.wireOut ++ bs ∧
      t.returns = s.returns ++ [⟨.tx, .bytes bs⟩] := by
  obtain ⟨u, htake, hu⟩ := ringTake_of_holds .out bs s hold
  have honly := onlyChanges_ringTake bs.length htake
  have hwire : u.wireOut = s.wireOut := honly .wireOut (by decide)
  have hret : u.returns = s.returns := honly .returns (by decide)
  refine ⟨(u.emitWire bs).answer .tx (.bytes bs), ?_, hu, by simp [hwire], by simp [hret]⟩
  show execTxFlush s = _
  rw [execTxFlush, whenAlive, if_pos ha, ← holds_length hold, htake, finishWith]

/-- A sending operation and TX.FLUSH put exactly the packet's frame on the wire (R143, R144, R194, R198). -/
theorem runOps_send_flush {i : Instr} {p : Packet} {x : State} (hi : sentPacket i = some p) (hlen : p.payload.length ≤ 223)
    (ha : x.alive = true) (hb : x.enq.busy = false) (hg : x.cfg.grain = .call) (hout : x.outR.holds []) :
    ∃ x', runOps [i, .txFlush] x = .next x' ∧ x'.wireOut = x.wireOut ++ wireFrame p.ptype p.payload := by
  obtain ⟨t, hsend, hframe, -, -, -, honly⟩ :=
    Settled.enqueueWithRoomAppendsTheFrame.1 i p x [] hi ha hb hg hout (by rw [List.length_nil]; omega)
  have halive : t.alive = x.alive := honly .alive (by decide)
  have hwire : t.wireOut = x.wireOut := honly .wireOut (by decide)
  obtain ⟨x', hflush, -, hwire', -⟩ := exec_txFlush_of_holds (halive.trans ha) hframe
  refine ⟨x', ?_, by rw [hwire', hwire, List.nil_append]⟩
  rw [runOps_cons _ hsend, runOps_cons _ hflush, runOps]

/-! ## The receiving block -/

/-- RX.BYTE pushes its byte into `in`, where there is room (R191). -/
theorem exec_rxByte_of_room {b : Byte} {s : State} {old : List Byte} (ha : s.alive = true) (hold : s.inR.holds old)
    (hroom : old.length < 255) :
    ∃ t, exec (.rxByte b) s = .next t ∧ t.inR.holds (old ++ [b]) ∧ OnlyChanges [.inRing, .returns] s t :=
  ⟨(ringPush .inp b s).2.answer .rx (ringPush .inp b s).1, if_pos ha, (ringPush_holds .inp b s old hold hroom).1,
    onlyChanges_ringPush_answer .inp b s _ _⟩

/-- As long as there is room for all of them, the bytes received enter `in` in order (R191). -/
theorem runOps_rxByte (bs : List Byte) :
    ∀ {s : State} {old : List Byte}, s.alive = true → s.inR.holds old → old.length + bs.length ≤ 255 →
      ∃ t, runOps (bs.map .rxByte) s = .next t ∧ t.inR.holds (old ++ bs) ∧ OnlyChanges [.inRing, .returns] s t := by
  induction bs with
  | nil => intro s old _ hold _; exact ⟨s, rfl, by simpa using hold, onlyChanges_refl _ s⟩
  | cons b bs ih =>
    intro s old ha hold hroom
    rw [List.length_cons] at hroom
    obtain ⟨u, hrx, hu, honly⟩ := exec_rxByte_of_room (b := b) ha hold (by omega)
    have halive : u.alive = s.alive := honly .alive (by decide)
    obtain ⟨t, hrun, ht, htonly⟩ := ih (halive.trans ha) hu (by rw [List.length_append, List.length_singleton]; omega)
    exact ⟨t, (runOps_cons _ hrx).trans hrun, by simpa using ht, onlyChanges_trans honly htonly⟩

section
variable {p : Packet} {s : State} (hlen : p.payload.length ≤ 223) (hinit : s.dec.initial) (ha : s.alive = true)
  (hp : s.poll = none) (hg : s.cfg.grain = .call) (hold : s.inR.holds (wireFrame p.ptype p.payload))
include hlen hinit ha hp hg hold

/-- POLL1 with a whole frame in `in` dispatches its packet (R145, R192). -/
theorem exec_poll1_wireFrame : ∃ t, exec .poll1 s = .next t ∧ ShowsDispatch [p] s t := by
  obtain ⟨u, hfeed, -, -⟩ := feed_wireFrame p s hinit hlen
  obtain ⟨taken, b, rest, w, v, hframe, htaken, hlast⟩ := feed_single_packet _ hfeed
  obtain ⟨t, ht, -, -, -, ⟨-, hshows⟩, -⟩ := exec_poll1_of_feed ha hp hg (hframe ▸ hold) htaken rfl hlast
  exact ⟨t, ht, hshows⟩

/-- POLLALL with a whole frame in `in` dispatches its packet (R145, R193). -/
theorem exec_pollAll_wireFrame : ∃ t, exec .pollAll s = .next t ∧ ShowsDispatch [p] s t := by
  obtain ⟨u, hfeed, -, -⟩ := feed_wireFrame p s hinit hlen
  obtain ⟨t, ht, -, -, -, ⟨-, hshows⟩, -⟩ := exec_pollAll_of_feed ha hp hg hold hfeed
  exact ⟨t, ht, hshows⟩

end

/-- A whole frame received by an idle block with nothing in `in`, and polled either way, is dispatched (R191 to R193). -/
theorem runOps_receive_poll {i : Instr} {p : Packet} {y : State} (hi : i = .poll1 ∨ i = .pollAll)
    (hlen : p.payload.length ≤ 223) (ha : y.alive = true) (hp : y.poll = none) (hg : y.cfg.grain = .call)
    (hin : y.inR.holds []) (hinit : y.dec.initial) :
    ∃ y', runOps ((wireFrame p.ptype p.payload).map .rxByte ++ [i]) y = .next y' ∧ ShowsDispatch [p] y y' := by
  obtain ⟨t, hrun, hframe, honly⟩ := runOps_rxByte (wireFrame p.ptype p.payload) ha hin
    (by rw [wireFrame_length, List.length_nil]; omega)
  have hdec : t.dec = y.dec := honly .dec (by decide)
  have halive : t.alive = y.alive := honly .alive (by decide)
  have hpoll : t.poll = y.poll := honly .poll (by decide)
  have hcfg : t.cfg = y.cfg := honly .cfg (by decide)
  rw [← hdec] at hinit
  rw [← halive] at ha
  rw [← hpoll] at hp
  rw [← hcfg] at hg
  obtain ⟨y', hy', hshows⟩ : ∃ y', exec i t = .next y' ∧ ShowsDispatch [p] t y' := by
    rcases hi with rfl | rfl
    · exact exec_poll1_wireFrame hlen hinit ha hp hg hframe
    · exact exec_pollAll_wireFrame hlen hinit ha hp hg hframe
  obtain ⟨-, hreceived⟩ := delivers_nil honly (by decide) (by decide) (by decide) (by decide)
  refine ⟨y', ?_, showsEvents_append hreceived hshows⟩
  rw [runOps_append _ _ hrun, runOps_cons _ hy', runOps]

/-! ## What the two senders send -/

/-- The two bytes of a speed, low first, are its value (R63, R143). -/
theorem toNat_halves (v : Half) : (v.extractLsb' 0 8).toNat + 256 * (v.extractLsb' 8 8).toNat = v.toNat := by
  simp only [BitVec.extractLsb'_toNat, Nat.shiftRight_eq_div_pow]
  omega

/-- DISPATCH of the packet SEND_SPEED sends is one `set_speeds` call with both values clamped (R143, R221; D17). -/
theorem dispatched_speedPayload (left right : Half) : dispatched ⟨0x53#8, speedPayload left right⟩ =
    ([⟨BitVec.ofNat 16 (min left.toNat 10000), BitVec.ofNat 16 (min right.toNat 10000)⟩], [], []) := by
  rw [← toNat_halves left, ← toNat_halves right]
  rfl

end Sys2Proof.Machine
end

section
/-! SUPPORT. The statements of the encoder (O26) and of the paths from one block to another (O46, O47). -/

open Sys2Proof Sys2Proof.Machine

namespace Sys2Proof.Settled

/-- Settles O26: ENCODE's frame is the wire frame, whose FEED gives the packet; the events of a FEED say what it adds to `pkt_out`. -/
theorem decodeOfEncodeIsThePacket : Obligations.DecodeOfEncodeIsThePacket := by
  unfold Obligations.DecodeOfEncodeIsThePacket
  intro ptype len payload s hlen hpayload hinit
  obtain ⟨t, hfeed, htinit, honly⟩ := feed_wireFrame ⟨ptype, payload⟩ s hinit (hpayload.trans_le hlen)
  exact ⟨wireFrame ptype payload, t, encodedFrame_eq_wireFrame ptype len payload hpayload hlen, hfeed, htinit,
    feed_pktOut _ hfeed, honly⟩

/-- Settles O46: the frame of the Speed packet crosses the wire, and its DISPATCH is the clamped call. -/
theorem speedCommandReachesTheMotor : Obligations.SpeedCommandReachesTheMotor := by
  unfold Obligations.SpeedCommandReachesTheMotor
  intro left right x y hxa hxb hxg hxout hya hyp hyg hyin hyinit
  have hsent : sentPacket (.sendSpeed left right) = some ⟨0x53#8, speedPayload left right⟩ := rfl
  have hlen : (speedPayload left right).length ≤ 223 := by simp [speedPayload]
  obtain ⟨x', hx', hwire⟩ := runOps_send_flush hsent hlen hxa hxb hxg hxout
  obtain ⟨y', hy', hmotor, htelem, hdiag⟩ :=
    runOps_receive_poll (p := ⟨0x53#8, speedPayload left right⟩) (.inl rfl) hlen hya hyp hyg hyin hyinit
  refine ⟨x', _, y', hx', hwire, wireFrame_length _ _, hy', ?_⟩
  simpa [eventShown, dispatched_speedPayload] using And.intro hmotor (And.intro hdiag htelem)

/-- Settles O47: the frame of the truncated Message packet crosses the wire, and its DISPATCH publishes the text. -/
theorem messageArrivesTruncatedTo200 : Obligations.MessageArrivesTruncatedTo200 := by
  unfold Obligations.MessageArrivesTruncatedTo200
  intro text x y hxa hxb hxg hxout hya hyp hyg hyin hyinit
  have hsent : sentPacket (.sendMessage text.length text) = some ⟨0x4D#8, text.take 200⟩ := if_pos rfl
  have hlen : (text.take 200).length ≤ 223 := (List.length_take_le 200 text).trans (by decide)
  obtain ⟨x', hx', hwire⟩ := runOps_send_flush hsent hlen hxa hxb hxg hxout
  obtain ⟨y', hy', hmotor, htelem, hdiag⟩ :=
    runOps_receive_poll (p := ⟨0x4D#8, text.take 200⟩) (.inr rfl) hlen hya hyp hyg hyin hyinit
  refine ⟨x', _, y', hx', hwire, hy', ?_⟩
  simpa [eventShown, dispatched] using And.intro htelem (And.intro hdiag hmotor)

end Sys2Proof.Settled
end

section
/-! SUPPORT. DEC.STEP read forwards: what `quietNext`, `raisedBy` and a whole payload say of a byte is what the step does with it
(R160 to R168). -/

namespace Sys2Proof.Machine

section
variable {b : Byte} {s : State}

/-! ## The step of the decoder -/

/-- The rows without an event. -/
theorem stepDecoder_of_quietNext {d : Dec} (h : quietNext s.dec b d) : stepDecoder b s = .ok (none, s.setDec d) := by
  rcases h with ⟨hst, hb, rfl⟩ | ⟨hst, hb, rfl⟩ | ⟨hst, hb, rfl⟩ | ⟨hst, rfl⟩ | ⟨hst, hb, rfl⟩ |
    ⟨hst, hb, hlen, rfl⟩ | ⟨hst, hcnt, st, hlast, rfl⟩ | ⟨hst, hb, rfl⟩ | ⟨hst, hb, rfl⟩ <;>
    simp only [stepDecoder, hst]
  · exact if_pos hb
  · rw [stepSync1, if_neg hb, advance, ← hst]
  · exact if_pos hb
  · rfl
  · subst hb; rfl
  · exact (if_neg (Nat.not_lt.mpr hlen)).trans (if_neg hb)
  · rcases hlast with ⟨rfl, hlast⟩ | ⟨rfl, hmore⟩
    · exact (if_pos hlast).trans (if_pos hcnt)
    · exact (if_neg hmore).trans (if_pos hcnt)
  · exact if_pos hb
  · exact if_pos hb

/-- The rows that abandon the frame (R250). -/
theorem stepDecoder_of_raisedBy {g : Diag} (h : raisedBy s.dec b g) :
    stepDecoder b s = .ok (some (.diag g), (s.emitDiag g).parserReset) := by
  cases g with
  | framingError =>
    obtain ⟨hst, hb, rfl⟩ := h
    simp only [stepDecoder, hst]
    exact if_neg hb
  | oversizedPacket =>
    obtain ⟨hst, hover, rfl⟩ := h
    simp only [stepDecoder, hst]
    exact if_pos hover
  | checksumMismatch =>
    obtain ⟨hst, hb, rfl, rfl⟩ := h
    simp only [stepDecoder, hst]
    exact if_neg hb
  | terminatorMismatch pos =>
    cases pos <;>
    · obtain ⟨hst, hb, rfl⟩ := h
      simp only [stepDecoder, hst]
      exact if_neg hb
  | _ => exact h.elim

/-- The row that completes a packet (R168). -/
theorem stepDecoder_of_payload {payload : List Byte} (hst : s.dec.st = .lf)
    (hread : Memory.read s.dec.pay 0 s.dec.plen.toNat = some payload) :
    stepDecoder lfByte s =
      .ok (some (.packet ⟨s.dec.ptype, payload⟩), (s.emitPacket ⟨s.dec.ptype, payload⟩).parserReset) := by
  simp [stepDecoder, hst, stepLf, completePacket, hread]

/-! ## The operation: its event is its result (R160) -/

theorem exec_decStep {e : Option Event} {t : State} (h : stepDecoder b s = .ok (e, t)) :
    exec (.decStep b) s = .next (t.answer .poll (.event e)) := by
  show answerEvent (stepDecoder b s) = _
  rw [h]
  rfl

theorem exec_decStep_of_quietNext {d : Dec} (h : quietNext s.dec b d) :
    exec (.decStep b) s = .next { s with dec := d, returns := s.returns ++ [⟨.poll, .event none⟩] } :=
  exec_decStep (stepDecoder_of_quietNext h)

theorem exec_decStep_of_raisedBy {g : Diag} (h : raisedBy s.dec b g) :
    exec (.decStep b) s = .next { s with
      dec := ⟨.sync1, 0#8, 0#8, 0#8, 0#8, s.dec.pay⟩
      diagOut := s.diagOut ++ [g]
      returns := s.returns ++ [⟨.poll, .event (some (.diag g))⟩] } :=
  exec_decStep (stepDecoder_of_raisedBy h)

/-! ## The events by state (R171) -/

/-- Sync1, Type and Data raise no error. -/
theorem st_of_raisedBy {d : Dec} {g : Diag} (h : raisedBy d b g) : d.st ≠ .sync1 ∧ d.st ≠ .type ∧ d.st ≠ .data := by
  have hst : d.st = .sync2 ∨ d.st = .length ∨ d.st = .checksum ∨ d.st = .cr ∨ d.st = .lf := by
    cases g with
    | framingError => exact .inl h.1
    | oversizedPacket => exact .inr (.inl h.1)
    | checksumMismatch => exact .inr (.inr (.inl h.1))
    | terminatorMismatch pos =>
      cases pos with
      | cr => exact .inr (.inr (.inr (.inl h.1)))
      | lf => exact .inr (.inr (.inr (.inr h.1)))
    | _ => exact h.elim
  rcases hst with hst | hst | hst | hst | hst <;> rw [hst] <;> decide

end

/-! ## The payload store -/

/-- The payload byte stored, summed and counted (R165). -/
theorem quietNext_data {d : Dec} (b : Byte) (hst : d.st = .data) (hcnt : d.cnt.toNat < payloadMax) :
    quietNext d b { d with
      pay := Memory.set d.pay d.cnt.toNat b, csum := d.csum ^^^ b, cnt := d.cnt + 1#8
      st := if d.cnt + 1#8 = d.plen then .checksum else .data } := by
  have hbound : d.cnt.toNat < 223 := hcnt
  have hlast : d.cnt + 1#8 = d.plen ↔ d.cnt.toNat + 1 = d.plen.toNat := by bv_omega
  refine .inr (.inr (.inr (.inr (.inr (.inr (.inl ⟨hst, hcnt, _, ?_, rfl⟩))))))
  split
  · next h => exact .inl ⟨rfl, hlast.mp h⟩
  · next h => exact .inr ⟨rfl, mt hlast.mpr h⟩

/-- Bytes that stand one behind the other in a store are what is read from it. -/
theorem read_of_get (m : Memory) (bs : List Byte) :
    ∀ i, (∀ k, k < bs.length → Memory.get m (i + k) = bs[k]?) → Memory.read m i bs.length = some bs := by
  induction bs with
  | nil => intro i _; rfl
  | cons b bs ih =>
    intro i h
    have hfirst : Memory.get m i = some b := h 0 (Nat.zero_lt_succ _)
    have hrest : Memory.read m (i + 1) bs.length = some bs :=
      ih (i + 1) fun k hk => by rw [Nat.add_right_comm]; exact h (k + 1) (Nat.succ_lt_succ hk)
    simp [Memory.read, hfirst, hrest]

end Sys2Proof.Machine
end

section
/-! SUPPORT. The transition row a decoder selects for a byte (R178). -/

namespace Sys2Proof.Machine

/-- The row of R178 for a decoder and a byte. -/
def selectedRow (d : Dec) (b : Byte) : Instr :=
  match d.st with
  | .sync1 => if b = syncByte then .decSync1Hit else .decSync1Miss b
  | .sync2 => if b = syncByte then .decSync2Hit else .decSync2Miss b
  | .type => .decType b
  | .length => if payloadMax < b.toNat then .decLengthOver b else if b = 0#8 then .decLengthZero else .decLengthOk b
  | .data => if d.cnt.toNat + 1 = d.plen.toNat then .decDataLast b else .decDataMore b
  | .checksum => if b = d.csum then .decChecksumOk b else .decChecksumBad b
  | .cr => if b = crByte then .decCrOk else .decCrBad b
  | .lf => if b = lfByte then .decLfOk else .decLfBad b

theorem rowByte_selectedRow (d : Dec) (b : Byte) : rowByte (selectedRow d b) = some b := by
  unfold selectedRow
  cases d.st with
  | type => rfl
  | data => simp only; split <;> rfl
  | _ => simp only; split_ifs <;> simp_all [rowByte]

/-- The decoder selects it; in Data this needs `cnt < plen` (R35). -/
theorem rowSelected_selectedRow (d : Dec) (b : Byte) (h : d.sound) : rowSelected d (selectedRow d b) = true := by
  obtain ⟨-, -, -, hstate⟩ := h
  unfold selectedRow
  cases hst : d.st with
  | type => simp [rowSelected, hst]
  | length =>
    simp only
    split
    · next hover => simpa [rowSelected, hst] using show 224 ≤ b.toNat from hover
    · next hfits =>
      split
      · simp [rowSelected, hst]
      · next hzero =>
        have hpos : 1 ≤ b.toNat := by bv_omega
        simpa [rowSelected, hst, hpos] using hfits
  | data =>
    rw [hst] at hstate
    obtain ⟨hlt, -⟩ := hstate
    simp only
    split
    · next hlast => simpa [rowSelected, hst] using hlast
    · next hmore =>
      have hlt' : d.cnt.toNat + 1 < d.plen.toNat := by bv_omega
      simpa [rowSelected, hst] using hlt'
  | _ => simp only; split <;> simp_all [rowSelected]

/-- It selects no other row with that byte. -/
theorem eq_selectedRow {d : Dec} {b : Byte} {i : Instr} (hb : rowByte i = some b) (h : rowSelected d i = true) :
    i = selectedRow d b := by
  cases i with
  | decLengthOver =>
    cases hb
    obtain ⟨hst, hover⟩ : d.st = .length ∧ 224 ≤ b.toNat := by simpa [rowSelected] using h
    simp only [selectedRow, hst]
    exact (if_pos hover).symm
  | decLengthOk =>
    cases hb
    obtain ⟨hst, hpos, hmax⟩ : d.st = .length ∧ 1 ≤ b.toNat ∧ b.toNat ≤ payloadMax := by
      simpa [rowSelected] using h
    have hzero : b ≠ 0#8 := by rintro rfl; exact absurd hpos (by decide)
    simp only [selectedRow, hst]
    exact ((if_neg (Nat.not_lt.mpr hmax)).trans (if_neg hzero)).symm
  | decDataMore =>
    cases hb
    obtain ⟨hst, hmore⟩ : d.st = .data ∧ d.cnt.toNat + 1 < d.plen.toNat := by simpa [rowSelected] using h
    simp only [selectedRow, hst]
    exact (if_neg hmore.ne).symm
  | decSync1Hit | decSync1Miss | decSync2Hit | decSync2Miss | decType | decLengthZero | decDataLast | decChecksumOk |
      decChecksumBad | decCrOk | decCrBad | decLfOk | decLfBad =>
    cases hb
    simp_all [rowSelected, selectedRow]
  | _ => cases hb

end Sys2Proof.Machine
end

section
/-! SUPPORT. FEED of damaged frames: up to the checksum, the errors, and what is skipped behind them (R161, R166 to R168, R170). -/

namespace Sys2Proof.Machine

theorem onlyChanges_emitDiag (s : State) (g : Diag) : OnlyChanges [.diagOut] s (s.emitDiag g) := by
  intro p hp; cases p <;> simp [Part.same] at hp ⊢

theorem onlyChanges_abandoned (s : State) (g : Diag) : OnlyChanges [.dec, .diagOut] s (s.emitDiag g).parserReset :=
  onlyChanges_then (onlyChanges_emitDiag s g) (onlyChanges_parserReset _)

theorem parserReset_initial (d : Dec) : d.parserReset.initial := ⟨rfl, rfl, rfl, rfl, rfl⟩

/-- The header and the whole payload of a frame, to its checksum, whatever comes next (R161 to R165). -/
theorem feed_to_checksum (ptype : Byte) (payload : List Byte) (s : State) (h : s.dec.initial)
    (hlen : payload.length ≤ 223) :
    ∃ t, feed ([0x24#8, 0x24#8, ptype, BitVec.ofNat 8 payload.length] ++ payload) s = .ok ([], t) ∧
      OnlyChanges [.dec] s t ∧ t.dec.inside .checksum ptype (BitVec.ofNat 8 payload.length) payload := by
  have hplen : (BitVec.ofNat 8 payload.length).toNat = payload.length := Nat.mod_eq_of_lt (by omega)
  have hempty : BitVec.ofNat 8 payload.length = 0#8 ↔ ([] : List Byte).length = (BitVec.ofNat 8 payload.length).toNat := by
    rw [BitVec.toNat_eq, eq_comm]; rfl
  obtain ⟨t, ht, hth, htd⟩ := feed_header ptype (BitVec.ofNat 8 payload.length) s h (by omega)
  simp only [hempty] at htd
  obtain ⟨u, hu, huh, hud⟩ := feed_payload payload t ptype _ [] htd (by rw [hplen]; exact Nat.zero_add _) (by omega)
  exact ⟨u, feed_append hu ht, onlyChanges_trans hth huh, hud⟩

/-- A byte that raises an error is used up, and the bytes behind it meet a reset decoder (R170, R250). -/
theorem feed_of_raisedBy {b : Byte} {bs : List Byte} {s u : State} {g : Diag} {es : List Event} (h : raisedBy s.dec b g)
    (hrest : feed bs (s.emitDiag g).parserReset = .ok (es, u)) : feed (b :: bs) s = .ok (.diag g :: es, u) :=
  feed_cons (stepDecoder_of_raisedBy h) hrest

/-- A byte without an event changes the decoder's registers. -/
theorem feed_of_quietNext {b : Byte} {bs : List Byte} {s u : State} {d : Dec} {es : List Event} (h : quietNext s.dec b d)
    (hrest : feed bs (s.setDec d) = .ok (es, u)) : feed (b :: bs) s = .ok (es, u) :=
  feed_cons (stepDecoder_of_quietNext h) hrest

/-- Bytes without a marker are skipped in Sync1 (R161). -/
theorem feed_without_marker (bs : List Byte) {s : State} (hst : s.dec.st = .sync1) (h : ∀ b ∈ bs, b ≠ 0x24#8) :
    feed bs s = .ok ([], s) := by
  induction bs with
  | nil => rfl
  | cons b bs ih =>
    obtain ⟨hb, hbs⟩ := List.forall_mem_cons.mp h
    exact feed_of_quietNext (d := s.dec) (.inr (.inl ⟨hst, hb, rfl⟩)) (ih hbs)

/-- A checksum that does not match gives its error, and the terminators behind it are skipped (R166, R170). -/
theorem feed_bad_checksum {b : Byte} {s : State} (hst : s.dec.st = .checksum) (hb : b ≠ s.dec.csum) :
    feed [b, 0x0D#8, 0x0A#8] s = .ok ([.diag (.checksumMismatch s.dec.csum b)],
      (s.emitDiag (.checksumMismatch s.dec.csum b)).parserReset) :=
  feed_of_raisedBy (g := .checksumMismatch s.dec.csum b) ⟨hst, hb, rfl, rfl⟩
    (feed_without_marker _ rfl (by decide))

/-- The XOR of bytes one of which is changed by a pattern is changed by the pattern (R76). -/
theorem checksum_set_xor (bs : List Byte) (b m : Byte) : ∀ j, bs[j]? = some b →
    checksum (bs.set j (b ^^^ m)) = checksum bs ^^^ m := by
  induction bs with
  | nil => intro j h; cases h
  | cons c bs ih =>
    intro j h
    cases j with
    | zero =>
      obtain rfl : c = b := Option.some.inj h
      rw [List.set_cons_zero, checksum, checksum, BitVec.xor_assoc, BitVec.xor_comm m, ← BitVec.xor_assoc]
    | succ j => rw [List.set_cons_succ, checksum, checksum, ih j h, BitVec.xor_assoc]

/-- One flipped bit changes the checksum (R173). -/
theorem checksum_flip_ne (bs : List Byte) (b : Byte) (j k : Nat) (h : bs[j]? = some b) (hk : k < 8) :
    checksum (bs.set j (b ^^^ (1#8 <<< k))) ≠ checksum bs := by
  have hbit : ∀ n < 8, 1#8 <<< n ≠ 0#8 := by decide
  rw [checksum_set_xor bs b _ j h]
  exact fun heq => hbit k hk ((BitVec.xor_right_inj (checksum bs)).mp (heq.trans BitVec.xor_zero.symm))

/-- A frame without one of its two terminators. -/
theorem wireFrame_eraseIdx_terminator (ptype : Byte) (payload : List Byte) (k : Nat) :
    (wireFrame ptype payload).eraseIdx (5 + k + payload.length) =
      [0x24#8, 0x24#8, ptype, BitVec.ofNat 8 payload.length] ++ payload ++ [checksum payload] ++
        [0x0D#8, 0x0A#8].eraseIdx k := by
  rw [show 5 + k + payload.length = payload.length + (k + 1) + 4 by omega]
  simp [wireFrame, foldl_xor_eq_checksum, List.eraseIdx_append_of_length_le]

/-- A frame up to and with its checksum byte, which matches (R161 to R166). -/
theorem feed_to_cr (p : Packet) (s : State) (h : s.dec.initial) (hlen : p.payload.length ≤ 223) :
    ∃ t, feed ([0x24#8, 0x24#8, p.ptype, BitVec.ofNat 8 p.payload.length] ++ p.payload ++ [checksum p.payload]) s =
        .ok ([], t) ∧ t.dec.st = .cr := by
  obtain ⟨t, ht, -, hst, -, -, hcsum, -⟩ := feed_to_checksum p.ptype p.payload s h hlen
  have hmatch : quietNext t.dec (checksum p.payload) { t.dec with st := .cr } := by simp [quietNext, hst, hcsum]
  exact ⟨_, feed_append (feed_of_quietNext hmatch rfl) ht, rfl⟩

/-- In a frame without its CR the LF byte is the one that fails (R167, R175). -/
theorem feed_missing_cr (p : Packet) (s : State) (h : s.dec.initial) (hlen : p.payload.length ≤ 223) :
    ∃ t, feed ((wireFrame p.ptype p.payload).eraseIdx (5 + p.payload.length)) s =
        .ok ([.diag (.terminatorMismatch .cr 0x0A#8)], t) ∧ t.dec.initial := by
  obtain ⟨t, ht, hst⟩ := feed_to_cr p s h hlen
  have hfails : raisedBy t.dec 0x0A#8 (.terminatorMismatch .cr 0x0A#8) := ⟨hst, by decide, rfl⟩
  rw [wireFrame_eraseIdx_terminator p.ptype p.payload 0]
  exact ⟨_, feed_append (feed_of_raisedBy hfails rfl) ht, parserReset_initial t.dec⟩

/-- A frame without its LF leaves the decoder waiting for it, with no event (R167). -/
theorem feed_missing_lf (p : Packet) (s : State) (h : s.dec.initial) (hlen : p.payload.length ≤ 223) :
    ∃ t, feed ((wireFrame p.ptype p.payload).eraseIdx (6 + p.payload.length)) s = .ok ([], t) ∧ t.dec.st = .lf := by
  obtain ⟨t, ht, hst⟩ := feed_to_cr p s h hlen
  have hmatch : quietNext t.dec 0x0D#8 { t.dec with st := .lf } := by simp [quietNext, hst]
  rw [wireFrame_eraseIdx_terminator p.ptype p.payload 1]
  exact ⟨_, feed_append (feed_of_quietNext hmatch rfl) ht, rfl⟩

/-- A frame that meets the decoder in LF is lost: its first marker is the byte that fails, its second one begins a frame that
its type ends, and the rest is skipped (R162, R168, R170, R175). -/
theorem feed_wireFrame_in_lf (q : Packet) (s : State) (hst : s.dec.st = .lf) (htype : q.ptype ≠ 0x24#8)
    (hrest : ∀ x ∈ (wireFrame q.ptype q.payload).drop 3, x ≠ 0x24#8) :
    ∃ t, feed (wireFrame q.ptype q.payload) s =
        .ok ([.diag (.terminatorMismatch .lf 0x24#8), .diag (.framingError q.ptype)], t) ∧ t.dec.initial := by
  have hfails : raisedBy s.dec 0x24#8 (.terminatorMismatch .lf 0x24#8) := ⟨hst, by decide, rfl⟩
  have hmarker : quietNext s.dec.parserReset 0x24#8 { s.dec.parserReset with st := .sync2 } := by simp [quietNext]
  have hends : raisedBy { s.dec.parserReset with st := .sync2 } q.ptype (.framingError q.ptype) := ⟨rfl, htype, rfl⟩
  exact ⟨_, feed_of_raisedBy hfails (feed_of_quietNext hmarker (feed_of_raisedBy hends (feed_without_marker _ rfl hrest))),
    parserReset_initial _⟩

end Sys2Proof.Machine
end

section
/-! SUPPORT. The statements of the decoder (O12 to O22, O24, O27 to O29). -/

open Sys2Proof Sys2Proof.Machine

namespace Sys2Proof.Settled

/-- Settles O12: both branches are rows without an event. -/
theorem sync1WaitsForTheMarker : Obligations.Sync1WaitsForTheMarker := by
  unfold Obligations.Sync1WaitsForTheMarker
  intro b s hst
  refine exec_decStep_of_quietNext ?_
  split
  · next hb => exact .inl ⟨hst, hb, rfl⟩
  · next hb => exact .inr (.inl ⟨hst, hb, by rw [← hst]⟩)

/-- Settles O13: a row without an event and one that abandons the frame. -/
theorem sync2TakesTheSecondMarker : Obligations.Sync2TakesTheSecondMarker := by
  unfold Obligations.Sync2TakesTheSecondMarker
  intro b s hst
  exact ⟨fun hb => exec_decStep_of_quietNext (by simp [quietNext, hst, hb]),
    fun hb => exec_decStep_of_raisedBy (g := .framingError b) ⟨hst, hb, rfl⟩⟩

/-- Settles O14: one row without an event. -/
theorem typeByteIsCapturedVerbatim : Obligations.TypeByteIsCapturedVerbatim := by
  unfold Obligations.TypeByteIsCapturedVerbatim
  intro b s hst
  exact exec_decStep_of_quietNext (by simp [quietNext, hst])

/-- Settles O15: two rows without an event and one that abandons the frame. -/
theorem lengthByteIsBoundedBy223 : Obligations.LengthByteIsBoundedBy223 := by
  unfold Obligations.LengthByteIsBoundedBy223
  intro b s hst
  refine ⟨fun hb => exec_decStep_of_quietNext (by simp [quietNext, hst, hb]), fun hpos hmax => ?_,
    fun hover => exec_decStep_of_raisedBy (g := .oversizedPacket b) ⟨hst, hover, rfl⟩⟩
  have hzero : b ≠ 0#8 := by rintro rfl; exact absurd hpos (by decide)
  exact exec_decStep_of_quietNext (by simp [quietNext, hst, hzero, hmax])

/-- Settles O16: the row without an event that stores, sums and counts the byte. -/
theorem dataByteIsStoredAndSummed : Obligations.DataByteIsStoredAndSummed := by
  unfold Obligations.DataByteIsStoredAndSummed
  intro b s hst hcnt
  have hstep := stepDecoder_of_quietNext (quietNext_data b hst (Nat.lt_succ_of_le hcnt))
  refine ⟨_, exec_decStep hstep, get_set_same _ _ _, fun j hj => get_set_ne _ _ _ _ hj, rfl, ?_, rfl, rfl, rfl, rfl,
    onlyChanges_then (onlyChanges_setDec s _) (onlyChanges_answer _ _ _)⟩
  show (s.dec.cnt + 1#8).toNat = s.dec.cnt.toNat + 1
  bv_omega

/-- Settles O17: a row without an event and one that abandons the frame. -/
theorem checksumByteIsCompared : Obligations.ChecksumByteIsCompared := by
  unfold Obligations.ChecksumByteIsCompared
  intro b s hst
  exact ⟨fun hb => exec_decStep_of_quietNext (by simp [quietNext, hst, hb]),
    fun hb => exec_decStep_of_raisedBy (g := .checksumMismatch s.dec.csum b) ⟨hst, hb, rfl, rfl⟩⟩

/-- Settles O18: a row without an event and one that abandons the frame. -/
theorem crByteIsRequired : Obligations.CrByteIsRequired := by
  unfold Obligations.CrByteIsRequired
  intro b s hst
  exact ⟨fun hb => exec_decStep_of_quietNext (by simp [quietNext, hst, hb]),
    fun hb => exec_decStep_of_raisedBy (g := .terminatorMismatch .cr b) ⟨hst, hb, rfl⟩⟩

/-- Settles O19: the row that completes the packet read from the store, and one that abandons the frame. -/
theorem lfByteCompletesThePacket : Obligations.LfByteCompletesThePacket := by
  unfold Obligations.LfByteCompletesThePacket
  intro b s payload hst
  refine ⟨?_, fun hb => exec_decStep_of_raisedBy (g := .terminatorMismatch .lf b) ⟨hst, hb, rfl⟩⟩
  rintro rfl hlen hget
  have hread : Memory.read s.dec.pay 0 s.dec.plen.toNat = some payload := by
    rw [← hlen]
    exact read_of_get _ payload 0 fun k hk => by rw [Nat.zero_add]; exact hget k hk
  exact exec_decStep (stepDecoder_of_payload hst hread)

/-- Settles O20: DEC.RESET is the parser reset and nothing else. -/
theorem decResetIsSilent : Obligations.DecResetIsSilent := by
  unfold Obligations.DecResetIsSilent
  exact fun _ => rfl

/-- Settles O21: a selected row is DEC.STEP of its byte, which does not fault in a sound decoder. -/
theorem selectedRowIsTheArmOfDecStep : Obligations.SelectedRowIsTheArmOfDecStep := by
  unfold Obligations.SelectedRowIsTheArmOfDecStep
  intro i b s hrow hselected hsound
  obtain ⟨e, t, hstep⟩ := stepDecoder_ok b s hsound
  have hexec := exec_decStep hstep
  exact ⟨_, by rw [exec_row i b s hrow, if_pos hselected, hexec], hexec⟩

/-- Settles O22: the row is `selectedRow`. -/
theorem exactlyOneRowIsSelected : Obligations.ExactlyOneRowIsSelected := by
  unfold Obligations.ExactlyOneRowIsSelected
  exact fun d b hsound => ⟨selectedRow d b, ⟨rowByte_selectedRow d b, rowSelected_selectedRow d b hsound⟩,
    fun _ hrow hselected => eq_selectedRow hrow hselected⟩

/-- Settles O24: the three outcomes of a DEC.STEP are the three cases. -/
theorem atMostOneEventPerByte : Obligations.AtMostOneEventPerByte := by
  unfold Obligations.AtMostOneEventPerByte
  intro b s t h
  obtain ⟨e, u, hstep, hanswer⟩ := finishWith_next h
  cases hanswer
  rcases stepDecoder_cases b s u e hstep with
    ⟨d, -, rfl, rfl⟩ | ⟨g, hraised, rfl, rfl⟩ | ⟨payload, hst, -, -, rfl, rfl⟩
  · exact .inl ⟨rfl, rfl, rfl⟩
  · obtain ⟨hsync1, htype, hdata⟩ := st_of_raisedBy hraised
    exact .inr (.inr ⟨g, hsync1, htype, hdata, rfl, rfl, rfl⟩)
  · exact .inr (.inl ⟨_, hst, rfl, rfl, rfl⟩)

/-- Settles O27: the frame is taken up to its checksum, which is not that of the payload with the flipped bit. -/
theorem flippedPayloadBitIsDetected : Obligations.FlippedPayloadBitIsDetected := by
  unfold Obligations.FlippedPayloadBitIsDetected
  intro ptype payload j k b s hlen hb hk hinit
  have hsum : payload.foldl (· ^^^ ·) 0#8 = checksum payload := by rw [foldl_xor_eq_checksum, BitVec.zero_xor]
  obtain ⟨t, ht, honly, hst, -, -, hcsum, -⟩ :=
    feed_to_checksum ptype (payload.set j (b ^^^ (1#8 <<< k))) s hinit (by rwa [List.length_set])
  have hbad : checksum payload ≠ t.dec.csum := hcsum ▸ (checksum_flip_ne payload b j k hb hk).symm
  rw [List.length_set] at ht
  rw [hsum]
  exact ⟨t.dec.csum, _, feed_append (feed_bad_checksum hst hbad) ht, parserReset_initial t.dec, honly .pktOut (by decide),
    onlyChanges_then honly (onlyChanges_abandoned t _)⟩

/-- Settles O28: the garbage is skipped, the damaged frame ends in its error, and the next one meets an initial decoder. -/
theorem frameAfterMissingCrIsDecoded : Obligations.FrameAfterMissingCrIsDecoded := by
  unfold Obligations.FrameAfterMissingCrIsDecoded
  intro garbage p q s hgarbage hp hq hinit
  obtain ⟨t, ht, htinit⟩ := feed_missing_cr p s hinit hp
  obtain ⟨u, hu, huinit, -⟩ := feed_wireFrame q t htinit hq
  have hskip : feed garbage s = .ok ([], s) := feed_without_marker garbage hinit.1 hgarbage
  have hfeed := feed_append hu (feed_append ht hskip)
  exact ⟨u, hfeed, huinit, feed_pktOut _ hfeed⟩

/-- Settles O29: the damaged frame ends in LF, where the next one is lost; the events hold no packet. -/
theorem frameAfterMissingLfIsLost : Obligations.FrameAfterMissingLfIsLost := by
  unfold Obligations.FrameAfterMissingLfIsLost
  intro p q s hp _ htype hrest hinit
  obtain ⟨t, ht, hst⟩ := feed_missing_lf p s hinit hp
  obtain ⟨u, hu, huinit⟩ := feed_wireFrame_in_lf q t hst htype hrest
  have hfeed := feed_append hu ht
  exact ⟨u, hfeed, huinit, by simpa [packetsOf] using feed_pktOut _ hfeed⟩

end Sys2Proof.Settled
end

section
/-! SUPPORT. The ring operations and the transport's answers, one equation a case (R121, R191, R197 to R201). -/

namespace Sys2Proof.Machine

/-! ## What pops do to their ring (R121, R198) -/

theorem ringPop_some_eq {r : RingSel} {s t : State} {v : Byte} (h : ringPop r s = .ok (some v, t)) :
    t = s.setRing r (s.ring r).afterPop := by
  rcases ringPop_cases r s with ⟨_, e⟩ | ⟨_, _, _, e⟩ | ⟨_, _, e⟩ <;> rw [e] at h <;> cases h
  rfl

theorem ringPop_wr {r : RingSel} {s t : State} {x : Option Byte} (h : ringPop r s = .ok (x, t)) :
    (t.ring r).wr = (s.ring r).wr := by
  rcases ringPop_cases r s with ⟨_, e⟩ | ⟨_, _, _, e⟩ | ⟨_, _, e⟩ <;> rw [e] at h <;> cases h
  · rfl
  · rw [setRing_ring]

theorem ringTake_wr {r : RingSel} {n : Nat} {s t : State} {bs : List Byte} (h : ringTake r n s = .ok (bs, t)) :
    (t.ring r).wr = (s.ring r).wr := by
  obtain ⟨k, -, hring⟩ := ringTake_ring n h
  rw [hring]

theorem empty_of_holds_nil {ρ : Ring} (h : ρ.holds []) : ρ.wr = ρ.rd :=
  (isEmpty_iff ρ).mp ((isEmpty_iff_count ρ).mpr (holds_length h).symm)

/-! ## RX.BYTE (R191) -/

theorem exec_rxByte {s : State} (b : Byte) (ha : s.alive = true) :
    exec (.rxByte b) s = .next ((ringPush .inp b s).2.answer .rx (ringPush .inp b s).1) := if_pos ha

/-! ## The transmit agent (R197, R198) -/

theorem exec_txByte_absent {s t : State} (ha : s.alive = true) (h : ringPop .out s = .ok (none, t)) :
    exec .txByte s = .next (t.answer .tx .absent) := by
  show execTxByte s = _
  rw [execTxByte, whenAlive, if_pos ha, h, finishWith]

theorem exec_txByte_byte {s t : State} {v : Byte} (ha : s.alive = true) (h : ringPop .out s = .ok (some v, t)) :
    exec .txByte s = .next ((t.emitWire [v]).answer .tx (.byte v)) := by
  show execTxByte s = _
  rw [execTxByte, whenAlive, if_pos ha, h, finishWith]

/-- TX.FLUSH leaves the write cursor of `out` (R198). -/
theorem exec_txFlush_wr {s t : State} (ha : s.alive = true) (h : exec .txFlush s = .next t) : t.outR.wr = s.outR.wr := by
  change execTxFlush s = _ at h
  rw [execTxFlush, whenAlive, if_pos ha] at h
  obtain ⟨bs, u, htake, hk⟩ := finishWith_next h
  have hwr : u.outR.wr = s.outR.wr := ringTake_wr (r := .out) htake
  cases hk
  exact hwr

/-! ## Calls and turns that begin nothing (R203, R276; log 7, 13) -/

theorem pollStart_in_progress {s : State} (k : PollKind) (hp : s.poll.isSome = true) :
    pollStart k s = .refused .callInProgress := if_pos hp

theorem enqueuePacket_in_progress {s : State} (ptype len : Byte) (payload : List Byte) (hb : s.enq.busy = true)
    (ha : s.alive = true) : enqueuePacket ptype len payload s = .refused .callInProgress :=
  (if_pos ha).trans (if_pos hb)

theorem step_of_agentTurn {s : State} {a : Agent} {ts : List Turn} (h : s.sched = .agent a :: ts) :
    step s = agentTurn a (s.setSched ts) := by
  rw [step, takeTurn, h]

theorem agentTurn_threadBusy {a : Agent} {s : State} (h : threadBusy a s = true) : agentTurn a s = .next s := if_pos h

/-- No call holds the FAULT port: a turn of it is its next request (R259). -/
theorem agentTurn_fault (s : State) : agentTurn .fault s = beginRequest .fault s := by
  simp [agentTurn, threadBusy]

/-- An operation that the agent may issue but the variant leaves out is refused (R203; log 7). -/
theorem beginRequest_not_admitted {a : Agent} {s : State} {i : Instr} {rest : List Byte}
    (hd : decode (s.ports.get a) = .ok (i, rest)) (hi : mayIssue a i = true)
    (hv : variantAdmits s.cfg.threads i = false) : beginRequest a s = .refused .hostOnly := by
  unfold beginRequest
  cases hport : s.ports.get a with
  | nil => rw [hport] at hd; cases hd
  | cons b bs =>
    rw [hport] at hd
    dsimp only
    rw [hd]
    simp [hi, hv]

end Sys2Proof.Machine
end

section
/-! SUPPORT. An ENQUEUE held by a full `out`: it waits for one pop, and then pushes one byte (R194). -/

namespace Sys2Proof.Machine

/-- The next step of the ENQUEUE in flight is the push of `b`. -/
structure Enq.NextByte (e : Enq) (b : Byte) : Prop where
  active : e.active = true
  pending : e.pending = none
  byte : e.frame[e.idx]? = some b

theorem Enq.NextByte.busy {e : Enq} {b : Byte} (h : e.NextByte b) : e.busy = true := by simp [Enq.busy, h.active]

/-- While `out` is full the call holds, however many steps the turn may take: a hold changes nothing (R194). -/
theorem enqSteps_held {s : State} {b : Byte} (h : s.enq.NextByte b) (hfull : s.outR.isFull = true) :
    ∀ k, enqSteps k s = s := by
  have hstep : enqStep s = s := by rw [enqStep_push s h.pending]; simp [enqPush, h.byte, hfull]
  intro k
  induction k with
  | zero => rfl
  | succ k ih => rw [enqSteps_succ k s h.busy, hstep, ih]

/-- With room for one byte the turn pushes it, and holds again unless it was the frame's last one (R194). -/
theorem enqRun_of_one_free {s : State} {b : Byte} (h : s.enq.NextByte b) (hroom : s.outR.wr + 1#8 ≠ s.outR.rd)
    (hlast : s.outR.wr + 1#8 + 1#8 = s.outR.rd) :
    (enqRun s).outR = s.outR.afterPush b ∧ (enqRun s).enq.idx = s.enq.idx + 1 ∧
      ((enqRun s).enq.active = false ↔ s.enq.idx + 1 = s.enq.frame.length) := by
  obtain ⟨k, hk⟩ := enqFuel_pos s
  have hpush : (ringPush .out b s).2 = s.setRing .out (s.outR.afterPush b) := by rw [ringPush_of_room .out b s hroom]; rfl
  have hrun : enqRun s = enqSteps k (enqPush s) := by rw [enqRun, hk, enqSteps_succ k s h.busy, enqStep_push s h.pending]
  rw [hrun, enqPush_of_room s b h.byte ((isFull_eq_false_iff _).mpr hroom), hpush]
  split
  · next hend =>
    rw [enqSteps_of_not_busy k _ (by simp [Enq.busy, h.pending])]
    exact ⟨rfl, rfl, iff_of_true rfl hend⟩
  · next hmore =>
    obtain ⟨hidx, -⟩ := List.getElem?_eq_some_iff.mp h.byte
    rw [enqSteps_held (b := s.enq.frame[s.enq.idx + 1]) ?hnext ?hfull]
    case hnext => exact ⟨h.active, h.pending, List.getElem?_eq_getElem _⟩
    case hfull => exact (isFull_iff _).mpr hlast
    exact ⟨rfl, rfl, iff_of_false (by simp [h.active]) hmore⟩

/-- Under Spin a call run whole pushes as much of its frame as fits, and then holds (R41, R194; D13). -/
theorem enqStart_call_held {frame old : List Byte} {s : State} (hg : s.cfg.grain = .call) (hp : s.cfg.policy = .spin)
    (hold : s.outR.holds old) (hle : old.length ≤ 255) (hlong : 255 < old.length + frame.length) :
    (enqStart frame s).outR.holds (old ++ frame.take (255 - old.length)) ∧ (enqStart frame s).outR.isFull = true ∧
      (enqStart frame s).enq = ⟨true, frame, 255 - old.length, none⟩ ∧
      OnlyChanges [.outRing, .enq] s (enqStart frame s) := by
  obtain ⟨n, hn⟩ : ∃ n, 255 - old.length = n := ⟨_, rfl⟩
  rw [hn]
  have htake : (frame.take n).length = n := List.length_take_of_le (by omega)
  have hsplit : frame.take n ++ frame.drop n = frame := List.take_append_drop n frame
  obtain ⟨t, hsteps, henq, hbytes, -, honly⟩ :=
    enqSteps_push_many (frame.take n) [] (frame.drop n) (s.setEnq ⟨true, frame, 0, none⟩) old
      (by rw [Ne, List.drop_eq_nil_iff]; omega) (by simp) hold (by omega)
  rw [List.nil_append, hsplit, htake] at henq
  have hfull : t.outR.isFull = true := (isFull_iff _).mpr (full_of_holds hbytes (by rw [List.length_append]; omega))
  have hnext : t.enq.NextByte (frame[n]'(by omega)) := by rw [henq]; exact ⟨rfl, rfl, List.getElem?_eq_getElem _⟩
  have hfuel : enqFuel (s.setEnq ⟨true, frame, 0, none⟩) = frame.length + 1 - n + (frame.take n).length := by
    rw [htake]
    simp only [enqFuel, setEnq_cfg, hg, setEnq_enq, Enq.stepsLeft]
    omega
  rw [enqStart_call frame s hg, enqEncoded_spin frame s hp, enqRun, hfuel, hsteps, enqSteps_held hnext hfull]
  exact ⟨hbytes, hfull, henq, onlyChanges_then (onlyChanges_setEnq s _) honly⟩

end Sys2Proof.Machine
end

section
/-! SUPPORT. What POLL1 and POLLALL leave, and the packet that ends a POLL1 (R192, R193). -/

namespace Sys2Proof.Machine

/-! ## What a call leaves alone -/

/-- A step of a call does not move the write cursor of `in` (R73). -/
theorem pollStep_inR_wr {c : PollCall} {s t : State} (h : pollStep c s = .next t) : t.inR.wr = s.inR.wr := by
  unfold pollStep at h
  split at h
  · unfold pollPop at h
    split at h
    · split at h <;> cases h <;> rfl
    all_goals
      obtain ⟨v, u, hpop, hk⟩ := finishWith_next h
      have hwr : u.inR.wr = s.inR.wr := ringPop_wr (r := .inp) hpop
      cases v <;> cases hk <;> exact hwr
  · obtain ⟨e, u, hdec, hk⟩ := finishWith_next h
    have hin : u.inR = s.inR := onlyChanges_stepDecoder hdec .inRing (by decide)
    rcases e with _ | (_ | _) <;> cases hk <;> exact congrArg Ring.wr hin
  · next p _ =>
    have hin : (dispatchPacket p s).inR = s.inR := onlyChanges_dispatchPacket p s .inRing (by decide)
    unfold pollDisp at h
    split at h <;> cases h <;> exact congrArg Ring.wr hin

theorem pollSteps_inR_wr (k : Nat) : ∀ {s t : State}, pollSteps k s = .next t → t.inR.wr = s.inR.wr := by
  induction k with
  | zero => intro s t h; cases h; rfl
  | succ k ih =>
    intro s t h
    unfold pollSteps at h
    split at h
    · cases h; rfl
    · split at h
      · next hstep => exact (ih h).trans (pollStep_inR_wr hstep)
      all_goals cases h

/-- A POLL call that completes has left the write cursor of `in`, and has changed nothing but its own side (R37, R73). -/
theorem whenAlive_pollStart_frame {kind : PollKind} {s t : State} (ha : s.alive = true) (hp : s.poll = none)
    (h : whenAlive .poll s (pollStart kind) = .next t) (htp : t.poll = none) :
    t.inR.wr = s.inR.wr ∧ OnlyChanges [.inRing, .dec, .pktOut, .motorOut, .telemOut, .diagOut, .returns] s t := by
  rw [whenAlive, if_pos ha] at h
  have hside : OnlyChanges (.poll :: [.inRing, .dec, .pktOut, .motorOut, .telemOut, .diagOut, .returns]) s t :=
    onlyChanges_mono (by decide) (pollStart_onlyChanges kind s t h)
  rw [pollStart_eq kind s hp, pollRun] at h
  have hwr : t.inR.wr = (s.setPoll _).inR.wr := pollSteps_inR_wr _ h
  exact ⟨hwr, onlyChanges_without (p := .poll) (htp.trans hp.symm) hside⟩

/-! ## POLL1 with and without a packet -/

/-- The first packet of a FEED: the byte that completes it, and the bytes before it, which complete none. -/
theorem feed_first_packet (bs : List Byte) : ∀ {s u : State} {es : List Event}, feed bs s = .ok (es, u) → packetsOf es ≠ [] →
    ∃ taken b rest fs w v q, bs = taken ++ b :: rest ∧ feed taken s = .ok (fs, w) ∧ packetsOf fs = [] ∧
      stepDecoder b w = .ok (some (.packet q), v) := by
  induction bs with
  | nil => intro s u es h hne; cases h; exact absurd rfl hne
  | cons b bs ih =>
    intro s u es h hne
    obtain ⟨e, t, es, hstep, hrest, rfl⟩ := feed_cons_ok h
    by_cases hquiet : packetsOf e.toList = []
    · rw [packetsOf_append, hquiet, List.nil_append] at hne
      obtain ⟨taken, c, rest, fs, w, v, q, rfl, htaken, hfs, hlast⟩ := ih hrest hne
      exact ⟨b :: taken, c, rest, _, w, v, q, rfl, feed_cons hstep htaken,
        by rw [packetsOf_append, hquiet, hfs, List.nil_append], hlast⟩
    · rcases e with _ | q | g
      · exact absurd rfl hquiet
      · exact ⟨[], b, bs, [], s, t, q, rfl, rfl, rfl, hstep⟩
      · exact absurd rfl hquiet

/-- POLL1 drains `in` when its bytes complete no packet, and returns `None` (R192). -/
theorem exec_poll1_of_quiet_feed {bs : List Byte} {s u : State} {es : List Event} (ha : s.alive = true) (hp : s.poll = none)
    (hg : s.cfg.grain = .call) (hold : s.inR.holds bs) (hfeed : feed bs s = .ok (es, u)) (hquiet : packetsOf es = []) :
    ∃ t, exec .poll1 s = .next t ∧ t.poll = none ∧ t.inR.holds [] ∧ t.dec = u.dec ∧ Delivers es s t ∧
      t.returns = s.returns ++ [⟨.poll, .absent⟩] := by
  obtain ⟨u', hfeed', hdec⟩ : ∃ u', feed bs (s.setPoll (some ⟨.one, .pop, []⟩)) = .ok (es, u') ∧ u'.dec = u.dec :=
    feed_of_dec_eq bs (setPoll_dec s _) hfeed
  obtain ⟨j, w, hj, hround, hwpoll, hwold, hwdec, hdelivers, honly⟩ :=
    pollSteps_drain (kind := .one) (rest := []) nofun bs (setPoll_poll s _) (by simpa using hold) hfeed' fun _ => hquiet
  obtain ⟨k, hk⟩ : ∃ k, 3 * bs.length + 3 = k + 1 + j := ⟨3 * bs.length + 2 - j, by omega⟩
  have hret : w.returns = s.returns := honly .returns (by decide)
  refine ⟨(w.setPoll none).answer .poll .absent, ?_, rfl, hwold, hwdec.trans hdec, hdelivers, by simp [hret]⟩
  refine (whenAlive_pollStart_call (kind := .one) nofun ha hp hg hold).trans ?_
  rw [hk, hround, pollSteps_drained (kind := .one) nofun k hwpoll hwold]
  rfl

/-! ## Whole frames -/

/-- The last byte of a frame is the one that completes its packet (R161 to R168). -/
theorem feed_to_lf (p : Packet) (s : State) (h : s.dec.initial) (hlen : p.payload.length ≤ 223) :
    ∃ taken t v, wireFrame p.ptype p.payload = taken ++ [0x0A#8] ∧ feed taken s = .ok ([], t) ∧
      stepDecoder 0x0A#8 t = .ok (some (.packet p), v) ∧ v.dec.initial := by
  obtain ⟨t, ht, -, hst, hptype, hplen, hcsum, -, hread⟩ := feed_to_checksum p.ptype p.payload s h hlen
  have hmatch : quietNext t.dec (checksum p.payload) { t.dec with st := .cr } := by simp [quietNext, hst, hcsum]
  have hcr : quietNext { t.dec with st := .cr } 0x0D#8 { t.dec with st := .lf } := by simp [quietNext]
  have hlf := stepDecoder_of_payload (s := t.setDec { t.dec with st := .lf }) (payload := p.payload) rfl
    (by simpa [hplen, Nat.mod_eq_of_lt (show p.payload.length < 256 by omega)] using hread)
  rw [show (⟨_, p.payload⟩ : Packet) = p by rw [setDec_dec, hptype]] at hlf
  have hend : feed [checksum p.payload, 0x0D#8] t = .ok ([], t.setDec { t.dec with st := .lf }) :=
    feed_of_quietNext hmatch (feed_of_quietNext hcr rfl)
  refine ⟨_, _, _, ?_, feed_append hend ht, hlf, parserReset_initial _⟩
  simp [wireFrame, foldl_xor_eq_checksum]

/-- FEED of whole frames to an initial decoder: their packets in order, and the decoder is initial again (R145). -/
theorem feed_wireFrames (ps : List Packet) : ∀ s : State, (∀ p ∈ ps, p.payload.length ≤ 223) → s.dec.initial →
    ∃ u, feed (ps.map fun p => wireFrame p.ptype p.payload).flatten s = .ok (ps.map .packet, u) ∧ u.dec.initial := by
  induction ps with
  | nil => intro s _ h; exact ⟨s, rfl, h⟩
  | cons p ps ih =>
    intro s hlen h
    obtain ⟨hp, hps⟩ := List.forall_mem_cons.mp hlen
    obtain ⟨t, ht, hti, -⟩ := feed_wireFrame p s h hp
    obtain ⟨u, hu, hui⟩ := ih t hps hti
    exact ⟨u, feed_append hu ht, hui⟩

theorem packetsOf_map_packet (ps : List Packet) : packetsOf (ps.map .packet) = ps := by
  rw [packetsOf, List.filterMap_map]
  exact List.filterMap_some

end Sys2Proof.Machine
end

section
/-! SUPPORT. The statements of the transport (O10, O11, O33 to O36, O38 to O43, O58). -/

open Sys2Proof Sys2Proof.Machine

namespace Sys2Proof.Settled

/-- Settles O10: the call begins its pushes, fills `out`, and holds for the rest of its turn. -/
theorem spinHoldsWhenOutIsFull : Obligations.SpinHoldsWhenOutIsFull := by
  unfold Obligations.SpinHoldsWhenOutIsFull
  intro i p s old hi ha hb hg hp hold hle hlong
  exact ⟨_, exec_of_sentPacket i p s hi ha hb, enqStart_call_held hg hp hold hle (by rwa [← wireFrame_length p.ptype] at hlong)⟩

/-- Settles O11: a full ring holds the call, and the slot a pop frees is room for one byte. -/
theorem heldEnqueueWaitsForOnePop : Obligations.HeldEnqueueWaitsForOnePop := by
  unfold Obligations.HeldEnqueueWaitsForOnePop
  intro s v b hactive hpending hbyte hfull ha hfree hv
  have hnext : s.enq.NextByte b := ⟨hactive, hpending, hbyte⟩
  have hwr := (isFull_iff _).mp hfull
  have hne : s.outR.wr ≠ s.outR.rd := by bv_omega
  obtain ⟨t, ht⟩ : ∃ t, ((s.setRing .out s.outR.afterPop).emitWire [v]).answer .tx (.byte v) = t := ⟨_, rfl⟩
  have hpop : exec .txByte s = .next t := (exec_txByte_byte ha (ringPop_of_value .out s v hne hv)).trans (congrArg _ ht)
  have henq : t.enq = s.enq := by rw [← ht]; rfl
  have hout : t.outR = s.outR.afterPop := by rw [← ht]; rfl
  obtain ⟨hring, hidx, hend⟩ := enqRun_of_one_free (s := t) (b := b) (by rwa [henq])
    (by rw [hout]; exact room_afterPop _ hne) (by rw [hout]; exact congrArg (· + 1#8) hwr)
  rw [henq] at hidx hend
  rw [hout] at hring
  refine ⟨?_, t, enqRun t, hpop, by rw [← ht]; rfl, ?_, ?_, ?_, ?_, hidx, hend⟩
  · rw [agentTurn_cmd_busy s hfree hnext.busy, enqRun, enqSteps_held hnext hfull]
  · exact agentTurn_cmd_busy t (by rw [← ht]; exact hfree) (by rw [henq]; exact hnext.busy)
  · rw [hring]; exact get_set_same _ _ _
  · rw [hring]; rfl
  · rw [hring]; rfl

/-- Settles O33: RX.BYTE is a push on `in`. -/
theorem receivedByteEntersInOrIsLost : Obligations.ReceivedByteEntersInOrIsLost := by
  unfold Obligations.ReceivedByteEntersInOrIsLost
  intro b s old ha hold
  refine ⟨fun hlen => ?_, fun hlt => ?_⟩
  · rw [exec_rxByte b ha, ringPush_of_full .inp b s (full_of_holds hold hlen)]
    rfl
  · have hroom := (isFull_eq_false_iff _).mp (isFull_eq_false_of_holds hold hlt)
    have hpush := ringPush_of_room .inp b s hroom
    obtain ⟨hholds, hrd⟩ := ringPush_holds .inp b s old hold hlt
    exact ⟨_, exec_rxByte b ha, hholds, hrd, by rw [hpush]; rfl, by rw [hpush]; rfl, onlyChanges_ringPush_answer .inp b s _ _⟩

/-- Settles O34: POLLALL drains `in` as FEED of its bytes does; so does POLL1, unless some byte is the first to complete a packet. -/
theorem pollCallsComplete : Obligations.PollCallsComplete := by
  unfold Obligations.PollCallsComplete
  intro bs s hs ha hp hg hold
  obtain ⟨-, -, hdec, -⟩ := hs
  obtain ⟨es, u, hfeed⟩ := feed_ok bs s hdec
  constructor
  · obtain ⟨t, ht, htp, hin, htdec, ⟨hpkt, hshows⟩, hret⟩ := exec_pollAll_of_feed ha hp hg hold hfeed
    obtain ⟨hwr, honly⟩ := whenAlive_pollStart_frame ha hp ht htp
    exact ⟨t, es, u, ht, hfeed, honly, hin, hwr, htdec, hpkt, hshows, hret⟩
  · by_cases hquiet : packetsOf es = []
    · obtain ⟨t, ht, htp, hin, htdec, ⟨hpkt, hshows⟩, hret⟩ := exec_poll1_of_quiet_feed ha hp hg hold hfeed hquiet
      obtain ⟨hwr, honly⟩ := whenAlive_pollStart_frame ha hp ht htp
      rw [hquiet, List.append_nil] at hpkt
      exact ⟨t, ht, honly, hwr, .inl ⟨es, u, hfeed, hquiet, hin, htdec, hpkt, hshows, hret⟩⟩
    · obtain ⟨taken, b, rest, fs, w, v, q, rfl, htaken, hfs, hlast⟩ := feed_first_packet bs hfeed hquiet
      obtain ⟨t, ht, htp, hin, htdec, ⟨hpkt, hshows⟩, hret⟩ := exec_poll1_of_feed ha hp hg hold htaken hfs hlast
      obtain ⟨hwr, honly⟩ := whenAlive_pollStart_frame ha hp ht htp
      rw [packetsOf_append, hfs] at hpkt
      exact ⟨t, ht, honly, hwr, .inr ⟨taken, b, rest, fs, w, v, q, rfl, htaken, hfs, hlast, hin, htdec, hpkt, hshows, hret⟩⟩

/-- Settles O35: the frame's last byte is the one that completes the packet. -/
theorem poll1TakesOnePacketAndStops : Obligations.Poll1TakesOnePacketAndStops := by
  unfold Obligations.Poll1TakesOnePacketAndStops
  intro p rest s hlen ha hp hg hinit hold
  obtain ⟨taken, w, v, hframe, htaken, hlast, hvi⟩ := feed_to_lf p s hinit hlen
  rw [hframe, List.append_assoc] at hold
  obtain ⟨t, ht, htp, hin, hdec, ⟨hpkt, hshows⟩, hret⟩ := exec_poll1_of_feed ha hp hg hold htaken rfl hlast
  obtain ⟨-, honly⟩ := whenAlive_pollStart_frame ha hp ht htp
  exact ⟨t, ht, hin, hdec ▸ hvi, hpkt, hshows, hret, honly⟩

/-- Settles O36: FEED of whole frames gives their packets. -/
theorem pollAllTakesEveryPacket : Obligations.PollAllTakesEveryPacket := by
  unfold Obligations.PollAllTakesEveryPacket
  intro ps s hlen ha hp hg hinit hold
  obtain ⟨u, hfeed, hui⟩ := feed_wireFrames ps s hlen hinit
  obtain ⟨t, ht, htp, hin, hdec, ⟨hpkt, hshows⟩, hret⟩ := exec_pollAll_of_feed ha hp hg hold hfeed
  obtain ⟨-, honly⟩ := whenAlive_pollStart_frame ha hp ht htp
  rw [packetsOf_map_packet] at hpkt hret
  exact ⟨t, ht, hin, hdec ▸ hui, hpkt, hshows, hret, honly⟩

/-- Settles O38: TX.BYTE is a pop on `out`. -/
theorem txByteSendsTheOldestByte : Obligations.TxByteSendsTheOldestByte := by
  unfold Obligations.TxByteSendsTheOldestByte
  refine fun s ha => ⟨fun hold => exec_txByte_absent ha (ringPop_of_holds_nil .out s hold), fun v rest hold => ?_⟩
  obtain ⟨t, hpop, hrest⟩ := ringPop_of_holds_cons .out s v rest hold
  have hexec := exec_txByte_byte ha hpop
  have honly := execTxByte_onlyChanges s _ hexec
  obtain rfl := ringPop_some_eq hpop
  exact ⟨_, hexec, hrest, rfl, rfl, rfl, rfl, honly⟩

/-- Settles O39: the pops take every byte `out` holds, so its cursors meet at the write cursor, which they leave. -/
theorem txFlushSendsEverything : Obligations.TxFlushSendsEverything := by
  unfold Obligations.TxFlushSendsEverything
  intro s bs ha hold
  obtain ⟨t, ht, hempty, hwire, hret⟩ := exec_txFlush_of_holds ha hold
  have hwr := exec_txFlush_wr ha ht
  exact ⟨t, ht, hempty, (empty_of_holds_nil hempty).symm.trans hwr, hwr, hwire, hret, execTxFlush_onlyChanges s t ht⟩

/-- Settles O40: the two branches of IO.FAIL, and the request the device refuses. -/
theorem ioFailKillsTheTransportOnce : Obligations.IoFailKillsTheTransportOnce := by
  unfold Obligations.IoFailKillsTheTransportOnce
  refine ⟨fun s => ⟨fun ha => if_pos ha, fun ha => if_neg (by simp [ha])⟩, fun s ts rest hsched hdevice hdecode => ?_⟩
  rw [step_of_agentTurn hsched, agentTurn_fault]
  exact beginRequest_not_admitted (a := .fault) (s := s.setSched ts) hdecode rfl
    ((variantAdmits_eq_false _ _).mpr ⟨hdevice, rfl⟩)

/-- Settles O41: ALIVE is a STATUS operation, and only answers. -/
theorem aliveReadsLiveness : Obligations.AliveReadsLiveness := by
  unfold Obligations.AliveReadsLiveness
  exact fun s a => ⟨⟨by simp [mayIssue, home], by simp [variantAdmits]⟩, rfl⟩

/-- Settles O42: each of the eight operations begins with the test of `alive`. -/
theorem deadTransportRefusesEverything : Obligations.DeadTransportRefusesEverything := by
  unfold Obligations.DeadTransportRefusesEverything
  intro b ptype len payload text left right n s ha
  have hdead : ¬s.alive = true := by simp [ha]
  exact ⟨if_neg hdead, if_neg hdead, if_neg hdead, if_neg hdead, if_neg hdead, if_neg hdead, if_neg hdead, if_neg hdead⟩

/-- Settles O43: the frame rows and the POLL calls begin with one test, the sending operations with another. -/
theorem secondCallOfOneAgentIsRefused : Obligations.SecondCallOfOneAgentIsRefused := by
  unfold Obligations.SecondCallOfOneAgentIsRefused
  refine ⟨fun ptype len rest s hp => ?_, fun ptype len payload text left right n s hb ha => ?_⟩
  · have hrefused : ∀ k, pollStart k s = .refused .callInProgress := fun k => pollStart_in_progress k hp
    exact ⟨hrefused _, hrefused _, hrefused _, fun ha =>
      ⟨(if_pos ha).trans (hrefused .one), (if_pos ha).trans (hrefused .all)⟩⟩
  · have hrefused : ∀ y l pl, enqueuePacket y l pl s = .refused .callInProgress := fun y l pl =>
      enqueuePacket_in_progress y l pl hb ha
    exact ⟨hrefused ptype len payload, hrefused typeSpeed 4#8 (speedPayload left right), hrefused typeMessage _ _⟩

/-- Settles O58: the polling agent's thread is inside the ENQUEUE. -/
theorem spinningEnqueueBlocksThePoll : Obligations.SpinningEnqueueBlocksThePoll := by
  unfold Obligations.SpinningEnqueueBlocksThePoll
  intro s ts hsched hdevice hbusy
  have hthread : threadBusy .poll (s.setSched ts) = true := by simpa [threadBusy, hdevice] using hbusy
  rw [step_of_agentTurn hsched, agentTurn_threadBusy hthread]
  rfl

end Sys2Proof.Settled
end

section
/-! SUPPORT. DISPATCH of a packet, one equation for each class of R220. -/

namespace Sys2Proof.Machine

theorem exec_dispatch (p : Packet) (s : State) : exec (.dispatch p) s = .next (dispatchPacket p s) := rfl

/-- R221: two little-endian values, each clamped. -/
theorem dispatchPacket_speed (a b c d : Byte) (s : State) : dispatchPacket ⟨0x53#8, [a, b, c, d]⟩ s = s.emitMotor
    ⟨BitVec.ofNat 16 (min (a.toNat + 256 * b.toNat) 10000), BitVec.ofNat 16 (min (c.toNat + 256 * d.toNat) 10000)⟩ := by
  rw [← clampSpeed_assembleHalf, ← clampSpeed_assembleHalf]
  rfl

/-- R222. -/
theorem dispatchPacket_speed_malformed (payload : List Byte) (s : State) (h : payload.length ≠ 4) :
    dispatchPacket ⟨0x53#8, payload⟩ s = raise (.speedLengthInvalid payload.length) s := by
  obtain ⟨hclass, -⟩ := speed_malformed payload fun a b c d hp => h (by simp [hp])
  rw [dispatchPacket, hclass]

/-- R223, R224. -/
theorem dispatchPacket_message (payload : List Byte) (s : State) :
    dispatchPacket ⟨0x4D#8, payload⟩ s = (s.emitTelem payload).emitDiag (.messageText payload) := rfl

/-- R225. -/
theorem dispatchPacket_unknown (p : Packet) (s : State) (hspeed : p.ptype ≠ 0x53#8) (hmessage : p.ptype ≠ 0x4D#8) :
    dispatchPacket p s = raise (.unknownPacketType p.ptype) s := by
  have hclass : classify p = .unknown p.ptype := by rw [classify, if_neg hspeed, if_neg hmessage]
  rw [dispatchPacket, hclass]

/-- A speed clamped to 10000 fits in 16 bits (R78, R221). -/
theorem toNat_ofNat_clamped (n : Nat) : (BitVec.ofNat 16 (min n 10000)).toNat = min n 10000 :=
  (BitVec.toNat_ofNat _ _).trans (Nat.mod_eq_of_lt ((min_le_right n 10000).trans_lt (by decide)))

end Sys2Proof.Machine
end

section
/-! SUPPORT. The statements of the dispatcher (O30, O31). -/

open Sys2Proof Sys2Proof.Machine

namespace Sys2Proof.Settled

/-- Settles O30: the two Speed classes of DISPATCH, and the clamped values fit in 16 bits. -/
theorem speedPacketIsClampedOrReported : Obligations.SpeedPacketIsClampedOrReported := by
  unfold Obligations.SpeedPacketIsClampedOrReported
  refine ⟨fun a b c d s => ⟨_, _, toNat_ofNat_clamped _, toNat_ofNat_clamped _, ?_⟩, fun payload s hlen => ?_⟩
  · rw [exec_dispatch, dispatchPacket_speed]; rfl
  · rw [exec_dispatch, dispatchPacket_speed_malformed payload s hlen]; rfl

/-- Settles O31: the Message class of DISPATCH, and the class of every other type. -/
theorem messageIsForwardedUnknownIsReported : Obligations.MessageIsForwardedUnknownIsReported := by
  unfold Obligations.MessageIsForwardedUnknownIsReported
  refine ⟨fun payload s => ?_, fun p s hspeed hmessage => ?_⟩
  · rw [exec_dispatch, dispatchPacket_message]; rfl
  · rw [exec_dispatch, dispatchPacket_unknown p s hspeed hmessage]; rfl

end Sys2Proof.Settled
end

section
/-! SUPPORT. A DEC.STEP that answers a diagnostic, inverted: the error the decoder of before raised, and the state it leaves (R250). -/

namespace Sys2Proof.Machine

theorem one_le_code (g : Diag) : 1 ≤ g.code := by cases g <;> simp [Diag.code]

/-- A frame-level error carries the byte and the checksum register of the step that raised it (R241, R250). -/
theorem eq_of_raisedBy {d : Dec} {b : Byte} {g : Diag} (h : raisedBy d b g) :
    g = .framingError b ∨ g = .oversizedPacket b ∨ g = .checksumMismatch d.csum b ∨
      g = .terminatorMismatch .cr b ∨ g = .terminatorMismatch .lf b := by
  cases g with
  | framingError => obtain ⟨-, -, rfl⟩ := h; exact .inl rfl
  | oversizedPacket => obtain ⟨-, -, rfl⟩ := h; exact .inr (.inl rfl)
  | checksumMismatch => obtain ⟨-, -, rfl, rfl⟩ := h; exact .inr (.inr (.inl rfl))
  | terminatorMismatch pos =>
    cases pos with
    | cr => obtain ⟨-, -, rfl⟩ := h; exact .inr (.inr (.inr (.inl rfl)))
    | lf => obtain ⟨-, -, rfl⟩ := h; exact .inr (.inr (.inr (.inr rfl)))
  | _ => exact h.elim

/-- Of the three outcomes of a decoder step, only an abandoned frame has a diagnostic for its event. -/
theorem raisedBy_of_stepDecoder {b : Byte} {s t : State} {g : Diag} (h : stepDecoder b s = .ok (some (.diag g), t)) :
    raisedBy s.dec b g ∧ t = (s.emitDiag g).parserReset := by
  rcases stepDecoder_cases b s t _ h with ⟨_, -, he, -⟩ | ⟨_, hraised, he, ht⟩ | ⟨_, -, -, -, he, -⟩ <;> cases he
  exact ⟨hraised, ht⟩

/-- The decoder itself records no result: the last one after a DEC.STEP is its event (R160). -/
theorem stepDecoder_of_exec_decStep {b : Byte} {s t : State} {e : Option Event} (h : exec (.decStep b) s = .next t)
    (hret : t.returns = s.returns ++ [⟨.poll, .event e⟩]) :
    ∃ u, stepDecoder b s = .ok (e, u) ∧ t = u.answer .poll (.event e) := by
  obtain ⟨e', u, hstep, hanswer⟩ := finishWith_next h
  cases hanswer
  have hkept : u.returns = s.returns := onlyChanges_stepDecoder hstep .returns (by decide)
  obtain rfl : e' = e := by simpa [hkept] using hret
  exact ⟨u, hstep, rfl⟩

end Sys2Proof.Machine
end

section
/-! SUPPORT. The statement of the frame-level errors (O25). -/

open Sys2Proof Sys2Proof.Machine

namespace Sys2Proof.Settled

/-- Settles O25: the diagnostic answered is the error the decoder of before raised, and the frame is abandoned. -/
theorem frameLevelErrorResetsTheParser : Obligations.FrameLevelErrorResetsTheParser := by
  unfold Obligations.FrameLevelErrorResetsTheParser
  intro b s t d h hret
  obtain ⟨u, hstep, rfl⟩ := stepDecoder_of_exec_decStep h hret
  obtain ⟨hraised, rfl⟩ := raisedBy_of_stepDecoder hstep
  have hcode : d.code ≤ 4 := of_decide_eq_true (raisedBy_frameLevel s.dec b d hraised)
  exact ⟨one_le_code d, hcode, eq_of_raisedBy hraised, rfl, rfl,
    onlyChanges_then (onlyChanges_abandoned s d) (onlyChanges_answer _ _ _)⟩

end Sys2Proof.Settled
end

section
/-! SUPPORT. The turn that is the reset event (R270). -/

namespace Sys2Proof.Machine

theorem step_of_resetTurn {s : State} {ts : List Turn} (h : s.sched = .reset :: ts) :
    step s = .next (resetEvent (s.setSched ts)) := by
  rw [step, takeTurn, h]

/-- Taking the turn off the schedule first changes only the schedule that the reset event keeps (log 15). -/
theorem resetEvent_setSched (s : State) (ts : List Turn) :
    resetEvent (s.setSched ts) = { resetEvent s with sched := ts } := rfl

end Sys2Proof.Machine
end

section
/-! SUPPORT. The statement of the reset event (O56). -/

open Sys2Proof Sys2Proof.Machine

namespace Sys2Proof.Settled

/-- Settles O56: the turn is the reset event of the state with the turn off its schedule. -/
theorem resetEventRestoresEverything : Obligations.ResetEventRestoresEverything := by
  unfold Obligations.ResetEventRestoresEverything
  intro s ts h
  rw [step_of_resetTurn h, resetEvent_setSched, resetEvent]

end Sys2Proof.Settled
end
